-- ==== Sys2Proof/Word.lean ====
section
/-! DEFINITION. The widths fixed by the architecture (`00_scope.md` R10, R11; `10_state.md` R20): words,
bytes, register numbers. -/

namespace Sys2Proof

/-- A word is 32 bits (R11): register contents, addresses, instruction words. -/
abbrev Word := BitVec 32

/-- The addressable unit of memory is the 8-bit byte (R51). -/
abbrev Byte := BitVec 8

/-- A register number is a 4-bit field, `0 .. 15` (R20). -/
abbrev Reg := Fin 16

/-- `2^32`, the modulus of all 32-bit arithmetic (R12). -/
abbrev wordModulus : Nat := 4294967296

end Sys2Proof
end

