-- ==== Sys2Proof/Opcode.lean ====
section
/-! DEFINITION. The mnemonics as data: the decoded `op` that the latches carry (`10_state.md` R38 to
R40) and the first column of the opcode map (`30_encoding.md` R100). -/

namespace Sys2Proof

/-- The 26 mnemonics (R100). -/
inductive Opcode where
  | addi | subi | andi | ori | xori | shli | shri
  | addu | subu | shru
  | addim
  | cmp32
  | ld32 | ldin32 | st32 | stin32
  | jmp | je | jne | jlt | jle | jgt | jge
  | call | ret
  | halt
deriving DecidableEq, Repr

end Sys2Proof
end

