-- ==== Sys2Proof/Syntax.lean ====
section
/-! DEFINITION. The instructions, one constructor per row of `spec/opcode_table.json`
(`30_encoding.md` R100). Operands are those of the decoder's record (R96): register numbers, the
32-bit immediate after extension (R97, R98) and the 32-bit byte target (R99). -/

namespace Sys2Proof

/-- An instruction with its operands, in assembly order (R100). -/
inductive Instr where
  /-- R121. -/
  | addi (ra rb rc : Reg)
  /-- R122. -/
  | subi (ra rb rc : Reg)
  /-- R123. -/
  | andi (ra rb rc : Reg)
  /-- R124. -/
  | ori (ra rb rc : Reg)
  /-- R125: three registers (conflict C1). -/
  | xori (ra rb rc : Reg)
  /-- R126. -/
  | shli (ra rb rc : Reg)
  /-- R127. -/
  | shri (ra rb rc : Reg)
  /-- R128. -/
  | addu (ra rb rc : Reg)
  /-- R129. -/
  | subu (ra rb rc : Reg)
  /-- R130. -/
  | shru (ra rb rc : Reg)
  /-- R131: `imm = sext_32(imm20)`. -/
  | addim (ra : Reg) (imm : Word)
  /-- R140. -/
  | cmp32 (rb rc : Reg)
  /-- R146: `addr = zext_32(imm20)`. -/
  | ld32 (ra : Reg) (addr : Word)
  /-- R147. -/
  | ldin32 (ra rb : Reg)
  /-- R148: `ra` is the source of the data. -/
  | st32 (ra : Reg) (addr : Word)
  /-- R149. -/
  | stin32 (ra rb : Reg)
  /-- R161: `target = tgt24 * 4`. -/
  | jmp (target : Word)
  /-- R162. -/
  | je (target : Word)
  /-- R163. -/
  | jne (target : Word)
  /-- R164. -/
  | jlt (target : Word)
  /-- R165. -/
  | jle (target : Word)
  /-- R166. -/
  | jgt (target : Word)
  /-- R167. -/
  | jge (target : Word)
  /-- R168. -/
  | call (target : Word)
  /-- R169. -/
  | ret
  /-- R180. -/
  | halt
deriving DecidableEq, Repr

end Sys2Proof
end

