-- ==== Sys2Proof/WellFormed.lean ====
section
/-! DEFINITION. Which instructions have an encoding: the operand ranges of `30_encoding.md` R97, R98
and R99. Register numbers are in range by their type. -/

namespace Sys2Proof

/-- A value that some `imm20` sign-extends to: `-524288 .. 524287` (R97). -/
def isSext20 (imm : Word) : Bool := -524288 ≤ imm.toInt && imm.toInt ≤ 524287

/-- A direct address: `0 .. 0xFFFFF` (R98). Alignment is software's duty (R56), not the encoding's. -/
def isDirectAddress (addr : Word) : Bool := addr.toNat < 1048576

/-- A branch target: a multiple of 4 in `0 .. 0x3FFFFFC` (R99). -/
def isTarget (target : Word) : Bool := target.toNat % 4 == 0 && target.toNat < 67108864

/-- The instruction has an encoding. -/
def Instr.wf : Instr → Bool
  | .addi _ _ _ => true
  | .subi _ _ _ => true
  | .andi _ _ _ => true
  | .ori _ _ _ => true
  | .xori _ _ _ => true
  | .shli _ _ _ => true
  | .shri _ _ _ => true
  | .addu _ _ _ => true
  | .subu _ _ _ => true
  | .shru _ _ _ => true
  | .addim _ imm => isSext20 imm
  | .cmp32 _ _ => true
  | .ld32 _ addr => isDirectAddress addr
  | .ldin32 _ _ => true
  | .st32 _ addr => isDirectAddress addr
  | .stin32 _ _ => true
  | .jmp target => isTarget target
  | .je target => isTarget target
  | .jne target => isTarget target
  | .jlt target => isTarget target
  | .jle target => isTarget target
  | .jgt target => isTarget target
  | .jge target => isTarget target
  | .call target => isTarget target
  | .ret => true
  | .halt => true

end Sys2Proof
end

