-- ==== Sys2Proof/Decode.lean ====
section
/-! DEFINITION. The byte order (`20_memory.md` R53, R54), the decoder (`30_encoding.md` R90 to R103),
total on every word and every byte string, and the encoder written from the same tables. -/

namespace Sys2Proof

/-! ### Byte order -/

/-- The unsigned value of a byte string, least significant byte first (R53). -/
def leValue : List Byte → Nat
  | [] => 0
  | b :: bs => b.toNat + 256 * leValue bs

/-- The `n` low-order bytes of `v`, least significant first (R53, R70). -/
def leBytes : Nat → Nat → List Byte
  | 0, _ => []
  | n + 1, v => BitVec.ofNat 8 v :: leBytes n (v / 256)

/-! ### Fields (R91) -/

/-- `op = w[31:24]`. -/
def opField (w : Word) : Byte := BitVec.ofNat 8 (w.toNat / 16777216)

/-- `ra = w[23:20]`. -/
def raField (w : Word) : Reg := ⟨w.toNat / 1048576 % 16, Nat.mod_lt _ (by decide)⟩

/-- `rb = w[19:16]`. -/
def rbField (w : Word) : Reg := ⟨w.toNat / 65536 % 16, Nat.mod_lt _ (by decide)⟩

/-- `rc = w[15:12]`. -/
def rcField (w : Word) : Reg := ⟨w.toNat / 4096 % 16, Nat.mod_lt _ (by decide)⟩

/-- `imm20 = w[19:0]`. -/
def imm20Field (w : Word) : Nat := w.toNat % 1048576

/-- `tgt24 = w[23:0]`. -/
def tgt24Field (w : Word) : Nat := w.toNat % 16777216

/-- `sext_32` of a 20-bit field: `v` if `v[19] = 0`, else `v + 0xFFF00000` (R12, R97). -/
def sext20 (v : Nat) : Word :=
  if v < 524288 then BitVec.ofNat 32 v else BitVec.ofNat 32 (v + 0xFFF00000)

/-- `zext_32` of a field (R12, R98). -/
def zext (v : Nat) : Word := BitVec.ofNat 32 v

/-- `target = tgt24 * 4` (R99). -/
def scaledTarget (v : Nat) : Word := BitVec.ofNat 32 (v * 4)

/-! ### The opcode map (R100) -/

/-- The opcode byte of a mnemonic, the first column of R100. -/
def Opcode.byte : Opcode → Byte
  | .addi => 0x10
  | .subi => 0x11
  | .andi => 0x12
  | .ori => 0x13
  | .xori => 0x14
  | .shli => 0x15
  | .shri => 0x16
  | .addu => 0x18
  | .subu => 0x19
  | .shru => 0x1E
  | .addim => 0x20
  | .cmp32 => 0x28
  | .ld32 => 0x30
  | .ldin32 => 0x31
  | .st32 => 0x38
  | .stin32 => 0x39
  | .jmp => 0x40
  | .je => 0x41
  | .jne => 0x42
  | .jlt => 0x43
  | .jle => 0x44
  | .jgt => 0x45
  | .jge => 0x46
  | .call => 0x48
  | .ret => 0x49
  | .halt => 0x50

/-- The mnemonic of an opcode byte; `none` for the 230 unassigned values (R101, R103). -/
def Opcode.ofByte (b : Byte) : Option Opcode :=
  match b.toNat with
  | 0x10 => some .addi
  | 0x11 => some .subi
  | 0x12 => some .andi
  | 0x13 => some .ori
  | 0x14 => some .xori
  | 0x15 => some .shli
  | 0x16 => some .shri
  | 0x18 => some .addu
  | 0x19 => some .subu
  | 0x1E => some .shru
  | 0x20 => some .addim
  | 0x28 => some .cmp32
  | 0x30 => some .ld32
  | 0x31 => some .ldin32
  | 0x38 => some .st32
  | 0x39 => some .stin32
  | 0x40 => some .jmp
  | 0x41 => some .je
  | 0x42 => some .jne
  | 0x43 => some .jlt
  | 0x44 => some .jle
  | 0x45 => some .jgt
  | 0x46 => some .jge
  | 0x48 => some .call
  | 0x49 => some .ret
  | 0x50 => some .halt
  | _ => none

/-! ### The decoder (R101) -/

/-- Why bytes are not an instruction. -/
inductive DecodeError where
  /-- The opcode field of the word matches no known instruction (R101, R103). -/
  | invalidOpcode (w : Word)
  /-- Fewer than the four bytes of an instruction word (R90). -/
  | truncated
deriving DecidableEq, Repr

/-- The instruction of a row, built from the fields its format names (R92 to R95, R97 to R99); the
other bits are ignored (R102). -/
def buildInstr (op : Opcode) (w : Word) : Instr :=
  match op with
  | .addi => .addi (raField w) (rbField w) (rcField w)
  | .subi => .subi (raField w) (rbField w) (rcField w)
  | .andi => .andi (raField w) (rbField w) (rcField w)
  | .ori => .ori (raField w) (rbField w) (rcField w)
  | .xori => .xori (raField w) (rbField w) (rcField w)
  | .shli => .shli (raField w) (rbField w) (rcField w)
  | .shri => .shri (raField w) (rbField w) (rcField w)
  | .addu => .addu (raField w) (rbField w) (rcField w)
  | .subu => .subu (raField w) (rbField w) (rcField w)
  | .shru => .shru (raField w) (rbField w) (rcField w)
  | .addim => .addim (raField w) (sext20 (imm20Field w))
  | .cmp32 => .cmp32 (rbField w) (rcField w)
  | .ld32 => .ld32 (raField w) (zext (imm20Field w))
  | .ldin32 => .ldin32 (raField w) (rbField w)
  | .st32 => .st32 (raField w) (zext (imm20Field w))
  | .stin32 => .stin32 (raField w) (rbField w)
  | .jmp => .jmp (scaledTarget (tgt24Field w))
  | .je => .je (scaledTarget (tgt24Field w))
  | .jne => .jne (scaledTarget (tgt24Field w))
  | .jlt => .jlt (scaledTarget (tgt24Field w))
  | .jle => .jle (scaledTarget (tgt24Field w))
  | .jgt => .jgt (scaledTarget (tgt24Field w))
  | .jge => .jge (scaledTarget (tgt24Field w))
  | .call => .call (scaledTarget (tgt24Field w))
  | .ret => .ret
  | .halt => .halt

/-- `Decode(w)`: a function of the word alone, total on all `2^32` words (R90, R101). -/
def decode (w : Word) : Except DecodeError Instr :=
  match Opcode.ofByte (opField w) with
  | some op => .ok (buildInstr op w)
  | none => .error (.invalidOpcode w)

/-- Decoding the front of a byte string as the hardware stores it (R54): the instruction and the
rest, total on any bytes. -/
def decodeBytes : List Byte → Except DecodeError (Instr × List Byte)
  | b0 :: b1 :: b2 :: b3 :: rest =>
    match decode (BitVec.ofNat 32 (leValue [b0, b1, b2, b3])) with
    | .ok i => .ok (i, rest)
    | .error e => .error e
  | _ => .error .truncated

/-- The decoder on an instruction word given as the opcode table numbers its bits: every bit from
`nbits` up is 0, the four bytes are laid out little-endian (R54) and decoded. -/
def decodeTableWord (nbits w : Nat) : Option Instr :=
  match decodeBytes (leBytes 4 (w % 2 ^ nbits)) with
  | .ok (i, _) => some i
  | .error _ => none

/-! ### The mnemonic of an instruction, and the encoder -/

/-- The mnemonic (`op` of the decoder's record, R96). -/
def Instr.op : Instr → Opcode
  | .addi _ _ _ => .addi
  | .subi _ _ _ => .subi
  | .andi _ _ _ => .andi
  | .ori _ _ _ => .ori
  | .xori _ _ _ => .xori
  | .shli _ _ _ => .shli
  | .shri _ _ _ => .shri
  | .addu _ _ _ => .addu
  | .subu _ _ _ => .subu
  | .shru _ _ _ => .shru
  | .addim _ _ => .addim
  | .cmp32 _ _ => .cmp32
  | .ld32 _ _ => .ld32
  | .ldin32 _ _ => .ldin32
  | .st32 _ _ => .st32
  | .stin32 _ _ => .stin32
  | .jmp _ => .jmp
  | .je _ => .je
  | .jne _ => .jne
  | .jlt _ => .jlt
  | .jle _ => .jle
  | .jgt _ => .jgt
  | .jge _ => .jge
  | .call _ => .call
  | .ret => .ret
  | .halt => .halt

/-- Format R (R92): `op | ra | rb | rc | 0`. -/
def encodeR (op : Opcode) (ra rb rc : Reg) : Word :=
  BitVec.ofNat 32
    (op.byte.toNat * 16777216 + ra.val * 1048576 + rb.val * 65536 + rc.val * 4096)

/-- Format I (R93): `op | ra | imm20`, the immediate's low 20 bits. -/
def encodeI (op : Opcode) (ra : Reg) (imm : Word) : Word :=
  BitVec.ofNat 32 (op.byte.toNat * 16777216 + ra.val * 1048576 + imm.toNat % 1048576)

/-- Format J (R94): `op | tgt24`, the target in words. -/
def encodeJ (op : Opcode) (target : Word) : Word :=
  BitVec.ofNat 32 (op.byte.toNat * 16777216 + target.toNat / 4 % 16777216)

/-- Format Z (R95): `op | 0`. -/
def encodeZ (op : Opcode) : Word := BitVec.ofNat 32 (op.byte.toNat * 16777216)

/-- The word of an instruction; bits its format ignores are written 0 (R102). -/
def encode : Instr → Word
  | .addi ra rb rc => encodeR .addi ra rb rc
  | .subi ra rb rc => encodeR .subi ra rb rc
  | .andi ra rb rc => encodeR .andi ra rb rc
  | .ori ra rb rc => encodeR .ori ra rb rc
  | .xori ra rb rc => encodeR .xori ra rb rc
  | .shli ra rb rc => encodeR .shli ra rb rc
  | .shri ra rb rc => encodeR .shri ra rb rc
  | .addu ra rb rc => encodeR .addu ra rb rc
  | .subu ra rb rc => encodeR .subu ra rb rc
  | .shru ra rb rc => encodeR .shru ra rb rc
  | .addim ra imm => encodeI .addim ra imm
  | .cmp32 rb rc => encodeR .cmp32 0 rb rc
  | .ld32 ra addr => encodeI .ld32 ra addr
  | .ldin32 ra rb => encodeR .ldin32 ra rb 0
  | .st32 ra addr => encodeI .st32 ra addr
  | .stin32 ra rb => encodeR .stin32 ra rb 0
  | .jmp target => encodeJ .jmp target
  | .je target => encodeJ .je target
  | .jne target => encodeJ .jne target
  | .jlt target => encodeJ .jlt target
  | .jle target => encodeJ .jle target
  | .jgt target => encodeJ .jgt target
  | .jge target => encodeJ .jge target
  | .call target => encodeJ .call target
  | .ret => encodeZ .ret
  | .halt => encodeZ .halt

/-- The bytes of a word as stored (R53, R54). -/
def wordBytes (w : Word) : List Byte := leBytes 4 w.toNat

/-- A program image from its instructions (R54, R115): instruction `k` at offset `4k`. -/
def imageOf : List Instr → List Byte
  | [] => []
  | i :: is => wordBytes (encode i) ++ imageOf is

end Sys2Proof
end

