-- ==== Sys2Proof/Config.lean ====
section
/-! DEFINITION. The configuration surface "consumed at construction" (`00_scope.md` R7) and the
checks made before any cycle executes (R8, R9). The machine has no non-determinism (R201), so there
is no free value here. -/

namespace Sys2Proof

/-- One cache level: `CAP[i]`, `LINE[i]` in bytes and `LAT[i]` in cycles (R7). -/
structure Level where
  /-- `CAP[i]`, capacity in bytes. -/
  cap : Nat
  /-- `LINE[i]`, line size in bytes. -/
  line : Nat
  /-- `LAT[i]`, access latency in cycles. -/
  lat : Nat
deriving DecidableEq, Repr

/-- `NLINES[i] = CAP[i] / LINE[i]` (R7). -/
def Level.nlines (lv : Level) : Nat := lv.cap / lv.line

/-- The ten parameters of R7; `NLEVELS` is the length of `levels`, level 0 first. -/
structure Config where
  /-- The cache levels, index 0 closest to the pipeline. -/
  levels : List Level
  /-- `MEM_LAT`, main-memory access latency in cycles. -/
  memLat : Nat
  /-- `MEM_SIZE`, main-memory size in bytes. -/
  memSize : Nat
  /-- `LOAD_BASE`, where the image is loaded; 0 unless given (R9, D22). -/
  loadBase : Nat := 0
  /-- `ENTRY`, the program entry address; `LOAD_BASE` unless given (R9, D22). -/
  entry : Nat := loadBase
  /-- `STACK_DEPTH`, entries of the return-address stack. -/
  stackDepth : Nat
  /-- `IMAGE`, the program image, a byte string. -/
  image : List Byte
deriving DecidableEq, Repr

/-- `NLEVELS` (R7). -/
def Config.nlevels (c : Config) : Nat := c.levels.length

/-- Why construction rejects a configuration. The first three are GF's own checks (R8), the others
the constraints this spec adds (R9, D21). -/
inductive ConfigError where
  /-- "a line size that is not a power of two" (R8). -/
  | lineNotPowerOfTwo
  /-- "a capacity not divisible by its line size" (R8). -/
  | capacityNotMultipleOfLine
  /-- "zero cache levels" (R8). -/
  | noCacheLevel
  /-- `LINE[i] >= 4` fails (R9). -/
  | lineShorterThanWord
  /-- `CAP[i] >= LINE[i]` fails (R9). -/
  | levelWithoutLine
  /-- `4 <= MEM_SIZE <= 2^32` fails (R9). -/
  | memorySizeOutOfRange
  /-- `MEM_SIZE` is no multiple of some `LINE[i]` (R9). -/
  | memoryNotMultipleOfLine
  /-- `STACK_DEPTH >= 1` fails (R9). -/
  | noStack
  /-- `ENTRY mod 4 = 0` and `ENTRY + 4 <= MEM_SIZE` fails (R9). -/
  | badEntry
  /-- `LOAD_BASE mod 4 = 0` and `LOAD_BASE + length(IMAGE) <= MEM_SIZE` fails (R9). -/
  | badImage
deriving DecidableEq, Repr

/-- `n` is a power of two. -/
def isPowerOfTwo (n : Nat) : Bool := 2 ^ n.log2 == n

/-- The checks of R8 and R9 in order, the first broken one if any. -/
def Config.check (c : Config) : Option ConfigError :=
  if !(c.levels.all fun lv => isPowerOfTwo lv.line) then some .lineNotPowerOfTwo
  else if !(c.levels.all fun lv => lv.cap % lv.line == 0) then some .capacityNotMultipleOfLine
  else if c.levels.isEmpty then some .noCacheLevel
  else if !(c.levels.all fun lv => 4 ≤ lv.line) then some .lineShorterThanWord
  else if !(c.levels.all fun lv => lv.line ≤ lv.cap) then some .levelWithoutLine
  else if !(4 ≤ c.memSize && c.memSize ≤ wordModulus) then some .memorySizeOutOfRange
  else if !(c.levels.all fun lv => c.memSize % lv.line == 0) then some .memoryNotMultipleOfLine
  else if c.stackDepth == 0 then some .noStack
  else if !(c.entry % 4 == 0 && c.entry + 4 ≤ c.memSize) then some .badEntry
  else if !(c.loadBase % 4 == 0 && c.loadBase + c.image.length ≤ c.memSize) then some .badImage
  else none

/-- A configuration the hardware can be built from (R8, R9). -/
def Config.wf (c : Config) : Bool := c.check == none

/-- The configuration `CFG1` of `95_test_vectors.md` with an empty image: the configuration of
`State.reset`, with the spec's defaults of `LOAD_BASE` and `ENTRY`. DESIGN CHOICE (log 3): the spec
gives no default for the other parameters (N31). -/
def Config.cfg1 : Config where
  levels := [{ cap := 64, line := 16, lat := 1 }]
  memLat := 3
  memSize := 4096
  stackDepth := 4
  image := []

end Sys2Proof
end

