-- ==== Sys2Proof/Machine/State.lean ====
section
/-! DEFINITION. The state of the machine (`10_state.md`), plain data, and its value after reset (R44);
the reasons a step of the model can stop. -/

namespace Sys2Proof.Machine

/-- The three condition flags, each stored (R26). -/
structure Flags where
  /-- `EQ`, equal. -/
  eq : Bool
  /-- `LT`, less-than. -/
  lt : Bool
  /-- `LE`, less-or-equal: stored, not computed from the other two. -/
  le : Bool
deriving DecidableEq, Repr

/-- Main memory as (address, byte) pairs in canonical form: addresses strictly rising, no byte 0
listed. An unlisted address reads as 0 (R44, D22). -/
abbrev Mem := List Host.Cell

/-- One cache line (R35). -/
structure Line where
  /-- The valid bit. -/
  valid : Bool
  /-- The tag; never read while invalid. -/
  tag : Nat
  /-- The bytes of the line; never read while invalid. -/
  data : List Byte
deriving DecidableEq, Repr

/-- One cache level: its lines by index, `NLINES[i]` of them (R35). -/
abbrev Cache := List Line

/-- The latch `FD`, Fetch to Decode (R37). A bubble is `none` (R36). -/
structure FetchLatch where
  /-- The address the word was fetched from. -/
  pc : Word
  /-- The fetched instruction word. -/
  word : Word
deriving DecidableEq, Repr

/-- The latch `DE`, Decode to Execute (R38). A field an instruction does not use is 0 and is never
read (log 10). -/
structure DecodeLatch where
  /-- The instruction's own address. -/
  pc : Word
  /-- The decoded mnemonic. -/
  op : Opcode
  /-- The register Writeback will write, if any. -/
  dst : Option Reg
  /-- First operand value (R219). -/
  a : Word
  /-- Second operand value (R219). -/
  b : Word
  /-- The flags read in Decode. -/
  flIn : Flags
  /-- The branch target. -/
  target : Word
deriving DecidableEq, Repr

/-- The latch `EM`, Execute to Memory (R39). -/
structure ExecuteLatch where
  /-- The instruction's own address. -/
  pc : Word
  /-- The decoded mnemonic. -/
  op : Opcode
  /-- The register Writeback will write, if any. -/
  dst : Option Reg
  /-- The ALU result, or the effective address of a load or store. -/
  res : Word
  /-- The value a store writes. -/
  sdata : Word
  /-- The flags of a `CMP32`. -/
  flOut : Option Flags
deriving DecidableEq, Repr

/-- The latch `MW`, Memory to Writeback (R40). -/
structure MemoryLatch where
  /-- The instruction's own address. -/
  pc : Word
  /-- The decoded mnemonic. -/
  op : Opcode
  /-- The register Writeback will write, if any. -/
  dst : Option Reg
  /-- The value to commit. -/
  val : Word
  /-- The flags to commit. -/
  flOut : Option Flags
deriving DecidableEq, Repr

/-- The four kinds of fault of the hardware (R260). -/
inductive FaultKind where
  /-- Decode: an unassigned opcode field. -/
  | invalidOpcode
  /-- Memory or Fetch: an address outside main memory. -/
  | outOfBoundsAccess
  /-- Execute: `RET` with no entry on the return-address stack. -/
  | stackUnderflow
  /-- Execute: `CALL` with the return-address stack full. -/
  | stackOverflow
deriving DecidableEq, Repr

/-- What the engine holds when Faulted (R33). -/
structure FaultRecord where
  /-- Which fault. -/
  kind : FaultKind
  /-- The address of the faulting instruction. -/
  faultPc : Word
  /-- The offending data address or instruction word, if the kind has one. -/
  info : Option Word
deriving DecidableEq, Repr

/-- The engine's status (R32). The record exists exactly when Faulted (R33). -/
inductive Status where
  /-- Cycles are issued. -/
  | running
  /-- Terminal: `HALT` reached Writeback (R225). -/
  | halted
  /-- Terminal: a fault was raised (R262). -/
  | faulted (record : FaultRecord)
deriving DecidableEq, Repr

/-- The whole state: the tuple at the head of `10_state.md`, the controller's breakpoint set (R42),
the configuration the hardware was built with (R7; log 2) and the model's own record of stores
(log 7). -/
structure State where
  /-- The configuration; no operation changes it. -/
  cfg : Config
  /-- `x[0..15]`, the general registers (R20). -/
  x : Vector Word 16
  /-- `EQ`, `LT`, `LE` (R26). -/
  flags : Flags
  /-- `pc` (R24): in the cycle view the next word to fetch, in the architectural view the
  instruction about to execute. -/
  pc : Word
  /-- `ras[0..STACK_DEPTH-1]` (R30). -/
  ras : List Word
  /-- `sp`, the number of valid entries of `ras` (R30). -/
  sp : Nat
  /-- `mem[0..MEM_SIZE-1]` (R34). -/
  mem : Mem
  /-- `cache[0..NLEVELS-1]` (R35). -/
  caches : List Cache
  /-- `FD` (R37). -/
  fd : Option FetchLatch
  /-- `DE` (R38). -/
  de : Option DecodeLatch
  /-- `EM` (R39). -/
  em : Option ExecuteLatch
  /-- `MW` (R40). -/
  mw : Option MemoryLatch
  /-- `mbusy`, the Memory stage's stall counter (R41). -/
  mbusy : Nat
  /-- `mdata`, the data of a multi-cycle load (R41). -/
  mdata : Word
  /-- `status`, with the fault record (R32, R33). -/
  status : Status
  /-- The controller's breakpoint addresses, strictly rising (R42). -/
  breakpoints : List Nat
  /-- The model's own field: effective addresses of the stores since reset, strictly rising (log 7). -/
  stored : List Nat
deriving DecidableEq, Repr

/-- Why the engine cannot make a step. The hardware's own faults are no stop of the model: they are
taken, as a next state whose status is Faulted (R262; log 5). -/
inductive Fault where
  /-- Raised by `cycle`, and by nothing else, on a state that is Halted or Faulted: "no further cycle
  runs" (R262), `Cycle` is "defined only when `status = Running`" (R201). Safe: nothing is claimed of
  such a cycle. -/
  | engineNotRunning
deriving DecidableEq, Repr

/-- Why the model gives a step no meaning. -/
inductive Refusal where
  /-- Raised by an arm of `exec` whose instruction has no meaning yet. Safe. -/
  | notModelled (mnemonic : String)
  /-- Raised by `LD32`, `LDIN32`, `ST32`, `STIN32` and the Memory stage when the effective address is
  no multiple of 4: "a model refuses it" (R56, U6). Safe. -/
  | misalignedAccess (pc ea : Word)
  /-- Raised by `step` when it executes, by the Fetch stage of `cycle` when it fetches, and by the Execute
  stage when the instruction there was fetched before the store from, an address the program has stored
  into: "a model refuses it" (R79, U5; log 7, log 8). Safe. -/
  | selfModifiedCode (pc : Word)
  /-- Raised by `step` and `cycle` on a state whose configuration breaks R8 or R9: "no state exists
  for it" (R293), "gives no meaning" (R9). Safe. -/
  | configurationRejected
  /-- Raised by the controller's `read_register` for an id above 15 (U16). Safe. -/
  | noSuchRegister (id : Nat)
  /-- Raised by the controller's `read_memory` for a width other than 1, 2, 4 or an address that is
  no multiple of the width (U17). Safe. -/
  | badMemoryRead (addr width : Nat)
deriving DecidableEq, Repr

/-- The machine right after reset, by the table of R44, in configuration `CFG1` with an empty image
(log 3, log 4). -/
def State.reset : State where
  cfg := Config.cfg1
  x := Vector.replicate 16 0
  flags := { eq := false, lt := false, le := false }
  pc := 0
  ras := [0, 0, 0, 0]
  sp := 0
  mem := []
  caches := [List.replicate 4 { valid := false, tag := 0, data := List.replicate 16 0 }]
  fd := none
  de := none
  em := none
  mw := none
  mbusy := 0
  mdata := 0
  status := .running
  breakpoints := []
  stored := []

end Sys2Proof.Machine
end

