-- ==== Sys2Proof/Machine/Ops.lean ====
section
/-! DEFINITION. The named operations over memory, the cache hierarchy, registers, the return-address
stack and the status. Every meaning, the fetch and every pipeline stage go through these. -/

namespace Sys2Proof.Machine

/-! ### Main memory (`20_memory.md` R51, R53) -/

/-- What an address that is not listed reads as: 0 (R44, D22). -/
def unlistedByte : Byte := 0

/-- One byte of memory, `mem[a]` (R13). -/
def readByte : Mem → Nat → Byte
  | [], _ => unlistedByte
  | (k, v) :: rest, a => if k = a then v else readByte rest a

/-- `mem[a] <- b`, keeping the canonical form: writing what an unlisted address reads as removes the
entry. -/
def writeByte : Mem → Nat → Byte → Mem
  | [], a, b => if b = unlistedByte then [] else [(a, b)]
  | (k, v) :: rest, a, b =>
    if a < k then (if b = unlistedByte then (k, v) :: rest else (a, b) :: (k, v) :: rest)
    else if k = a then (if b = unlistedByte then rest else (a, b) :: rest)
    else (k, v) :: writeByte rest a b

/-- The canonical form: addresses strictly rising, no byte equal to what an unlisted one reads as. -/
def Memory.wf : Mem → Bool
  | [] => true
  | (k, v) :: rest => v != unlistedByte && rest.all (fun c => k < c.1) && Memory.wf rest

/-- `mem[a .. a+n-1]`. -/
def readBytes (m : Mem) (a : Nat) : Nat → List Byte
  | 0 => []
  | n + 1 => readByte m a :: readBytes m (a + 1) n

/-- `mem[a .. a+length-1] := bytes`. -/
def writeBytes (m : Mem) (a : Nat) : List Byte → Mem
  | [] => m
  | b :: bs => writeBytes (writeByte m a b) (a + 1) bs

/-- `MemWord(a)`, four bytes little-endian (R54). -/
def memWord (m : Mem) (a : Nat) : Word := BitVec.ofNat 32 (leValue (readBytes m a 4))

/-- The bounds check of R64, on unbounded integers. -/
def inBounds (cfg : Config) (addr n : Nat) : Bool := addr + n ≤ cfg.memSize

/-- The access is at a multiple of its width (R56, R58). -/
def isAligned (addr n : Nat) : Bool := addr % n == 0

/-! ### The cache hierarchy (`20_memory.md` R62 to R71) -/

/-- `index_i(addr)` (R62). -/
def lineIndex (lv : Level) (addr : Nat) : Nat := addr / lv.line % lv.nlines

/-- `tag_i(addr)` (R62). -/
def lineTag (lv : Level) (addr : Nat) : Nat := addr / (lv.line * lv.nlines)

/-- `offset_i(addr)` (R62). -/
def lineOffset (lv : Level) (addr : Nat) : Nat := addr % lv.line

/-- `base_i(addr)` (R62). -/
def lineBase (lv : Level) (addr : Nat) : Nat := addr - lineOffset lv addr

/-- The line that holds `addr` at this level, if `addr` hits there (R63). -/
def hitLine (lv : Level) (lines : Cache) (addr : Nat) : Option Line :=
  match lines[lineIndex lv addr]? with
  | some ln => if ln.valid && ln.tag == lineTag lv addr then some ln else none
  | none => none

/-- The little-endian value of `n` bytes of a line (R66, R69). -/
def lineValue (lv : Level) (ln : Line) (addr n : Nat) : Nat :=
  leValue ((ln.data.drop (lineOffset lv addr)).take n)

/-- The probe of R66, level by level from 0: the value and the latency at the first level hit. -/
def probe : List Level → List Cache → Nat → Nat → Option (Nat × Nat)
  | lv :: lvs, c :: cs, addr, n =>
    match hitLine lv c addr with
    | some ln => some (lineValue lv ln addr n, lv.lat)
    | none =>
      match probe lvs cs addr n with
      | some (v, lat) => some (v, lv.lat + lat)
      | none => none
  | _, _, _, _ => none

/-- `LAT[0] + ... + LAT[NLEVELS-1] + MEM_LAT` (R67, R71). -/
def fullLatency (cfg : Config) : Nat := (cfg.levels.map Level.lat).sum + cfg.memLat

/-- One level's fill: the enclosing line, copied from memory, replaces the line at its index (R68). -/
def fillLevel (m : Mem) (addr : Nat) (lv : Level) (c : Cache) : Cache :=
  c.set (lineIndex lv addr)
    { valid := true, tag := lineTag lv addr, data := readBytes m (lineBase lv addr) lv.line }

/-- The fill of every level (R68). -/
def fillAll (m : Mem) (addr : Nat) (levels : List Level) (caches : List Cache) : List Cache :=
  List.zipWith (fillLevel m addr) levels caches

/-- `data[off .. off+length-1] := bytes`. -/
def overlay (data : List Byte) (off : Nat) (bs : List Byte) : List Byte :=
  data.take off ++ bs ++ data.drop (off + bs.length)

/-- One level's part of a write: a hit updates the line in place, a miss does nothing (R70). -/
def writeLevel (addr : Nat) (bs : List Byte) (lv : Level) (c : Cache) : Cache :=
  match hitLine lv c addr with
  | some ln =>
    c.set (lineIndex lv addr) { ln with data := overlay ln.data (lineOffset lv addr) bs }
  | none => c

/-- What a read of the hierarchy gives back. -/
structure ReadResult where
  /-- The value read. -/
  value : Nat
  /-- The cycles the access occupies. -/
  latency : Nat
  /-- The caches after the access. -/
  caches : List Cache
deriving DecidableEq, Repr

/-- `HierRead(addr, n)` (R66), its precondition checked by the caller. -/
def hierRead (cfg : Config) (m : Mem) (caches : List Cache) (addr n : Nat) : ReadResult :=
  match probe cfg.levels caches addr n with
  | some (v, lat) => { value := v, latency := lat, caches := caches }
  | none =>
    { value := leValue (readBytes m addr n)
      latency := fullLatency cfg
      caches := fillAll m addr cfg.levels caches }

/-- What a write of the hierarchy leaves. -/
structure WriteResult where
  /-- Main memory after the access. -/
  mem : Mem
  /-- The cycles the access occupies. -/
  latency : Nat
  /-- The caches after the access. -/
  caches : List Cache
deriving DecidableEq, Repr

/-- `HierWrite(addr, n, v)` (R70, R71), its precondition checked by the caller. -/
def hierWrite (cfg : Config) (m : Mem) (caches : List Cache) (addr n v : Nat) : WriteResult :=
  { mem := writeBytes m addr (leBytes n v)
    latency := fullLatency cfg
    caches := List.zipWith (writeLevel addr (leBytes n v)) cfg.levels caches }

/-! ### Data accesses of instructions (`42_load_store.md` R145) -/

/-- How a data access ends. -/
inductive Access (α : Type) where
  /-- Performed. -/
  | done (result : α)
  /-- `ea + 4 > MEM_SIZE`: nothing changed (R64). -/
  | outOfBounds
  /-- The address is no multiple of 4: the spec gives the access no meaning (R56). -/
  | misaligned
deriving DecidableEq, Repr

/-- A 32-bit read at `ea`: alignment first (V22, log 6), then bounds (R64), then `HierRead(ea, 4)`. -/
def dataRead (s : State) (ea : Word) : Access ReadResult :=
  if !isAligned ea.toNat 4 then .misaligned
  else if !inBounds s.cfg ea.toNat 4 then .outOfBounds
  else .done (hierRead s.cfg s.mem s.caches ea.toNat 4)

/-- A 32-bit write at `ea`: alignment first, then bounds, then `HierWrite(ea, 4, v)`. -/
def dataWrite (s : State) (ea v : Word) : Access WriteResult :=
  if !isAligned ea.toNat 4 then .misaligned
  else if !inBounds s.cfg ea.toNat 4 then .outOfBounds
  else .done (hierWrite s.cfg s.mem s.caches ea.toNat 4 v.toNat)

/-! ### The record of stores (log 7) -/

/-- Insertion into a strictly rising list of numbers. -/
def insertSorted (a : Nat) : List Nat → List Nat
  | [] => [a]
  | k :: rest => if a < k then a :: k :: rest else if a = k then k :: rest else k :: insertSorted a rest

/-- The list is strictly rising. -/
def isRising : List Nat → Bool
  | [] => true
  | k :: rest => rest.all (fun a => k < a) && isRising rest

/-- Some recorded store wrote a byte of the instruction word at `pc`. -/
def storedOver (stored : List Nat) (pc : Word) : Bool :=
  stored.any fun a => a < pc.toNat + 4 && pc.toNat < a + 4

/-! ### Registers, flags, program counter -/

/-- `x[r]` (R13). Register 0 is an ordinary register (R21). -/
def State.readReg (s : State) (r : Reg) : Word := s.x[r.val]

/-- `x[r] <- v` (R13). -/
def State.writeReg (s : State) (r : Reg) (v : Word) : State := { s with x := s.x.set r.val v r.isLt }

/-- `flags <- f` (R13). -/
def State.setFlags (s : State) (f : Flags) : State := { s with flags := f }

/-- `pc <- t` (R13). -/
def State.setPc (s : State) (t : Word) : State := { s with pc := t }

/-- The address of the word after the one at `pc`, modulo `2^32` (R25, D31). -/
def nextWordAddress (pc : Word) : Word := pc + 4

/-- The implicit `pc <- this_pc + 4` of the architectural view (R13). -/
def State.advance (s : State) : State := s.setPc (nextWordAddress s.pc)

/-! ### Return-address stack (`10_state.md` R30, R31) -/

/-- The stack is full (R168). -/
def State.rasFull (s : State) : Bool := s.sp == s.cfg.stackDepth

/-- The stack is empty (R169). -/
def State.rasEmpty (s : State) : Bool := s.sp == 0

/-- `ras[sp-1]`, the entry on top (R30). -/
def State.rasTop (s : State) : Word := s.ras.getD (s.sp - 1) 0

/-- `ras[sp] <- v; sp <- sp + 1` (R168). -/
def State.pushRas (s : State) (v : Word) : State :=
  { s with ras := s.ras.set s.sp v, sp := s.sp + 1 }

/-- `sp <- sp - 1`; the popped entry keeps its value (R169). -/
def State.popRas (s : State) : State := { s with sp := s.sp - 1 }

/-! ### Effects of data accesses on the state -/

/-- The caches as a read left them (R68). -/
def State.afterRead (s : State) (r : ReadResult) : State := { s with caches := r.caches }

/-- Memory and caches as a store at `ea` left them (R70), and the store recorded (log 7). -/
def State.afterWrite (s : State) (ea : Word) (r : WriteResult) : State :=
  { s with mem := r.mem, caches := r.caches, stored := insertSorted ea.toNat s.stored }

/-! ### Fault entry, halting, reset -/

/-- Taking a fault (`60_exceptions.md` R262): `status <- Faulted` with the record of R33, nothing else
changes: no handler, no saved state, no redirect of `pc`. -/
def State.raise (s : State) (kind : FaultKind) (faultPc : Word) (info : Option Word) : State :=
  { s with status := .faulted { kind := kind, faultPc := faultPc, info := info } }

/-- `status <- Halted` (R180). -/
def State.halt (s : State) : State := { s with status := .halted }

/-- A line as created at construction (R35, R44). -/
def emptyLine (lv : Level) : Line :=
  { valid := false, tag := 0, data := List.replicate lv.line 0 }

/-- A level as created at construction: all lines invalid (R35). -/
def emptyCache (lv : Level) : Cache := List.replicate lv.nlines (emptyLine lv)

/-- Main memory after reset: the image at `LOAD_BASE`, zero elsewhere (R292). -/
def loadedMemory (cfg : Config) : Mem := writeBytes [] cfg.loadBase cfg.image

/-- The state after construction or reset, the table of R44; the breakpoint set is the controller's
and is passed through (R42). -/
def State.init (cfg : Config) (breakpoints : List Nat) : State where
  cfg := cfg
  x := Vector.replicate 16 0
  flags := { eq := false, lt := false, le := false }
  pc := BitVec.ofNat 32 cfg.entry
  ras := List.replicate cfg.stackDepth 0
  sp := 0
  mem := loadedMemory cfg
  caches := cfg.levels.map emptyCache
  fd := none
  de := none
  em := none
  mw := none
  mbusy := 0
  mdata := 0
  status := .running
  breakpoints := breakpoints
  stored := []

/-- `reset()` (R290): every piece of engine state to its reset value, the image reloaded, the
configuration and the breakpoint set kept. It is the only way out of Halted and Faulted (R262); there
is no return from a fault (R268). -/
def State.resetEngine (s : State) : State := State.init s.cfg s.breakpoints

/-! ### Instruction fetch (`20_memory.md` R75) -/

/-- The word at `pc`, read from main memory directly; `none` when `pc + 4 > MEM_SIZE` (R64, R75). -/
def State.fetchAt (s : State) (pc : Word) : Option Word :=
  if inBounds s.cfg pc.toNat 4 then some (memWord s.mem pc.toNat) else none

/-- `s` with the instruction word `w` placed from outside at `pc`, not counted as a store of the
program. -/
def State.placeWord (s : State) (w : Word) : State :=
  { s with
    mem := writeBytes s.mem s.pc.toNat (wordBytes w)
    stored := s.stored.filter fun a => !(a < s.pc.toNat + 4 && s.pc.toNat < a + 4) }

end Sys2Proof.Machine
end

