-- ==== Sys2Proof/Machine/Operands.lean ====
section
/-! DEFINITION. Operand forms: the fields of the decoder's record (`30_encoding.md` R96), the register
use of R106, the addressing modes of `42_load_store.md` R145 and the operand selection of
`50_pipeline.md` R219. -/

namespace Sys2Proof.Machine

/-- The addressing-mode tag (R96). -/
inductive AddrMode where
  /-- The address is an immediate of the instruction. -/
  | direct
  /-- The address is the value of a register. -/
  | indirect
deriving DecidableEq, Repr

/-- `mode` of the decoder's record (R96). -/
def modeOf : Instr → Option AddrMode
  | .ld32 _ _ => some .direct
  | .st32 _ _ => some .direct
  | .ldin32 _ _ => some .indirect
  | .stin32 _ _ => some .indirect
  | .addi _ _ _ => none
  | .subi _ _ _ => none
  | .andi _ _ _ => none
  | .ori _ _ _ => none
  | .xori _ _ _ => none
  | .shli _ _ _ => none
  | .shri _ _ _ => none
  | .addu _ _ _ => none
  | .subu _ _ _ => none
  | .shru _ _ _ => none
  | .addim _ _ => none
  | .cmp32 _ _ => none
  | .jmp _ => none
  | .je _ => none
  | .jne _ => none
  | .jlt _ => none
  | .jle _ => none
  | .jgt _ => none
  | .jge _ => none
  | .call _ => none
  | .ret => none
  | .halt => none

/-- `dst`, the register an instruction writes (R106). -/
def dstOf : Instr → Option Reg
  | .addi ra _ _ => some ra
  | .subi ra _ _ => some ra
  | .andi ra _ _ => some ra
  | .ori ra _ _ => some ra
  | .xori ra _ _ => some ra
  | .shli ra _ _ => some ra
  | .shri ra _ _ => some ra
  | .addu ra _ _ => some ra
  | .subu ra _ _ => some ra
  | .shru ra _ _ => some ra
  | .addim ra _ => some ra
  | .cmp32 _ _ => none
  | .ld32 ra _ => some ra
  | .ldin32 ra _ => some ra
  | .st32 _ _ => none
  | .stin32 _ _ => none
  | .jmp _ => none
  | .je _ => none
  | .jne _ => none
  | .jlt _ => none
  | .jle _ => none
  | .jgt _ => none
  | .jge _ => none
  | .call _ => none
  | .ret => none
  | .halt => none

/-- `srcs`, the registers an instruction reads (R106). -/
def srcsOf : Instr → List Reg
  | .addi _ rb rc => [rb, rc]
  | .subi _ rb rc => [rb, rc]
  | .andi _ rb rc => [rb, rc]
  | .ori _ rb rc => [rb, rc]
  | .xori _ rb rc => [rb, rc]
  | .shli _ rb rc => [rb, rc]
  | .shri _ rb rc => [rb, rc]
  | .addu _ rb rc => [rb, rc]
  | .subu _ rb rc => [rb, rc]
  | .shru _ rb rc => [rb, rc]
  | .addim ra _ => [ra]
  | .cmp32 rb rc => [rb, rc]
  | .ld32 _ _ => []
  | .ldin32 _ rb => [rb]
  | .st32 ra _ => [ra]
  | .stin32 ra rb => [rb, ra]
  | .jmp _ => []
  | .je _ => []
  | .jne _ => []
  | .jlt _ => []
  | .jle _ => []
  | .jgt _ => []
  | .jge _ => []
  | .call _ => []
  | .ret => []
  | .halt => []

/-- `target` of the decoder's record (R96, R99). -/
def targetOf : Instr → Option Word
  | .jmp t => some t
  | .je t => some t
  | .jne t => some t
  | .jlt t => some t
  | .jle t => some t
  | .jgt t => some t
  | .jge t => some t
  | .call t => some t
  | .addi _ _ _ => none
  | .subi _ _ _ => none
  | .andi _ _ _ => none
  | .ori _ _ _ => none
  | .xori _ _ _ => none
  | .shli _ _ _ => none
  | .shri _ _ _ => none
  | .addu _ _ _ => none
  | .subu _ _ _ => none
  | .shru _ _ _ => none
  | .addim _ _ => none
  | .cmp32 _ _ => none
  | .ld32 _ _ => none
  | .ldin32 _ _ => none
  | .st32 _ _ => none
  | .stin32 _ _ => none
  | .ret => none
  | .halt => none

/-- `imm` of the decoder's record (R96, R97, R98). -/
def immOf : Instr → Option Word
  | .addim _ imm => some imm
  | .ld32 _ addr => some addr
  | .st32 _ addr => some addr
  | .addi _ _ _ => none
  | .subi _ _ _ => none
  | .andi _ _ _ => none
  | .ori _ _ _ => none
  | .xori _ _ _ => none
  | .shli _ _ _ => none
  | .shri _ _ _ => none
  | .addu _ _ _ => none
  | .subu _ _ _ => none
  | .shru _ _ _ => none
  | .cmp32 _ _ => none
  | .ldin32 _ _ => none
  | .stin32 _ _ => none
  | .jmp _ => none
  | .je _ => none
  | .jne _ => none
  | .jlt _ => none
  | .jle _ => none
  | .jgt _ => none
  | .jge _ => none
  | .call _ => none
  | .ret => none
  | .halt => none

/-- The decoder's output record (R96). -/
structure DecodeRecord where
  /-- The mnemonic. -/
  op : Opcode
  /-- The destination register, if any. -/
  dst : Option Reg
  /-- The source registers. -/
  srcs : List Reg
  /-- The extended immediate, if any. -/
  imm : Option Word
  /-- The addressing mode, if any. -/
  mode : Option AddrMode
  /-- The branch target, if any. -/
  target : Option Word
deriving DecidableEq, Repr

/-- The record of an instruction (R96). -/
def recordOf (i : Instr) : DecodeRecord :=
  { op := i.op, dst := dstOf i, srcs := srcsOf i, imm := immOf i, mode := modeOf i
    target := targetOf i }

/-- Direct addressing: `ea = zext_32(imm20)`, already extended by the decoder (R145, R98). -/
def directAddress (addr : Word) : Word := addr

/-- Indirect addressing: `ea = x[rb]` (R145). -/
def indirectAddress (rd : Reg → Word) (rb : Reg) : Word := rd rb

/-- The effective address of a load or store, registers read by `rd` (R145). -/
def effectiveAddress (rd : Reg → Word) : Instr → Option Word
  | .ld32 _ addr => some (directAddress addr)
  | .ldin32 _ rb => some (indirectAddress rd rb)
  | .st32 _ addr => some (directAddress addr)
  | .stin32 _ rb => some (indirectAddress rd rb)
  | .addi _ _ _ => none
  | .subi _ _ _ => none
  | .andi _ _ _ => none
  | .ori _ _ _ => none
  | .xori _ _ _ => none
  | .shli _ _ _ => none
  | .shri _ _ _ => none
  | .addu _ _ _ => none
  | .subu _ _ _ => none
  | .shru _ _ _ => none
  | .addim _ _ => none
  | .cmp32 _ _ => none
  | .jmp _ => none
  | .je _ => none
  | .jne _ => none
  | .jlt _ => none
  | .jle _ => none
  | .jgt _ => none
  | .jge _ => none
  | .call _ => none
  | .ret => none
  | .halt => none

/-- Operands `a` and `b` that Decode puts into `DE`, registers read by `rd` (R219); an unused one is 0
(log 10). -/
def operandsOf (rd : Reg → Word) : Instr → Word × Word
  | .addi _ rb rc => (rd rb, rd rc)
  | .subi _ rb rc => (rd rb, rd rc)
  | .andi _ rb rc => (rd rb, rd rc)
  | .ori _ rb rc => (rd rb, rd rc)
  | .xori _ rb rc => (rd rb, rd rc)
  | .shli _ rb rc => (rd rb, rd rc)
  | .shri _ rb rc => (rd rb, rd rc)
  | .addu _ rb rc => (rd rb, rd rc)
  | .subu _ rb rc => (rd rb, rd rc)
  | .shru _ rb rc => (rd rb, rd rc)
  | .addim ra imm => (rd ra, imm)
  | .cmp32 rb rc => (rd rb, rd rc)
  | .ld32 _ addr => (directAddress addr, 0)
  | .ldin32 _ rb => (indirectAddress rd rb, 0)
  | .st32 ra addr => (directAddress addr, rd ra)
  | .stin32 ra rb => (indirectAddress rd rb, rd ra)
  | .jmp _ => (0, 0)
  | .je _ => (0, 0)
  | .jne _ => (0, 0)
  | .jlt _ => (0, 0)
  | .jle _ => (0, 0)
  | .jgt _ => (0, 0)
  | .jge _ => (0, 0)
  | .call _ => (0, 0)
  | .ret => (0, 0)
  | .halt => (0, 0)

/-- The mnemonic is a load (R222). -/
def isLoadOp : Opcode → Bool
  | .ld32 => true
  | .ldin32 => true
  | _ => false

/-- The mnemonic is a store. -/
def isStoreOp : Opcode → Bool
  | .st32 => true
  | .stin32 => true
  | _ => false

/-- The mnemonic reads the flags: the conditional jumps (R106). -/
def readsFlagsOp : Opcode → Bool
  | .je => true
  | .jne => true
  | .jlt => true
  | .jle => true
  | .jgt => true
  | .jge => true
  | _ => false

end Sys2Proof.Machine
end

