-- ==== Sys2Proof/Machine/Alu.lean ====
section
/-! DEFINITION. The ALU (`40_alu.md` R120) and its eleven instructions, R121 to R131. -/

namespace Sys2Proof.Machine

/-! ### The ALU's functions, shared by the meanings and the Execute stage -/

/-- `(a + b) mod 2^32`. -/
def addWord (a b : Word) : Word := a + b

/-- `(a - b) mod 2^32`. -/
def subWord (a b : Word) : Word := a - b

/-- Bitwise AND. -/
def andWord (a b : Word) : Word := a &&& b

/-- Bitwise OR. -/
def orWord (a b : Word) : Word := a ||| b

/-- Bitwise exclusive OR. -/
def xorWord (a b : Word) : Word := a ^^^ b

/-- The shift amount: the low 5 bits of the operand (D8). -/
def shiftAmount (b : Word) : Nat := b.toNat % 32

/-- `(a * 2^s) mod 2^32`. -/
def shiftLeftWord (a b : Word) : Word := a <<< shiftAmount b

/-- `floor(signed(a) / 2^s) mod 2^32`. -/
def shiftRightSignedWord (a b : Word) : Word := a.sshiftRight (shiftAmount b)

/-- `a // 2^s`. -/
def shiftRightUnsignedWord (a b : Word) : Word := a >>> shiftAmount b

/-! ### The two operand forms -/

/-- `x[ra] <- f(x[rb], x[rc])`, sources read before the destination is written (R134). -/
def aluRegisters (f : Word → Word → Word) (ra rb rc : Reg) (s : State) :
    Host.Outcome State Fault Refusal :=
  .next (s.writeReg ra (f (s.readReg rb) (s.readReg rc))).advance

/-- `x[ra] <- f(x[ra], imm)` (R131). -/
def aluImmediate (f : Word → Word → Word) (ra : Reg) (imm : Word) (s : State) :
    Host.Outcome State Fault Refusal :=
  .next (s.writeReg ra (f (s.readReg ra) imm)).advance

/-! ### The meanings -/

/-- `ADDI` (R121). -/
def execAddi (ra rb rc : Reg) (s : State) : Host.Outcome State Fault Refusal :=
  aluRegisters addWord ra rb rc s

/-- `SUBI` (R122): first source minus second. -/
def execSubi (ra rb rc : Reg) (s : State) : Host.Outcome State Fault Refusal :=
  aluRegisters subWord ra rb rc s

/-- `ANDI` (R123). -/
def execAndi (ra rb rc : Reg) (s : State) : Host.Outcome State Fault Refusal :=
  aluRegisters andWord ra rb rc s

/-- `ORI` (R124). -/
def execOri (ra rb rc : Reg) (s : State) : Host.Outcome State Fault Refusal :=
  aluRegisters orWord ra rb rc s

/-- `XORI` (R125): three registers. -/
def execXori (ra rb rc : Reg) (s : State) : Host.Outcome State Fault Refusal :=
  aluRegisters xorWord ra rb rc s

/-- `SHLI` (R126). -/
def execShli (ra rb rc : Reg) (s : State) : Host.Outcome State Fault Refusal :=
  aluRegisters shiftLeftWord ra rb rc s

/-- `SHRI` (R127): arithmetic. -/
def execShri (ra rb rc : Reg) (s : State) : Host.Outcome State Fault Refusal :=
  aluRegisters shiftRightSignedWord ra rb rc s

/-- `ADDU` (R128). -/
def execAddu (ra rb rc : Reg) (s : State) : Host.Outcome State Fault Refusal :=
  aluRegisters addWord ra rb rc s

/-- `SUBU` (R129). -/
def execSubu (ra rb rc : Reg) (s : State) : Host.Outcome State Fault Refusal :=
  aluRegisters subWord ra rb rc s

/-- `SHRU` (R130): logical. -/
def execShru (ra rb rc : Reg) (s : State) : Host.Outcome State Fault Refusal :=
  aluRegisters shiftRightUnsignedWord ra rb rc s

/-- `ADDIM` (R131). -/
def execAddim (ra : Reg) (imm : Word) (s : State) : Host.Outcome State Fault Refusal :=
  aluImmediate addWord ra imm s

end Sys2Proof.Machine
end

