-- ==== Sys2Proof/Machine/Flags.lean ====
section
/-! DEFINITION. The only flag computation, `CMP32` (`41_compare.md` R140), and the conditions of the
jumps over the stored flags (`43_control.md` R170). -/

namespace Sys2Proof.Machine

/-- `(A == B, A < B, A <= B)`, unsigned (R140). -/
def compareFlags (a b : Word) : Flags :=
  { eq := a == b, lt := a.toNat < b.toNat, le := a.toNat ≤ b.toNat }

/-- `JE`: `EQ = 1`. -/
def condEqual (f : Flags) : Bool := f.eq

/-- `JNE`: `EQ = 0`. -/
def condNotEqual (f : Flags) : Bool := !f.eq

/-- `JLT`: `LT = 1`. -/
def condLess (f : Flags) : Bool := f.lt

/-- `JLE`: `LE = 1`, the stored bit. -/
def condLessOrEqual (f : Flags) : Bool := f.le

/-- `JGT`: `LE = 0`. -/
def condGreater (f : Flags) : Bool := !f.le

/-- `JGE`: `LT = 0`. -/
def condGreaterOrEqual (f : Flags) : Bool := !f.lt

end Sys2Proof.Machine
end

