-- ==== Sys2Proof/Machine/Compare.lean ====
section
/-! DEFINITION. The compare instruction (`41_compare.md`). -/

namespace Sys2Proof.Machine

/-- `CMP32` (R140): writes all three flags and no register. -/
def execCmp32 (rb rc : Reg) (s : State) : Host.Outcome State Fault Refusal :=
  .next (s.setFlags (compareFlags (s.readReg rb) (s.readReg rc))).advance

end Sys2Proof.Machine
end

