-- ==== Sys2Proof/Machine/Control.lean ====
section
/-! DEFINITION. Control transfer (`43_control.md` R161 to R170). -/

namespace Sys2Proof.Machine

/-- `if taken then pc <- target`, else the implicit advance (R160, R13). -/
def jumpIf (taken : Bool) (target : Word) (s : State) : Host.Outcome State Fault Refusal :=
  .next (if taken then s.setPc target else s.advance)

/-- `JMP` (R161). -/
def execJmp (target : Word) (s : State) : Host.Outcome State Fault Refusal :=
  jumpIf true target s

/-- `JE` (R162). -/
def execJe (target : Word) (s : State) : Host.Outcome State Fault Refusal :=
  jumpIf (condEqual s.flags) target s

/-- `JNE` (R163). -/
def execJne (target : Word) (s : State) : Host.Outcome State Fault Refusal :=
  jumpIf (condNotEqual s.flags) target s

/-- `JLT` (R164). -/
def execJlt (target : Word) (s : State) : Host.Outcome State Fault Refusal :=
  jumpIf (condLess s.flags) target s

/-- `JLE` (R165). -/
def execJle (target : Word) (s : State) : Host.Outcome State Fault Refusal :=
  jumpIf (condLessOrEqual s.flags) target s

/-- `JGT` (R166). -/
def execJgt (target : Word) (s : State) : Host.Outcome State Fault Refusal :=
  jumpIf (condGreater s.flags) target s

/-- `JGE` (R167). -/
def execJge (target : Word) (s : State) : Host.Outcome State Fault Refusal :=
  jumpIf (condGreaterOrEqual s.flags) target s

/-- `CALL` (R168): the return address is pushed, or `StackOverflow` with nothing changed. -/
def execCall (target : Word) (s : State) : Host.Outcome State Fault Refusal :=
  if s.rasFull then .next (s.raise .stackOverflow s.pc none)
  else .next ((s.pushRas (nextWordAddress s.pc)).setPc target)

/-- `RET` (R169): the top entry is popped into `pc`, or `StackUnderflow` with nothing changed. -/
def execRet (s : State) : Host.Outcome State Fault Refusal :=
  if s.rasEmpty then .next (s.raise .stackUnderflow s.pc none)
  else .next (s.popRas.setPc s.rasTop)

end Sys2Proof.Machine
end

