-- ==== Sys2Proof/Machine/LoadStore.lean ====
section
/-! DEFINITION. Loads and stores (`42_load_store.md` R145 to R149). -/

namespace Sys2Proof.Machine

/-- `x[ra] <- MemRead(ea, 4)`; `OutOfBoundsAccess(ea)` iff `ea + 4 > MEM_SIZE` (R145). -/
def loadWord (ra : Reg) (ea : Word) (s : State) : Host.Outcome State Fault Refusal :=
  match dataRead s ea with
  | .done r => .next ((s.afterRead r).writeReg ra (BitVec.ofNat 32 r.value)).advance
  | .outOfBounds => .next (s.raise .outOfBoundsAccess s.pc (some ea))
  | .misaligned => .refused (.misalignedAccess s.pc ea)

/-- `MemWrite(ea, 4, v)`; `OutOfBoundsAccess(ea)` iff `ea + 4 > MEM_SIZE` (R145). -/
def storeWord (v : Word) (ea : Word) (s : State) : Host.Outcome State Fault Refusal :=
  match dataWrite s ea v with
  | .done r => .next (s.afterWrite ea r).advance
  | .outOfBounds => .next (s.raise .outOfBoundsAccess s.pc (some ea))
  | .misaligned => .refused (.misalignedAccess s.pc ea)

/-- `LD32` (R146). -/
def execLd32 (ra : Reg) (addr : Word) (s : State) : Host.Outcome State Fault Refusal :=
  loadWord ra (directAddress addr) s

/-- `LDIN32` (R147): the address is read before the destination is written. -/
def execLdin32 (ra rb : Reg) (s : State) : Host.Outcome State Fault Refusal :=
  loadWord ra (indirectAddress s.readReg rb) s

/-- `ST32` (R148). -/
def execSt32 (ra : Reg) (addr : Word) (s : State) : Host.Outcome State Fault Refusal :=
  storeWord (s.readReg ra) (directAddress addr) s

/-- `STIN32` (R149). -/
def execStin32 (ra rb : Reg) (s : State) : Host.Outcome State Fault Refusal :=
  storeWord (s.readReg ra) (indirectAddress s.readReg rb) s

end Sys2Proof.Machine
end

