-- ==== Sys2Proof/Machine/System.lean ====
section
/-! DEFINITION. The system instruction (`44_system.md`). -/

namespace Sys2Proof.Machine

/-- `HALT` (R180): `status <- Halted`; `pc` ends at the `HALT`'s address plus 4 (R229). -/
def execHalt (s : State) : Host.Outcome State Fault Refusal := .next s.advance.halt

end Sys2Proof.Machine
end

