-- ==== Sys2Proof/Machine/Dispatch.lean ====
section
/-! DEFINITION. The meaning of each instruction in the architectural view (`00_scope.md` R14). -/

namespace Sys2Proof.Machine

/-- One instruction as one atomic step (R14); `pc` is the instruction's own address (R24). -/
def exec (i : Instr) (s : State) : Host.Outcome State Fault Refusal :=
  match i with
  | .addi ra rb rc => Sys2Proof.Machine.execAddi ra rb rc s
  | .subi ra rb rc => Sys2Proof.Machine.execSubi ra rb rc s
  | .andi ra rb rc => Sys2Proof.Machine.execAndi ra rb rc s
  | .ori ra rb rc => Sys2Proof.Machine.execOri ra rb rc s
  | .xori ra rb rc => Sys2Proof.Machine.execXori ra rb rc s
  | .shli ra rb rc => Sys2Proof.Machine.execShli ra rb rc s
  | .shri ra rb rc => Sys2Proof.Machine.execShri ra rb rc s
  | .addu ra rb rc => Sys2Proof.Machine.execAddu ra rb rc s
  | .subu ra rb rc => Sys2Proof.Machine.execSubu ra rb rc s
  | .shru ra rb rc => Sys2Proof.Machine.execShru ra rb rc s
  | .addim ra imm => Sys2Proof.Machine.execAddim ra imm s
  | .cmp32 rb rc => Sys2Proof.Machine.execCmp32 rb rc s
  | .ld32 ra addr => Sys2Proof.Machine.execLd32 ra addr s
  | .ldin32 ra rb => Sys2Proof.Machine.execLdin32 ra rb s
  | .st32 ra addr => Sys2Proof.Machine.execSt32 ra addr s
  | .stin32 ra rb => Sys2Proof.Machine.execStin32 ra rb s
  | .jmp target => Sys2Proof.Machine.execJmp target s
  | .je target => Sys2Proof.Machine.execJe target s
  | .jne target => Sys2Proof.Machine.execJne target s
  | .jlt target => Sys2Proof.Machine.execJlt target s
  | .jle target => Sys2Proof.Machine.execJle target s
  | .jgt target => Sys2Proof.Machine.execJgt target s
  | .jge target => Sys2Proof.Machine.execJge target s
  | .call target => Sys2Proof.Machine.execCall target s
  | .ret => Sys2Proof.Machine.execRet s
  | .halt => Sys2Proof.Machine.execHalt s

end Sys2Proof.Machine
end

