-- ==== Sys2Proof/Machine/Fetch.lean ====
section
/-! DEFINITION. Fetching, decoding and running one instruction in the architectural view
(`00_scope.md` R14, `50_pipeline.md` R229). -/

namespace Sys2Proof.Machine

/-- "fetch at `pc`, `Decode`, apply the instruction's rule" (R229): `OutOfBoundsAccess` when the word
lies outside memory (R64), a refusal when the program has stored into it (R79, log 7),
`InvalidOpcode` when it does not decode (R103), else its meaning. -/
def runInstruction (s : State) : Host.Outcome State Fault Refusal :=
  match s.fetchAt s.pc with
  | none => .next (s.raise .outOfBoundsAccess s.pc (some s.pc))
  | some w =>
    if storedOver s.stored s.pc then .refused (.selfModifiedCode s.pc)
    else
      match decode w with
      | .ok i => exec i s
      | .error _ => .next (s.raise .invalidOpcode s.pc (some w))

end Sys2Proof.Machine
end

