-- ==== Sys2Proof/Machine/Step.lean ====
section
/-! DEFINITION. One step of the architectural view (`00_scope.md` R14): one instruction. The cycle
view is `Sys2Proof/Machine/Pipeline.lean`. -/

namespace Sys2Proof.Machine

/-- One instruction at `pc` while Running; a terminal state is left unchanged (R262, R268, R277). A
configuration that breaks R8 or R9 has no meaning (R9, R293). -/
def step (s : State) : Host.Outcome State Fault Refusal :=
  if s.cfg.wf then
    match s.status with
    | .running => runInstruction s
    | .halted => .next s
    | .faulted _ => .next s
  else .refused .configurationRejected

/-- `s` with an instruction word, its bits numbered as the opcode table numbers them and 0 from
`nbits` up, stored where `step` fetches next (R54); it stands for loading a program (log 4). -/
def State.withFetchWord (s : State) (nbits w : Nat) : State :=
  s.placeWord (BitVec.ofNat 32 (w % 2 ^ nbits))

end Sys2Proof.Machine
end

