-- ==== Sys2Proof/Machine/Pipeline.lean ====
section
/-! DEFINITION. The hardware's one transition, the clock cycle (`50_pipeline.md`, R231), over the same
State and the same operations as the architectural view. Every stage reads the start-of-cycle
snapshot `s` (R201) and the signals of stages nearer Writeback (R202), in the order W, M, E, D, F. -/

namespace Sys2Proof.Machine

/-- What ends a cycle early: a fault of the hardware (R227), or a point to which the spec gives no
meaning. -/
inductive StageStop where
  /-- A fault with its record (R33). -/
  | fault (record : FaultRecord)
  /-- The spec tells a model to refuse (R56, R79). -/
  | refuse (reason : Refusal)
deriving DecidableEq, Repr

/-! ### Writeback (R204) -/

/-- What Writeback leaves and forwards. -/
structure WritebackOut where
  /-- The registers after the commit. -/
  x : Vector Word 16
  /-- The flags after the commit. -/
  flags : Flags
  /-- `fwdW_reg`. -/
  fwdReg : Option (Reg × Word)
  /-- `fwdW_fl`. -/
  fwdFl : Option Flags
  /-- A `HALT` is in Writeback. -/
  halted : Bool
deriving DecidableEq, Repr

/-- `x` with a result committed, if there is one. -/
def commitReg (x : Vector Word 16) : Option (Reg × Word) → Vector Word 16
  | some (r, v) => x.set r.val v r.isLt
  | none => x

/-- The register result an instruction carries in `MW`. -/
def MemoryLatch.regResult (w : MemoryLatch) : Option (Reg × Word) := w.dst.map fun r => (r, w.val)

/-- The Writeback stage (R204). -/
def stageW (s : State) : WritebackOut :=
  match s.mw with
  | none => { x := s.x, flags := s.flags, fwdReg := none, fwdFl := none, halted := false }
  | some w =>
    { x := commitReg s.x w.regResult
      flags := w.flOut.getD s.flags
      fwdReg := w.regResult
      fwdFl := w.flOut
      halted := w.op == .halt }

/-! ### Memory (R205 to R209) -/

/-- What the Memory stage leaves and forwards. -/
structure MemoryOut where
  /-- Main memory. -/
  mem : Mem
  /-- The caches. -/
  caches : List Cache
  /-- The record of stores (log 7). -/
  stored : List Nat
  /-- `mbusy'`. -/
  mbusy : Nat
  /-- `mdata'`. -/
  mdata : Word
  /-- `MW'`. -/
  mw : Option MemoryLatch
  /-- `mstall`. -/
  stall : Bool
deriving DecidableEq, Repr

/-- `fwdM_reg`: only from an instruction that leaves Memory this cycle (R209). -/
def MemoryOut.fwdReg (m : MemoryOut) : Option (Reg × Word) :=
  match m.mw with
  | some w => w.regResult
  | none => none

/-- `fwdM_fl` (R209). -/
def MemoryOut.fwdFl (m : MemoryOut) : Option Flags :=
  match m.mw with
  | some w => w.flOut
  | none => none

/-- The `MW'` of a completed access: a load carries its data, a store nothing (R207). -/
def accessLatch (m : ExecuteLatch) (mdata : Word) : MemoryLatch :=
  { pc := m.pc, op := m.op, dst := m.dst, val := if isLoadOp m.op then mdata else 0, flOut := none }

/-- The `MW'` of an instruction that is no load or store (R205). -/
def passLatch (m : ExecuteLatch) : MemoryLatch :=
  { pc := m.pc, op := m.op, dst := m.dst, val := m.res, flOut := m.flOut }

/-- The end of a Memory cycle of an access with `rem` cycles still to go: stay, or complete (R207). -/
def accessCycle (m : ExecuteLatch) (mem : Mem) (caches : List Cache) (stored : List Nat)
    (mdata : Word) (rem : Nat) : MemoryOut :=
  { mem := mem, caches := caches, stored := stored, mbusy := rem, mdata := mdata
    mw := if rem = 0 then some (accessLatch m mdata) else none
    stall := rem != 0 }

/-- Cycles still to go after the first, `max(1, L) - 1` (R206, R226). -/
def remainingCycles (latency : Nat) : Nat := max 1 latency - 1

/-- The first Memory cycle of a load (R206). -/
def issueLoad (s : State) (m : ExecuteLatch) : Except StageStop MemoryOut :=
  match dataRead s m.res with
  | .done r =>
    .ok (accessCycle m s.mem r.caches s.stored (BitVec.ofNat 32 r.value) (remainingCycles r.latency))
  | .outOfBounds =>
    .error (.fault { kind := .outOfBoundsAccess, faultPc := m.pc, info := some m.res })
  | .misaligned => .error (.refuse (.misalignedAccess m.pc m.res))

/-- The first Memory cycle of a store (R206). -/
def issueStore (s : State) (m : ExecuteLatch) : Except StageStop MemoryOut :=
  match dataWrite s m.res m.sdata with
  | .done r =>
    .ok (accessCycle m r.mem r.caches (insertSorted m.res.toNat s.stored) s.mdata
      (remainingCycles r.latency))
  | .outOfBounds =>
    .error (.fault { kind := .outOfBoundsAccess, faultPc := m.pc, info := some m.res })
  | .misaligned => .error (.refuse (.misalignedAccess m.pc m.res))

/-- The Memory stage (R205 to R208): issue when `mbusy = 0`, else count down. -/
def stageM (s : State) : Except StageStop MemoryOut :=
  match s.em with
  | none =>
    .ok { mem := s.mem, caches := s.caches, stored := s.stored, mbusy := s.mbusy, mdata := s.mdata
          mw := none, stall := false }
  | some m =>
    if isLoadOp m.op || isStoreOp m.op then
      if s.mbusy = 0 then (if isLoadOp m.op then issueLoad s m else issueStore s m)
      else .ok (accessCycle m s.mem s.caches s.stored s.mdata (s.mbusy - 1))
    else
      .ok { mem := s.mem, caches := s.caches, stored := s.stored, mbusy := s.mbusy, mdata := s.mdata
            mw := some (passLatch m), stall := false }

/-! ### Execute (R210 to R217) -/

/-- What Execute leaves, forwards and signals. -/
structure ExecuteOut where
  /-- `EM'`. -/
  em : Option ExecuteLatch
  /-- The return-address stack. -/
  ras : List Word
  /-- Its pointer. -/
  sp : Nat
  /-- `redirect` (R217). -/
  redirect : Option Word
  /-- `fwdE_reg`: only from an ALU instruction (R210, R212). -/
  fwdReg : Option (Reg × Word)
  /-- `fwdE_fl`: only from `CMP32` (R211). -/
  fwdFl : Option Flags
deriving DecidableEq, Repr

/-- The `EM'` of an instruction, the fields it does not set 0 or none (R210, log 10). -/
def executeLatch (e : DecodeLatch) (res sdata : Word) (flOut : Option Flags) : ExecuteLatch :=
  { pc := e.pc, op := e.op, dst := e.dst, res := res, sdata := sdata, flOut := flOut }

/-- Execute for an ALU instruction (R210). -/
def executeAlu (s : State) (e : DecodeLatch) (res : Word) : ExecuteOut :=
  { em := some (executeLatch e res 0 none), ras := s.ras, sp := s.sp, redirect := none
    fwdReg := e.dst.map fun r => (r, res), fwdFl := none }

/-- Execute for `CMP32` (R211). -/
def executeCompare (s : State) (e : DecodeLatch) (f : Flags) : ExecuteOut :=
  { em := some (executeLatch e 0 0 (some f)), ras := s.ras, sp := s.sp, redirect := none
    fwdReg := none, fwdFl := some f }

/-- Execute for a load or store: the address passes through, no forwarding output (R212). -/
def executeAccess (s : State) (e : DecodeLatch) (sdata : Word) : ExecuteOut :=
  { em := some (executeLatch e e.a sdata none), ras := s.ras, sp := s.sp, redirect := none
    fwdReg := none, fwdFl := none }

/-- Execute for a jump (R213). -/
def executeJump (s : State) (e : DecodeLatch) (taken : Bool) : ExecuteOut :=
  { em := some (executeLatch e 0 0 none), ras := s.ras, sp := s.sp
    redirect := if taken then some e.target else none
    fwdReg := none, fwdFl := none }

/-- Execute for `CALL` (R214). -/
def executeCall (s : State) (e : DecodeLatch) : Except StageStop ExecuteOut :=
  if s.rasFull then .error (.fault { kind := .stackOverflow, faultPc := e.pc, info := none })
  else
    .ok { em := some (executeLatch e 0 0 none)
          ras := (s.pushRas (nextWordAddress e.pc)).ras, sp := (s.pushRas (nextWordAddress e.pc)).sp
          redirect := some e.target, fwdReg := none, fwdFl := none }

/-- Execute for `RET` (R215). -/
def executeRet (s : State) (e : DecodeLatch) : Except StageStop ExecuteOut :=
  if s.rasEmpty then .error (.fault { kind := .stackUnderflow, faultPc := e.pc, info := none })
  else
    .ok { em := some (executeLatch e 0 0 none), ras := s.popRas.ras, sp := s.popRas.sp
          redirect := some s.rasTop, fwdReg := none, fwdFl := none }

/-- The Execute stage on the instruction in `DE` (R210 to R216). -/
def executeOp (s : State) (e : DecodeLatch) : Except StageStop ExecuteOut :=
  match e.op with
  | .addi => .ok (executeAlu s e (addWord e.a e.b))
  | .subi => .ok (executeAlu s e (subWord e.a e.b))
  | .andi => .ok (executeAlu s e (andWord e.a e.b))
  | .ori => .ok (executeAlu s e (orWord e.a e.b))
  | .xori => .ok (executeAlu s e (xorWord e.a e.b))
  | .shli => .ok (executeAlu s e (shiftLeftWord e.a e.b))
  | .shri => .ok (executeAlu s e (shiftRightSignedWord e.a e.b))
  | .addu => .ok (executeAlu s e (addWord e.a e.b))
  | .subu => .ok (executeAlu s e (subWord e.a e.b))
  | .shru => .ok (executeAlu s e (shiftRightUnsignedWord e.a e.b))
  | .addim => .ok (executeAlu s e (addWord e.a e.b))
  | .cmp32 => .ok (executeCompare s e (compareFlags e.a e.b))
  | .ld32 => .ok (executeAccess s e 0)
  | .ldin32 => .ok (executeAccess s e 0)
  | .st32 => .ok (executeAccess s e e.b)
  | .stin32 => .ok (executeAccess s e e.b)
  | .jmp => .ok (executeJump s e true)
  | .je => .ok (executeJump s e (condEqual e.flIn))
  | .jne => .ok (executeJump s e (condNotEqual e.flIn))
  | .jlt => .ok (executeJump s e (condLess e.flIn))
  | .jle => .ok (executeJump s e (condLessOrEqual e.flIn))
  | .jgt => .ok (executeJump s e (condGreater e.flIn))
  | .jge => .ok (executeJump s e (condGreaterOrEqual e.flIn))
  | .call => executeCall s e
  | .ret => executeRet s e
  | .halt => .ok (executeJump s e false)

/-- The Execute stage (R210), run only when Memory does not stall. `stored` is the record of stores with
this cycle's included. All older instructions are past their faults here, so the architectural view
does fetch the instruction's word, and after those stores: it is refused (R79, log 7). -/
def stageE (s : State) (stored : List Nat) : Except StageStop ExecuteOut :=
  match s.de with
  | none =>
    .ok { em := none, ras := s.ras, sp := s.sp, redirect := none, fwdReg := none, fwdFl := none }
  | some e =>
    if storedOver stored e.pc then .error (.refuse (.selfModifiedCode e.pc)) else executeOp s e

/-! ### Decode (R217 to R222) -/

/-- The forwarding signals Decode sees, nearest producer first (R220, R221). -/
structure Forwards where
  /-- `fwdE_reg`, `fwdM_reg`, `fwdW_reg`. -/
  regs : List (Option (Reg × Word))
  /-- `fwdE_fl`, `fwdM_fl`, `fwdW_fl`. -/
  flags : List (Option Flags)
deriving DecidableEq, Repr

/-- The forwards of one cycle. -/
def forwardsOf (w : WritebackOut) (m : MemoryOut) (e : ExecuteOut) : Forwards :=
  { regs := [e.fwdReg, m.fwdReg, w.fwdReg], flags := [e.fwdFl, m.fwdFl, w.fwdFl] }

/-- The first forwarded value for `r`, else `dflt`. -/
def forwardedReg (r : Reg) (dflt : Word) : List (Option (Reg × Word)) → Word
  | [] => dflt
  | some (q, v) :: rest => if q = r then v else forwardedReg r dflt rest
  | none :: rest => forwardedReg r dflt rest

/-- The first forwarded flags, else `dflt`. -/
def forwardedFlags (dflt : Flags) : List (Option Flags) → Flags
  | [] => dflt
  | some f :: _ => f
  | none :: rest => forwardedFlags dflt rest

/-- `rd(r)`: the youngest value of `r` in flight, else the stored register (R220). -/
def Forwards.rd (fw : Forwards) (s : State) (r : Reg) : Word := forwardedReg r (s.readReg r) fw.regs

/-- `rdflags()` (R221). -/
def Forwards.rdFlags (fw : Forwards) (s : State) : Flags := forwardedFlags s.flags fw.flags

/-- What Decode leaves and signals. -/
structure DecodeOut where
  /-- `DE'`. -/
  de : Option DecodeLatch
  /-- `lustall` (R222). -/
  stall : Bool
deriving DecidableEq, Repr

/-- The load-use hazard: the instruction in Execute is a load whose destination is a source of `i`
(R222). -/
def loadUse (s : State) (i : Instr) : Bool :=
  match s.de with
  | some e =>
    isLoadOp e.op &&
      (match e.dst with
      | some r => (srcsOf i).contains r
      | none => false)
  | none => false

/-- The `DE'` of an instruction (R219); fields it does not use are 0 (log 10). -/
def decodeLatch (s : State) (fw : Forwards) (pc : Word) (i : Instr) : DecodeLatch :=
  { pc := pc, op := i.op, dst := dstOf i
    a := (operandsOf (fw.rd s) i).1, b := (operandsOf (fw.rd s) i).2
    flIn := if readsFlagsOp i.op then fw.rdFlags s else { eq := false, lt := false, le := false }
    target := (targetOf i).getD 0 }

/-- Decode of an instruction word that is neither held nor squashed (R218, R222). -/
def decodeWord (s : State) (fw : Forwards) (d : FetchLatch) : Except StageStop DecodeOut :=
  match decode d.word with
  | .error _ =>
    .error (.fault { kind := .invalidOpcode, faultPc := d.pc, info := some d.word })
  | .ok i =>
    if loadUse s i then .ok { de := none, stall := true }
    else .ok { de := some (decodeLatch s fw d.pc i), stall := false }

/-- The Decode stage (R218): nothing for a bubble or when squashed. -/
def stageD (s : State) (fw : Forwards) (redirect : Option Word) : Except StageStop DecodeOut :=
  match redirect, s.fd with
  | none, some d => decodeWord s fw d
  | none, none => .ok { de := none, stall := false }
  | some _, _ => .ok { de := none, stall := false }

/-! ### Fetch (R223, R224) -/

/-- What Fetch leaves. -/
structure FetchOut where
  /-- `FD'`. -/
  fd : Option FetchLatch
  /-- `pc'`. -/
  pc : Word
deriving DecidableEq, Repr

/-- The fetch stop: a `HALT` is in `FD`, `DE`, `EM` or `MW` (R224). -/
def fetchStop (s : State) : Bool :=
  (match s.fd with
  | some d => opField d.word == Opcode.halt.byte
  | none => false) ||
  (match s.de with
  | some e => e.op == .halt
  | none => false) ||
  (match s.em with
  | some m => m.op == .halt
  | none => false) ||
  (match s.mw with
  | some w => w.op == .halt
  | none => false)

/-- The Fetch stage (R223). A word at an address that a store of an earlier cycle wrote is refused when
it is fetched, on a wrong path too (R79, R306; log 8). -/
def stageF (s : State) (redirect : Option Word) (lustall : Bool) : Except StageStop FetchOut :=
  if lustall then .ok { fd := s.fd, pc := s.pc }
  else
    match redirect with
    | some t => .ok { fd := none, pc := t }
    | none =>
      if fetchStop s then .ok { fd := none, pc := s.pc }
      else
        match s.fetchAt s.pc with
        | none =>
          .error (.fault { kind := .outOfBoundsAccess, faultPc := s.pc, info := some s.pc })
        | some w =>
          if storedOver s.stored s.pc then .error (.refuse (.selfModifiedCode s.pc))
          else .ok { fd := some { pc := s.pc, word := w }, pc := nextWordAddress s.pc }

/-! ### The whole cycle (R231) -/

/-- The state after Writeback: registers and flags (R204). -/
def State.afterW (s : State) (w : WritebackOut) : State := { s with x := w.x, flags := w.flags }

/-- The state after Memory: memory, caches, the record of stores (R206). -/
def State.afterM (s : State) (m : MemoryOut) : State :=
  { s with mem := m.mem, caches := m.caches, stored := m.stored }

/-- The state after Execute: the return-address stack (R214, R215). -/
def State.afterE (s : State) (e : ExecuteOut) : State := { s with ras := e.ras, sp := e.sp }

/-- A fault or refusal inside a cycle: what the stages before it did stays, latches, `pc`, `mbusy`
and `mdata` keep their start-of-cycle values (R227). -/
def stopCycle (s : State) : StageStop → Host.Outcome State Fault Refusal
  | .fault f => .next (s.raise f.kind f.faultPc f.info)
  | .refuse r => .refused r

/-- `status' := Halted if halted else Running` (R225). -/
def endStatus (halted : Bool) : Status := if halted then .halted else .running

/-- The end of a cycle in which Memory stalls: `EM`, `DE`, `FD`, `pc`, `ras`, `sp` are kept (R208). -/
def State.endStalled (s : State) (w : WritebackOut) (m : MemoryOut) : State :=
  { s with mw := m.mw, mbusy := m.mbusy, mdata := m.mdata, status := endStatus w.halted }

/-- The end of a cycle that moves the pipe. -/
def State.endMoved (s : State) (w : WritebackOut) (m : MemoryOut) (e : ExecuteOut) (d : DecodeOut)
    (f : FetchOut) : State :=
  { s with
    mw := m.mw, mbusy := m.mbusy, mdata := m.mdata, em := e.em, de := d.de, fd := f.fd, pc := f.pc
    status := endStatus w.halted }

/-- `Cycle(S)` for a Running engine (R231). -/
def runCycle (s : State) : Host.Outcome State Fault Refusal :=
  let w := stageW s
  match stageM s with
  | .error stop => stopCycle (s.afterW w) stop
  | .ok m =>
    if m.stall then .next (((s.afterW w).afterM m).endStalled w m)
    else
      match stageE s m.stored with
      | .error stop => stopCycle ((s.afterW w).afterM m) stop
      | .ok e =>
        match stageD s (forwardsOf w m e) e.redirect with
        | .error stop => stopCycle (((s.afterW w).afterM m).afterE e) stop
        | .ok d =>
          match stageF s e.redirect d.stall with
          | .error stop => stopCycle (((s.afterW w).afterM m).afterE e) stop
          | .ok f => .next ((((s.afterW w).afterM m).afterE e).endMoved w m e d f)

/-- `Cycle`, "defined only when `status = Running`" (R201). -/
def cycle (s : State) : Host.Outcome State Fault Refusal :=
  if s.cfg.wf then
    match s.status with
    | .running => runCycle s
    | .halted => .fault .engineNotRunning
    | .faulted _ => .fault .engineNotRunning
  else .refused .configurationRejected

/-- `n` cycles, stopping at the first one the model does not give. -/
def cycles : Nat → State → Host.Outcome State Fault Refusal
  | 0, s => .next s
  | n + 1, s =>
    match cycle s with
    | .next t => cycles n t
    | .fault r => .fault r
    | .refused r => .refused r

/-! ### The state of a stage in a cycle (R203) -/

/-- The five stages (R200). -/
inductive Stage where
  /-- F. -/
  | fetch
  /-- D. -/
  | decode
  /-- E. -/
  | execute
  /-- M. -/
  | memory
  /-- W. -/
  | writeback
deriving DecidableEq, Repr

/-- "States per stage each cycle" (R203). -/
inductive StageState where
  /-- The stage has no instruction. -/
  | idle
  /-- The stage works on its instruction. -/
  | busy
  /-- The stage holds its instruction where it is. -/
  | stalled
  /-- The stage's instruction is discarded by a redirect. -/
  | squashed
deriving DecidableEq, Repr

/-- `mstall` of the cycle that starts at `s` (R208). -/
def memoryStall (s : State) : Bool :=
  match stageM s with
  | .ok m => m.stall
  | .error _ => false

/-- `redirect` of the cycle that starts at `s` (R217): not set when Memory stalls, or when Memory or
Execute ends the cycle (R227, R231). -/
def redirectOf (s : State) : Option Word :=
  match stageM s with
  | .error _ => none
  | .ok m =>
    if m.stall then none
    else
      match stageE s m.stored with
      | .error _ => none
      | .ok e => e.redirect

/-- `lustall` of the cycle that starts at `s` (R222): not set when Memory stalls, or when a stage up to
Decode ends the cycle (R227, R231). -/
def loadUseStall (s : State) : Bool :=
  match stageM s with
  | .error _ => false
  | .ok m =>
    if m.stall then false
    else
      match stageE s m.stored with
      | .error _ => false
      | .ok e =>
        match stageD s (forwardsOf (stageW s) m e) e.redirect with
        | .error _ => false
        | .ok d => d.stall

/-- What a stage does in the cycle that starts at `s` (R203). -/
def stageState (s : State) : Stage → StageState
  | .writeback => if s.mw.isSome then .busy else .idle
  | .memory =>
    if s.em.isNone then .idle else if memoryStall s then .stalled else .busy
  | .execute =>
    if s.de.isNone then .idle else if memoryStall s then .stalled else .busy
  | .decode =>
    if s.fd.isNone then .idle
    else if memoryStall s then .stalled
    else if (redirectOf s).isSome then .squashed
    else if loadUseStall s then .stalled
    else .busy
  | .fetch =>
    if fetchStop s then .idle
    else if memoryStall s then .stalled
    else if (redirectOf s).isSome then .squashed
    else if loadUseStall s then .stalled
    else .busy

end Sys2Proof.Machine
end

