-- ==== Sys2Proof/Machine/Controller.lean ====
section
/-! DEFINITION. The Execution Controller, the only interface to the outside (`60_exceptions.md` R276 to
R283), and construction (`00_scope.md` R8, R9). -/

namespace Sys2Proof.Machine

/-- Construction: rejected "before any cycle executes" (R8, R293), else the state of R44 with no
breakpoint set (D29). -/
def construct (cfg : Config) : Except ConfigError State :=
  match cfg.check with
  | some e => .error e
  | none => .ok (State.init cfg [])

/-- `reset()` (R282, R290). -/
def controllerReset (s : State) : State := s.resetEngine

/-- `set_breakpoint(address)` (R279). -/
def setBreakpoint (a : Word) (s : State) : State :=
  { s with breakpoints := insertSorted a.toNat s.breakpoints }

/-- `clear_breakpoint(address)` (R279). -/
def clearBreakpoint (a : Word) (s : State) : State :=
  { s with breakpoints := s.breakpoints.filter fun k => k != a.toNat }

/-- "A breakpoint address is now at Fetch": `pc` is in the set (R277, D37). -/
def atBreakpoint (s : State) : Bool := s.breakpoints.contains s.pc.toNat

/-- What `step()` returns: the engine state, with the fault record when Faulted, and whether a
breakpoint address is at Fetch (R277). -/
structure StepReport where
  /-- Running, Halted or Faulted with its record. -/
  status : Status
  /-- `pc` is a breakpoint address. -/
  breakpoint : Bool
deriving DecidableEq, Repr

/-- The report of a state. -/
def reportOf (s : State) : StepReport := { status := s.status, breakpoint := atBreakpoint s }

/-- `step()` (R277): one cycle when Running, nothing in a terminal state. -/
def controllerStep (s : State) : Host.Outcome (State × StepReport) Fault Refusal :=
  match s.status with
  | .running =>
    match cycle s with
    | .next t => .next (t, reportOf t)
    | .fault r => .fault r
    | .refused r => .refused r
  | .halted => .next (s, reportOf s)
  | .faulted _ => .next (s, reportOf s)

/-- The stopping reason of `run()` (R278). -/
inductive StopReason where
  /-- The engine halted. -/
  | halted
  /-- The engine faulted. -/
  | faulted (record : FaultRecord)
  /-- A breakpoint address reached Fetch. -/
  | breakpoint
  /-- The model's step budget is used up; the hardware would go on (log 15). -/
  | budgetSpent
deriving DecidableEq, Repr

/-- Why `run()` stops at a state, if it does (R278). DESIGN CHOICE (log 24): after a step that leaves
the engine Halted or Faulted with `pc` on a breakpoint address the spec names both reasons and gives no
precedence; the model returns the terminal state. -/
def stopReason (s : State) : Option StopReason :=
  match s.status with
  | .halted => some .halted
  | .faulted f => some (.faulted f)
  | .running => if atBreakpoint s then some .breakpoint else none

/-- `run()` with a budget of steps: step, test the three conditions after each step (R278). On a
terminal state the first step changes nothing and the reason is returned at once. -/
def controllerRun : Nat → State → Host.Outcome (State × StopReason) Fault Refusal
  | 0, s => .next (s, .budgetSpent)
  | n + 1, s =>
    match controllerStep s with
    | .next (t, _) =>
      match stopReason t with
      | some why => .next (t, why)
      | none => controllerRun n t
    | .fault r => .fault r
    | .refused r => .refused r

/-- What a read by the controller gives. -/
inductive Reply where
  /-- The value. -/
  | value (v : Word)
  /-- `OutOfBoundsAccess`, reported to the caller only (R281). -/
  | outOfBounds
  /-- The spec gives the call no meaning (U16, U17). -/
  | refused (reason : Refusal)
deriving DecidableEq, Repr

/-- `read_register(id)`: the committed value, without forwarding (R280). -/
def readRegister (id : Nat) (s : State) : Reply :=
  if h : id < 16 then .value (s.readReg ⟨id, h⟩) else .refused (.noSuchRegister id)

/-- `read_memory(address, width)` (R281): main memory directly, no cache effect, no change of
`status`; a bad width or a misaligned address is refused before bounds matter (U17, V22). -/
def readMemory (addr width : Nat) (s : State) : Reply :=
  if !([1, 2, 4].contains width && isAligned addr width) then .refused (.badMemoryRead addr width)
  else if inBounds s.cfg addr width then
    .value (BitVec.ofNat 32 (leValue (readBytes s.mem addr width)))
  else .outOfBounds

end Sys2Proof.Machine
end

