-- ==== Sys2Proof/Machine/Listing.lean ====
section
/-! DEFINITION. The listing form of an instruction (`30_encoding.md` R112, R113): upper-case mnemonic,
registers `R0` to `R15`, operands separated by commas in the order of R100, immediates and addresses
in decimal. The assembler itself is out of scope (`00_scope.md` R4). -/

namespace Sys2Proof.Machine

/-- The mnemonic as written (R100). -/
def mnemonicText : Opcode → String
  | .addi => "ADDI"
  | .subi => "SUBI"
  | .andi => "ANDI"
  | .ori => "ORI"
  | .xori => "XORI"
  | .shli => "SHLI"
  | .shri => "SHRI"
  | .addu => "ADDU"
  | .subu => "SUBU"
  | .shru => "SHRU"
  | .addim => "ADDIM"
  | .cmp32 => "CMP32"
  | .ld32 => "LD32"
  | .ldin32 => "LDIN32"
  | .st32 => "ST32"
  | .stin32 => "STIN32"
  | .jmp => "JMP"
  | .je => "JE"
  | .jne => "JNE"
  | .jlt => "JLT"
  | .jle => "JLE"
  | .jgt => "JGT"
  | .jge => "JGE"
  | .call => "CALL"
  | .ret => "RET"
  | .halt => "HALT"

/-- `R` and the decimal number (R112). -/
def regText (r : Reg) : String := "R" ++ toString r.val

/-- The operands in assembly order (R100). -/
def operandTexts : Instr → List String
  | .addi ra rb rc => [regText ra, regText rb, regText rc]
  | .subi ra rb rc => [regText ra, regText rb, regText rc]
  | .andi ra rb rc => [regText ra, regText rb, regText rc]
  | .ori ra rb rc => [regText ra, regText rb, regText rc]
  | .xori ra rb rc => [regText ra, regText rb, regText rc]
  | .shli ra rb rc => [regText ra, regText rb, regText rc]
  | .shri ra rb rc => [regText ra, regText rb, regText rc]
  | .addu ra rb rc => [regText ra, regText rb, regText rc]
  | .subu ra rb rc => [regText ra, regText rb, regText rc]
  | .shru ra rb rc => [regText ra, regText rb, regText rc]
  | .addim ra imm => [regText ra, toString imm.toInt]
  | .cmp32 rb rc => [regText rb, regText rc]
  | .ld32 ra addr => [regText ra, toString addr.toNat]
  | .ldin32 ra rb => [regText ra, regText rb]
  | .st32 ra addr => [regText ra, toString addr.toNat]
  | .stin32 ra rb => [regText ra, regText rb]
  | .jmp target => [toString target.toNat]
  | .je target => [toString target.toNat]
  | .jne target => [toString target.toNat]
  | .jlt target => [toString target.toNat]
  | .jle target => [toString target.toNat]
  | .jgt target => [toString target.toNat]
  | .jge target => [toString target.toNat]
  | .call target => [toString target.toNat]
  | .ret => []
  | .halt => []

/-- One listing line (R112, R113). -/
def listingLine (i : Instr) : String :=
  match operandTexts i with
  | [] => mnemonicText i.op
  | ops => mnemonicText i.op ++ " " ++ ",".intercalate ops

end Sys2Proof.Machine
end

