-- ==== Sys2Proof/Safety.lean ====
section
/-! DEFINITION. What a legal state of the machine is, what a step may leave unchanged, and the runs
that claims speak of. -/

namespace Sys2Proof.Machine

/-! ### Legal states -/

/-- Memory is in canonical form and lists nothing at or above `MEM_SIZE` (R51). -/
def State.memoryOk (s : State) : Prop :=
  Memory.wf s.mem = true ∧ ∀ c ∈ s.mem, c.1 < s.cfg.memSize

/-- The return-address stack has its configured size and `sp` is in range (R30). -/
def State.rasOk (s : State) : Prop := s.ras.length = s.cfg.stackDepth ∧ s.sp ≤ s.cfg.stackDepth

/-- A combination of flags that reset or a `CMP32` can leave: `LE = EQ or LT`, and not both `EQ` and
`LT` (R27). -/
def Flags.legal (f : Flags) : Prop := f.le = (f.eq || f.lt) ∧ ¬(f.eq = true ∧ f.lt = true)

/-- A multiple of 4. -/
def wordAligned (a : Word) : Prop := a.toNat % 4 = 0

/-- `pc` and every entry of the return-address stack are multiples of 4 (R25). -/
def State.pcOk (s : State) : Prop := wordAligned s.pc ∧ ∀ v ∈ s.ras, wordAligned v

/-- The addresses in the latches that can reach `pc` are multiples of 4 (R25). -/
def State.latchesAligned (s : State) : Prop :=
  (∀ d, s.fd = some d → wordAligned d.pc) ∧
  (∀ e, s.de = some e → wordAligned e.pc ∧ wordAligned e.target)

/-- A cache level has its `NLINES` lines of `LINE` bytes (R35). -/
def levelFits (lv : Level) (cache : Cache) : Prop :=
  cache.length = lv.nlines ∧ ∀ ln ∈ cache, ln.data.length = lv.line

/-- Every level has its configured geometry (R35). -/
def State.cachesFit (s : State) : Prop := List.Forall₂ levelFits s.cfg.levels s.caches

/-- Every valid line of the level holds exactly the bytes of memory it maps (R72). -/
def levelCoherent (m : Mem) (lv : Level) (cache : Cache) : Prop :=
  ∀ j ln, cache[j]? = some ln → ln.valid = true →
    ln.data = readBytes m ((ln.tag * lv.nlines + j) * lv.line) lv.line

/-- The coherence invariant (R72). -/
def State.coherent (s : State) : Prop := List.Forall₂ (levelCoherent s.mem) s.cfg.levels s.caches

/-- What the memory system of a run keeps: canonical memory, fitting and coherent caches, for a
configuration that the hardware can be built from. -/
structure State.memorySystemOk (s : State) : Prop where
  /-- The configuration passes R8 and R9. -/
  config : s.cfg.wf = true
  /-- Memory is canonical. -/
  memory : s.memoryOk
  /-- The caches have their geometry. -/
  fit : s.cachesFit
  /-- R72. -/
  coherent : s.coherent

/-- A `HALT` in a latch has nothing behind it, and `pc` stands right behind it (R224, R275); a stall
counter above 0 belongs to an access in Memory (R41); a halted engine is empty (R275). -/
structure State.haltOk (s : State) : Prop where
  /-- The word in `FD` is the one just before `pc`. -/
  fetched : ∀ d, s.fd = some d → s.pc = nextWordAddress d.pc
  /-- `HALT` in Execute. -/
  inDe : ∀ e, s.de = some e → e.op = .halt → s.fd = none ∧ s.pc = nextWordAddress e.pc
  /-- `HALT` in Memory. -/
  inEm : ∀ m, s.em = some m → m.op = .halt →
    s.de = none ∧ s.fd = none ∧ s.pc = nextWordAddress m.pc
  /-- `HALT` in Writeback. -/
  inMw : ∀ w, s.mw = some w → w.op = .halt →
    s.em = none ∧ s.de = none ∧ s.fd = none ∧ s.pc = nextWordAddress w.pc
  /-- The stall counter. -/
  busy : s.mbusy ≠ 0 → ∃ m, s.em = some m ∧ (isLoadOp m.op || isStoreOp m.op) = true
  /-- A halted engine. -/
  halted : s.status = .halted →
    s.fd = none ∧ s.de = none ∧ s.em = none ∧ s.mw = none ∧ s.mbusy = 0

/-! ### What a step leaves unchanged -/

/-- Every general register but `r` (all of them for `none`) is unchanged. -/
def keepsRegsBut (r : Option Reg) (s t : State) : Prop :=
  ∀ q, r ≠ some q → t.readReg q = s.readReg q

/-- Every byte of memory is unchanged. -/
def keepsMemory (s t : State) : Prop := ∀ a, readByte t.mem a = readByte s.mem a

/-- Every byte of memory outside the `n` bytes at `ea` is unchanged. -/
def keepsMemoryBut (ea n : Nat) (s t : State) : Prop :=
  ∀ a, a < ea ∨ ea + n ≤ a → readByte t.mem a = readByte s.mem a

/-- The return-address stack is unchanged. -/
def keepsRas (s t : State) : Prop := t.ras = s.ras ∧ t.sp = s.sp

/-- The configuration, the latches, the Memory stage's registers and the breakpoint set are
unchanged. -/
def keepsPipeline (s t : State) : Prop :=
  t.cfg = s.cfg ∧ t.fd = s.fd ∧ t.de = s.de ∧ t.em = s.em ∧ t.mw = s.mw ∧ t.mbusy = s.mbusy ∧
    t.mdata = s.mdata ∧ t.breakpoints = s.breakpoints

/-! ### Runs -/

/-- The run of the architectural view is safe so far: nothing was refused. -/
def safeSteps (k : Nat) (s : State) : Prop := ∃ t, Sys2Proof.core.run k s = .next t

/-- The run of the cycle view is safe so far: nothing was refused and no cycle was asked of a stopped
engine. -/
def safeCycles (n : Nat) (s : State) : Prop := ∃ t, cycles n s = .next t

/-- The addresses of the instructions that the architectural view executes in `k` steps, in order. -/
def executedPcs : Nat → State → List Word
  | 0, _ => []
  | k + 1, s =>
    match s.status with
    | .running =>
      match step s with
      | .next t => s.pc :: executedPcs k t
      | .fault _ => []
      | .refused _ => []
    | .halted => []
    | .faulted _ => []

/-- The addresses of the instructions that reach Writeback in `n` cycles, in order. -/
def retiredPcs : Nat → State → List Word
  | 0, _ => []
  | n + 1, s =>
    match cycle s with
    | .next t =>
      match s.mw with
      | some w => w.pc :: retiredPcs n t
      | none => retiredPcs n t
    | .fault _ => []
    | .refused _ => []

/-! ### The words of the claims -/

/-- Only the register `ra` and `pc`, which advances by one word, may differ. -/
def onlyRegisterChanged (ra : Reg) (s t : State) : Prop :=
  keepsRegsBut (some ra) s t ∧ t.pc = s.pc + 4 ∧ t.flags = s.flags ∧ keepsMemory s t ∧
    t.caches = s.caches ∧ keepsRas s t ∧ keepsPipeline s t ∧ t.status = s.status ∧
    t.stored = s.stored

/-- The instruction completes, leaves a value with the property `P` in `ra`, and changes nothing
else. -/
def writesRegister (i : Instr) (ra : Reg) (s : State) (P : Word → Prop) : Prop :=
  ∃ t, exec i s = .next t ∧ P (t.readReg ra) ∧ onlyRegisterChanged ra s t

/-- Two states that can differ only in the register `r`. -/
def sameButReg (r : Reg) (s t : State) : Prop :=
  keepsRegsBut (some r) s t ∧ t.pc = s.pc ∧ t.flags = s.flags ∧ t.mem = s.mem ∧
    t.caches = s.caches ∧ keepsRas s t ∧ keepsPipeline s t ∧ t.status = s.status ∧
    t.stored = s.stored

/-- The register number in the four bits of a word from bit `lo` up (R91). -/
def regBits (w : Word) (lo : Nat) : Reg := (w.extractLsb' lo 4).toFin

/-- The opcode map has a row of format R with this byte (R92, R100). -/
def rowR (op : Byte) (f : Reg → Reg → Reg → Instr) : Prop :=
  ∀ w : Word, w.extractLsb' 24 8 = op →
    decode w = .ok (f (regBits w 20) (regBits w 16) (regBits w 12))

/-- The opcode map has a row of format I with this byte and a sign-extended immediate (R93, R97). -/
def rowISigned (op : Byte) (f : Reg → Word → Instr) : Prop :=
  ∀ w : Word, w.extractLsb' 24 8 = op →
    decode w = .ok (f (regBits w 20) ((w.extractLsb' 0 20).signExtend 32))

/-- The opcode map has a row of format I with this byte and a zero-extended immediate (R93, R98). -/
def rowIUnsigned (op : Byte) (f : Reg → Word → Instr) : Prop :=
  ∀ w : Word, w.extractLsb' 24 8 = op →
    decode w = .ok (f (regBits w 20) ((w.extractLsb' 0 20).setWidth 32))

/-- The opcode map has a row of format J with this byte (R94, R99). -/
def rowJ (op : Byte) (f : Word → Instr) : Prop :=
  ∀ w : Word, w.extractLsb' 24 8 = op →
    decode w = .ok (f ((w.extractLsb' 0 24).setWidth 32 <<< 2))

/-- The opcode map has a row of format Z with this byte (R95). -/
def rowZ (op : Byte) (i : Instr) : Prop :=
  ∀ w : Word, w.extractLsb' 24 8 = op → decode w = .ok i

/-- The 26 assigned opcode bytes (R100). -/
def assignedOpcodes : List Nat :=
  [0x10, 0x11, 0x12, 0x13, 0x14, 0x15, 0x16, 0x18, 0x19, 0x1E, 0x20, 0x28, 0x30, 0x31, 0x38, 0x39,
    0x40, 0x41, 0x42, 0x43, 0x44, 0x45, 0x46, 0x48, 0x49, 0x50]

/-- The bits of a word that the format of its mnemonic uses (R92 to R95, R102). -/
def usedBits : Opcode → Word
  | .addi | .subi | .andi | .ori | .xori | .shli | .shri | .addu | .subu | .shru => 0xFFFFF000
  | .cmp32 => 0xFF0FF000
  | .ldin32 | .stin32 => 0xFFFF0000
  | .addim | .ld32 | .st32 => 0xFFFFFFFF
  | .jmp | .je | .jne | .jlt | .jle | .jgt | .jge | .call => 0xFFFFFFFF
  | .ret | .halt => 0xFF000000

/-- The four bytes of memory at `a` as a little-endian number (R53, R54). -/
def word32At (m : Mem) (a : Nat) : Nat :=
  (readByte m a).toNat + 2 ^ 8 * (readByte m (a + 1)).toNat + 2 ^ 16 * (readByte m (a + 2)).toNat +
    2 ^ 24 * (readByte m (a + 3)).toNat

/-- `addr` hits at a level (R63). -/
def hitsLevel (lv : Level) (cache : Cache) (addr : Nat) : Prop :=
  ∃ ln, cache[addr / lv.line % lv.nlines]? = some ln ∧ ln.valid = true ∧
    ln.tag = addr / (lv.line * lv.nlines)

/-- `addr` hits at level `k` of the hierarchy and at no level before it. -/
def firstHit (cfg : Config) (caches : List Cache) (addr k : Nat) : Prop :=
  (∃ (lv : Level) (cache : Cache), cfg.levels[k]? = some lv ∧ caches[k]? = some cache ∧
    hitsLevel lv cache addr) ∧
    ∀ j, j < k → ∀ (lv : Level) (cache : Cache), cfg.levels[j]? = some lv →
      caches[j]? = some cache → ¬hitsLevel lv cache addr

/-- `addr` misses at every level. -/
def missesEverywhere (cfg : Config) (caches : List Cache) (addr : Nat) : Prop :=
  ∀ (j : Nat) (lv : Level) (cache : Cache), cfg.levels[j]? = some lv → caches[j]? = some cache →
    ¬hitsLevel lv cache addr

/-- An access of an instruction in Memory that would lie outside main memory, in its first cycle
(R206, R260). -/
def faultsInMemory (s : State) (r : FaultRecord) : Prop :=
  ∃ m, s.em = some m ∧ s.mbusy = 0 ∧ (isLoadOp m.op || isStoreOp m.op) = true ∧
    m.res.toNat % 4 = 0 ∧ s.cfg.memSize < m.res.toNat + 4 ∧
    r = { kind := .outOfBoundsAccess, faultPc := m.pc, info := some m.res }

/-- A `CALL` with the stack full or a `RET` with it empty in Execute (R214, R215, R260). -/
def faultsInExecute (s : State) (r : FaultRecord) : Prop :=
  ∃ e, s.de = some e ∧
    ((e.op = .call ∧ s.sp = s.cfg.stackDepth ∧
        r = { kind := .stackOverflow, faultPc := e.pc, info := none }) ∨
     (e.op = .ret ∧ s.sp = 0 ∧ r = { kind := .stackUnderflow, faultPc := e.pc, info := none }))

/-- A word with an unassigned opcode in Decode (R103, R260). -/
def faultsInDecode (s : State) (r : FaultRecord) : Prop :=
  ∃ d, s.fd = some d ∧ (d.word.extractLsb' 24 8).toNat ∉ assignedOpcodes ∧
    r = { kind := .invalidOpcode, faultPc := d.pc, info := some d.word }

/-- A `pc` outside main memory in Fetch (R64, R260). -/
def faultsInFetch (s : State) (r : FaultRecord) : Prop :=
  fetchStop s = false ∧ s.cfg.memSize < s.pc.toNat + 4 ∧
    r = { kind := .outOfBoundsAccess, faultPc := s.pc, info := some s.pc }

/-- The instruction reads the register: the column `srcs` of the table of R106. -/
def readsRegister (r : Reg) : Instr → Prop
  | .addi _ rb rc | .subi _ rb rc | .andi _ rb rc | .ori _ rb rc | .xori _ rb rc
  | .shli _ rb rc | .shri _ rb rc | .addu _ rb rc | .subu _ rb rc | .shru _ rb rc
  | .cmp32 rb rc => r = rb ∨ r = rc
  | .addim ra _ | .st32 ra _ => r = ra
  | .ldin32 _ rb => r = rb
  | .stin32 ra rb => r = rb ∨ r = ra
  | .ld32 _ _ | .jmp _ | .je _ | .jne _ | .jlt _ | .jle _ | .jgt _ | .jge _ | .call _ | .ret
  | .halt => False

/-- `w` holds the destination, operands, target and flags that Decode selects for an instruction,
registers read by `rd` and flags `fl`: the table of R219. What the table calls unused is free. -/
def decodedAs (rd : Reg → Word) (fl : Flags) (w : DecodeLatch) : Instr → Prop
  | .addi ra rb rc | .subi ra rb rc | .andi ra rb rc | .ori ra rb rc | .xori ra rb rc
  | .shli ra rb rc | .shri ra rb rc | .addu ra rb rc | .subu ra rb rc | .shru ra rb rc =>
    w.a = rd rb ∧ w.b = rd rc ∧ w.dst = some ra
  | .addim ra imm => w.a = rd ra ∧ w.b = imm ∧ w.dst = some ra
  | .cmp32 rb rc => w.a = rd rb ∧ w.b = rd rc ∧ w.dst = none
  | .ld32 ra addr => w.a = addr ∧ w.dst = some ra
  | .ldin32 ra rb => w.a = rd rb ∧ w.dst = some ra
  | .st32 ra addr => w.a = addr ∧ w.b = rd ra ∧ w.dst = none
  | .stin32 ra rb => w.a = rd rb ∧ w.b = rd ra ∧ w.dst = none
  | .jmp tgt | .call tgt => w.target = tgt ∧ w.dst = none
  | .je tgt | .jne tgt | .jlt tgt | .jle tgt | .jgt tgt | .jge tgt =>
    w.target = tgt ∧ w.flIn = fl ∧ w.dst = none
  | .ret | .halt => w.dst = none

/-- The register `q` after Writeback has committed what `MW` holds (R204). -/
def committedReg (s : State) (q : Reg) : Word :=
  match s.mw with
  | some w => if w.dst = some q then w.val else s.readReg q
  | none => s.readReg q

/-- The flags after Writeback has committed what `MW` holds (R204). -/
def committedFlags (s : State) : Flags :=
  match s.mw with
  | some w => w.flOut.getD s.flags
  | none => s.flags

end Sys2Proof.Machine
end

