-- ==== Sys2Proof/Certificates/Slice0/Obligations.lean ====
section
/-! DEFINITION. The statements about the machine, for the provers: each says what its docstring
says and cites the spec it rests on. OBLIGATIONS.json lists them. -/

open Sys2Proof Sys2Proof.Machine

/-- Construction accepts exactly the configurations that pass the checks. A configuration is
constructed exactly when the three checks of the source hold (R8: every line size is a power of
two, every capacity is a multiple of its line size, there is a level) and the further
constraints hold that the spec marks as its own addition (R9, D21, D22: a line holds a word, a
level has a line, 4 <= MEM_SIZE <= 2^32 and a multiple of every line, a stack entry, entry and
image aligned and inside memory). Otherwise construction answers an error; for the constraints
of R9, to which the spec gives no meaning, that answer is the model's choice (log 14). The
number of lines need not be a power of two. (00_scope.md R8, R9; 20_memory.md R65;
70_reset_and_hazards.md R293; notes/assumptions/14.md) -/
def Obligations.ConfigurationAcceptedExactlyWhenChecksHold : Prop :=
  ∀ c : Config,
    ((∃ s, construct c = .ok s) ↔
      (c.levels ≠ [] ∧
        (∀ lv ∈ c.levels,
          (∃ k, lv.line = 2 ^ k) ∧ lv.cap % lv.line = 0 ∧ 4 ≤ lv.line ∧ lv.line ≤ lv.cap ∧
            c.memSize % lv.line = 0) ∧
        4 ≤ c.memSize ∧ c.memSize ≤ 2 ^ 32 ∧ 1 ≤ c.stackDepth ∧ c.entry % 4 = 0 ∧
        c.entry + 4 ≤ c.memSize ∧ c.loadBase % 4 = 0 ∧
        c.loadBase + c.image.length ≤ c.memSize)) ∧
    ((∃ s, construct c = .ok s) ∨ ∃ e, construct c = .error e) ∧
    (∃ c' lv, (∃ s, construct c' = .ok s) ∧ lv ∈ c'.levels ∧ ∀ k, lv.nlines ≠ 2 ^ k)

/-- What reset leaves, from any state. From any state whose configuration passes the checks, reset
sets every register to 0, all flags to 0, pc to ENTRY, the return-address stack to zeros and
empty, memory to the image at LOAD_BASE and zero elsewhere, every line invalid with zero tag and
data, the latches to bubbles, mbusy and mdata to 0 and the status to Running; it keeps the
configuration and the breakpoint set. Construction gives the same state with no breakpoint.
(R290; R292) -/
def Obligations.ResetLeavesTheTable : Prop :=
  ∀ s : State, s.cfg.wf = true →
    (∀ r, (controllerReset s).readReg r = 0) ∧
    (controllerReset s).flags = { eq := false, lt := false, le := false } ∧
    (controllerReset s).pc.toNat = s.cfg.entry ∧
    (controllerReset s).ras.length = s.cfg.stackDepth ∧
    (∀ v ∈ (controllerReset s).ras, v = 0) ∧ (controllerReset s).sp = 0 ∧
    (∀ k b, s.cfg.image[k]? = some b →
      readByte (controllerReset s).mem (s.cfg.loadBase + k) = b) ∧
    (∀ a, a < s.cfg.loadBase ∨ s.cfg.loadBase + s.cfg.image.length ≤ a →
      readByte (controllerReset s).mem a = 0) ∧
    List.Forall₂ (fun lv cache => cache.length = lv.nlines ∧
        ∀ ln ∈ cache, ln.valid = false ∧ ln.tag = 0 ∧ ln.data = List.replicate lv.line 0)
      s.cfg.levels (controllerReset s).caches ∧
    (controllerReset s).fd = none ∧ (controllerReset s).de = none ∧
    (controllerReset s).em = none ∧ (controllerReset s).mw = none ∧
    (controllerReset s).mbusy = 0 ∧ (controllerReset s).mdata = 0 ∧
    (controllerReset s).status = .running ∧
    (controllerReset s).cfg = s.cfg ∧ (controllerReset s).breakpoints = s.breakpoints ∧
    construct s.cfg = .ok (controllerReset { s with breakpoints := [] })

/-- The reset state meets the model's invariants (State.reset's configuration is the model's choice,
log 3). For every configuration that passes the checks the reset state has a legal memory
system, a legal return-address stack, aligned pc and latches, legal flags and legal HALT
bookkeeping; State.reset is that state for the configuration CFG1 with an empty image, which is
the model's own choice (log 3). (10_state.md section 8; 20_memory.md R72) -/
def Obligations.ResetStateIsLegal : Prop :=
  (∀ (cfg : Config) (bps : List Nat), cfg.wf = true →
    (State.init cfg bps).memorySystemOk ∧ (State.init cfg bps).rasOk ∧
    (State.init cfg bps).pcOk ∧ (State.init cfg bps).latchesAligned ∧
    (State.init cfg bps).flags.legal ∧ (State.init cfg bps).haltOk) ∧
  State.reset = State.init Config.cfg1 []

/-- Decoding an encoded instruction gives it back. For every instruction with an encoding, at every
value of every operand, the decoder reads from the encoder's word exactly that instruction, and
from its bytes in memory order, whatever follows them, the instruction and what follows.
(30_encoding.md sections 1 to 3) -/
def Obligations.DecodeOfEncodeIsTheInstruction : Prop :=
  ∀ i : Instr, i.wf = true →
    decode (encode i) = .ok i ∧
    ∀ rest, decodeBytes (wordBytes (encode i) ++ rest) = .ok (i, rest)

/-- Unused bits never matter, all others do. A word that decodes gives an instruction that has an
encoding; encoding it gives the word with the bits its format does not use set to 0; and a word
that agrees with it on the used bits decodes to the same instruction. (R102) -/
def Obligations.DecodeIgnoresExactlyTheUnusedBits : Prop :=
  ∀ (w : Word) (i : Instr), decode w = .ok i →
    i.wf = true ∧ encode i = w &&& usedBits i.op ∧
    ∀ w' : Word, w' &&& usedBits i.op = w &&& usedBits i.op → decode w' = .ok i

/-- The decoder is the opcode map, field by field. Every row of the opcode map decodes to its
instruction with the fields at their bit positions, ADDIM's immediate sign-extended, the direct
address zero-extended, the target times 4; every word with another opcode is rejected as
InvalidOpcode. (R91; R97; R98; R99; R101) -/
def Obligations.DecodeFollowsTheOpcodeMap : Prop :=
  (rowR 0x10 .addi ∧ rowR 0x11 .subi ∧ rowR 0x12 .andi ∧ rowR 0x13 .ori ∧ rowR 0x14 .xori ∧
    rowR 0x15 .shli ∧ rowR 0x16 .shri ∧ rowR 0x18 .addu ∧ rowR 0x19 .subu ∧ rowR 0x1E .shru) ∧
  (rowISigned 0x20 .addim ∧ rowR 0x28 (fun _ rb rc => .cmp32 rb rc)) ∧
  (rowIUnsigned 0x30 .ld32 ∧ rowR 0x31 (fun ra rb _ => .ldin32 ra rb) ∧
    rowIUnsigned 0x38 .st32 ∧ rowR 0x39 (fun ra rb _ => .stin32 ra rb)) ∧
  (rowJ 0x40 .jmp ∧ rowJ 0x41 .je ∧ rowJ 0x42 .jne ∧ rowJ 0x43 .jlt ∧ rowJ 0x44 .jle ∧
    rowJ 0x45 .jgt ∧ rowJ 0x46 .jge ∧ rowJ 0x48 .call) ∧
  (rowZ 0x49 .ret ∧ rowZ 0x50 .halt) ∧
  ∀ w : Word, (w.extractLsb' 24 8).toNat ∉ assignedOpcodes →
    decode w = .error (.invalidOpcode w)

/-- Words written out from the spec's encodings decode as listed. One word of each format and the
corner words of V11 to V14 decode to the listed instructions; the zero word and the all-ones
word do not decode. (95_test_vectors.md V11, V12, V13, V14) -/
def Obligations.SpecWordsDecode : Prop :=
  decode 0x10312000 = .ok (.addi 3 1 2) ∧ decode 0x1EFED000 = .ok (.shru 15 14 13) ∧
  decode 0x202FFFFE = .ok (.addim 2 0xFFFFFFFE) ∧ decode 0x28F12FFF = .ok (.cmp32 1 2) ∧
  decode 0x30FFFFFC = .ok (.ld32 15 0xFFFFC) ∧ decode 0x39210FFF = .ok (.stin32 2 1) ∧
  decode 0x40FFFFFF = .ok (.jmp 0x3FFFFFC) ∧ decode 0x48000004 = .ok (.call 0x10) ∧
  decode 0x49ABCDEF = .ok .ret ∧ decode 0x50FFFFFF = .ok .halt ∧
  decode 0 = .error (.invalidOpcode 0) ∧ decode 0xFFFFFFFF = .error (.invalidOpcode 0xFFFFFFFF)

/-- A step is exec of the instruction at pc. When the engine is Running, the four bytes at pc lie
inside memory, no store of the program touched them and they decode to an instruction, step at
that state is exec of that instruction at that state. (50_pipeline.md section 7, R229;
20_memory.md R54) -/
def Obligations.StepRunsTheDecodedInstruction : Prop :=
  ∀ (s : State) (i : Instr), s.cfg.wf = true → s.status = .running →
    s.pc.toNat + 4 ≤ s.cfg.memSize → storedOver s.stored s.pc = false →
    decodeBytes (readBytes s.mem s.pc.toNat 4) = .ok (i, []) →
    step s = exec i s

/-- What step does where there is no instruction to run. With the engine Running and a sound
configuration: a pc outside memory takes OutOfBoundsAccess with pc as address and info; a word
the program has stored into is refused (R79; the record of stores is the model's own, log 7); a
word that does not decode takes InvalidOpcode with the word as info; nothing but the status
changes. That a step of a stopped engine leaves it as it is, is the model's choice (log 5,
DEDUCED: the architectural view does not say what follows a terminal state), and so is that a
configuration that breaks the checks is refused by step (log 14, DEDUCED). (00_scope.md R9;
20_memory.md R64, R79; 60_exceptions.md R260, R262; notes/assumptions/5.md;
notes/assumptions/7.md; notes/assumptions/14.md) -/
def Obligations.StepWithoutAnInstruction : Prop :=
  ∀ s : State,
    (s.cfg.wf = true → s.status = .running →
      (s.cfg.memSize < s.pc.toNat + 4 →
        step s = .next { s with status := .faulted ⟨.outOfBoundsAccess, s.pc, some s.pc⟩ }) ∧
      (s.pc.toNat + 4 ≤ s.cfg.memSize → storedOver s.stored s.pc = true →
        step s = .refused (.selfModifiedCode s.pc)) ∧
      (s.pc.toNat + 4 ≤ s.cfg.memSize → storedOver s.stored s.pc = false →
        (∀ i rest, decodeBytes (readBytes s.mem s.pc.toNat 4) ≠ .ok (i, rest)) →
        ∃ w : Word, w.toNat = word32At s.mem s.pc.toNat ∧
          step s = .next { s with status := .faulted ⟨.invalidOpcode, s.pc, some w⟩ })) ∧
    (s.cfg.wf = true → s.status ≠ .running → step s = .next s) ∧
    (s.cfg.wf = false → step s = .refused .configurationRejected)

/-- A word placed where step fetches next is the one that runs. For a Running engine with a sound
configuration, canonical memory and pc inside memory, a step from the state with a decodable
32-bit word placed at pc is exec of that word's instruction at that state, and decodeTableWord
reads the same instruction; the placement is the model's stand-in for loading a program (log 4).
(20_memory.md R54; 30_encoding.md R101) -/
def Obligations.PlacedWordIsExecuted : Prop :=
  ∀ (s : State) (w : Nat) (i : Instr), s.cfg.wf = true → s.status = .running →
    s.memoryOk → s.pc.toNat + 4 ≤ s.cfg.memSize → w < 2 ^ 32 →
    decodeTableWord 32 w = some i →
    decode (BitVec.ofNat 32 w) = .ok i ∧
    step (s.withFetchWord 32 w) = exec i (s.withFetchWord 32 w) ∧
    ∀ a, a < s.pc.toNat ∨ s.pc.toNat + 4 ≤ a →
      readByte (s.withFetchWord 32 w).mem a = readByte s.mem a

/-- ADDI, SUBI, ADDU, SUBU: results modulo 2^32, in every state, nothing else changed. From every
state each of the four completes; the destination gets the sum or the difference of the two
sources modulo 2^32 and only the destination and pc change; the rows of the opcode map are 0x10,
0x11, 0x18 and 0x19, format R. ADDI and ADDU, and SUBI and SUBU, act alike. (R121; R122; R128;
R129) -/
def Obligations.AddAndSubtractWrap : Prop :=
  (rowR 0x10 .addi ∧ rowR 0x11 .subi ∧ rowR 0x18 .addu ∧ rowR 0x19 .subu) ∧
  ∀ (s : State) (ra rb rc : Reg),
    writesRegister (.addi ra rb rc) ra s
      (fun v => v.toNat = ((s.readReg rb).toNat + (s.readReg rc).toNat) % 2 ^ 32) ∧
    writesRegister (.addu ra rb rc) ra s
      (fun v => v.toNat = ((s.readReg rb).toNat + (s.readReg rc).toNat) % 2 ^ 32) ∧
    writesRegister (.subi ra rb rc) ra s
      (fun v => (v.toNat : Int) = ((s.readReg rb).toNat - (s.readReg rc).toNat : Int) % 2 ^ 32) ∧
    writesRegister (.subu ra rb rc) ra s
      (fun v => (v.toNat : Int) = ((s.readReg rb).toNat - (s.readReg rc).toNat : Int) % 2 ^ 32) ∧
    exec (.addi ra rb rc) s = exec (.addu ra rb rc) s ∧
    exec (.subi ra rb rc) s = exec (.subu ra rb rc) s

/-- ANDI, ORI, XORI: bit by bit, in every state, nothing else changed. From every state each of the
three completes; every bit of the destination is the AND, OR or exclusive OR of the sources'
bits, and only the destination and pc change; XORI R,R,R gives 0; the rows are 0x12, 0x13, 0x14,
format R. (R123; R124; R125) -/
def Obligations.LogicActsBitByBit : Prop :=
  (rowR 0x12 .andi ∧ rowR 0x13 .ori ∧ rowR 0x14 .xori) ∧
  ∀ (s : State) (ra rb rc : Reg),
    writesRegister (.andi ra rb rc) ra s
      (fun v => ∀ k, k < 32 → v.getLsbD k =
        ((s.readReg rb).getLsbD k && (s.readReg rc).getLsbD k)) ∧
    writesRegister (.ori ra rb rc) ra s
      (fun v => ∀ k, k < 32 → v.getLsbD k =
        ((s.readReg rb).getLsbD k || (s.readReg rc).getLsbD k)) ∧
    writesRegister (.xori ra rb rc) ra s
      (fun v => ∀ k, k < 32 → v.getLsbD k =
        ((s.readReg rb).getLsbD k ^^ (s.readReg rc).getLsbD k)) ∧
    writesRegister (.xori ra ra ra) ra s (fun v => v = 0) ∧
    writesRegister (.andi ra ra ra) ra s (fun v => v = s.readReg ra) ∧
    writesRegister (.ori ra rb rb) ra s (fun v => v = s.readReg rb)

/-- SHLI, SHRI, SHRU: amount modulo 32, in every state, nothing else changed. From every state each
of the three completes; with s the low five bits of the second source, SHLI gives the first
source times 2^s modulo 2^32, SHRI the floor of its signed value divided by 2^s modulo 2^32,
SHRU its unsigned value divided by 2^s; only the destination and pc change; the rows are 0x15,
0x16, 0x1E, format R. (R126; R127; R130) -/
def Obligations.ShiftsUseTheLowFiveBits : Prop :=
  (rowR 0x15 .shli ∧ rowR 0x16 .shri ∧ rowR 0x1E .shru) ∧
  ∀ (s : State) (ra rb rc : Reg),
    writesRegister (.shli ra rb rc) ra s
      (fun v => v.toNat = (s.readReg rb).toNat * 2 ^ ((s.readReg rc).toNat % 32) % 2 ^ 32) ∧
    writesRegister (.shri ra rb rc) ra s
      (fun v => (v.toNat : Int) =
        (s.readReg rb).toInt / 2 ^ ((s.readReg rc).toNat % 32) % 2 ^ 32) ∧
    writesRegister (.shru ra rb rc) ra s
      (fun v => v.toNat = (s.readReg rb).toNat / 2 ^ ((s.readReg rc).toNat % 32))

/-- ADDIM: adds the sign-extended immediate, in every state, nothing else changed. From every state
ADDIM completes; its register gets its old value plus the immediate modulo 2^32 and only it and
pc change; the row is 0x20, format I with a sign-extended immediate whose range is -524288 to
524287; an immediate of 0 leaves every register as it was. (R131) -/
def Obligations.AddImmediateSignExtends : Prop :=
  rowISigned 0x20 .addim ∧
  (∀ (w : Word) (ra : Reg) (imm : Word), decode w = .ok (.addim ra imm) →
    -524288 ≤ imm.toInt ∧ imm.toInt ≤ 524287) ∧
  ∀ (s : State) (ra : Reg) (imm : Word),
    writesRegister (.addim ra imm) ra s
      (fun v => (v.toNat : Int) = ((s.readReg ra).toNat + imm.toInt) % 2 ^ 32) ∧
    writesRegister (.addim ra 0) ra s (fun v => v = s.readReg ra)

/-- CMP32: the three flags by unsigned comparison, in every state, nothing else changed. From every
state CMP32 completes; EQ, LT and LE are equal, less, less-or-equal of the unsigned readings, so
only the three combinations of the table arise; no register, no memory and nothing but the flags
and pc changes; the row is 0x28, its ra field ignored. (R141) -/
def Obligations.CompareSetsThreeFlagsUnsigned : Prop :=
  rowR 0x28 (fun _ rb rc => .cmp32 rb rc) ∧
  ∀ (s : State) (rb rc : Reg), ∃ t, exec (.cmp32 rb rc) s = .next t ∧
    (t.flags.eq = true ↔ (s.readReg rb).toNat = (s.readReg rc).toNat) ∧
    (t.flags.lt = true ↔ (s.readReg rb).toNat < (s.readReg rc).toNat) ∧
    (t.flags.le = true ↔ (s.readReg rb).toNat ≤ (s.readReg rc).toNat) ∧
    ((s.readReg rb).toNat < (s.readReg rc).toNat →
      t.flags = { eq := false, lt := true, le := true }) ∧
    ((s.readReg rb).toNat = (s.readReg rc).toNat →
      t.flags = { eq := true, lt := false, le := true }) ∧
    ((s.readReg rc).toNat < (s.readReg rb).toNat →
      t.flags = { eq := false, lt := false, le := false }) ∧
    t.pc = s.pc + 4 ∧ keepsRegsBut none s t ∧ keepsMemory s t ∧ t.caches = s.caches ∧
    keepsRas s t ∧ keepsPipeline s t ∧ t.status = s.status ∧ t.stored = s.stored

/-- LD32 and LDIN32: the little-endian word at the effective address, nothing else changed. In a
state with a legal memory system, at a word-aligned effective address inside memory, each load
completes: the destination gets the four bytes as a little-endian number, whatever the caches
hold; every other register, the flags, every byte of memory, the return-address stack, the
pipeline and the status are unchanged, the caches are those the hierarchy read leaves, and pc
advances by 4. (42_load_store.md R145, R146, R147; 20_memory.md R53, R72) -/
def Obligations.LoadsReadTheWord : Prop :=
  ∀ (s : State) (i : Instr) (ra : Reg) (ea : Word),
    (∃ addr, i = .ld32 ra addr) ∨ (∃ rb, i = .ldin32 ra rb) →
    effectiveAddress s.readReg i = some ea → s.memorySystemOk → ea.toNat % 4 = 0 →
    ea.toNat + 4 ≤ s.cfg.memSize →
    ∃ t, exec i s = .next t ∧ (t.readReg ra).toNat = word32At s.mem ea.toNat ∧
      keepsRegsBut (some ra) s t ∧ t.flags = s.flags ∧ t.pc = s.pc + 4 ∧ keepsMemory s t ∧
      t.caches = (hierRead s.cfg s.mem s.caches ea.toNat 4).caches ∧ keepsRas s t ∧
      keepsPipeline s t ∧ t.status = s.status ∧ t.stored = s.stored

/-- ST32 and STIN32: four bytes at the effective address, nothing else changed. In a state with
canonical memory, at a word-aligned effective address inside memory, each store completes: the
four bytes there are the data register's, least significant first; every byte outside them,
every register, the flags, the return-address stack, the pipeline and the status are unchanged,
and pc advances by 4. The model's record of stores gains the address (log 7). (42_load_store.md
R145, R148, R149; 20_memory.md R53, R70) -/
def Obligations.StoresWriteTheWord : Prop :=
  ∀ (s : State) (i : Instr) (ra : Reg) (ea : Word),
    (∃ addr, i = .st32 ra addr) ∨ (∃ rb, i = .stin32 ra rb) →
    effectiveAddress s.readReg i = some ea → s.memoryOk → ea.toNat % 4 = 0 →
    ea.toNat + 4 ≤ s.cfg.memSize →
    ∃ t, exec i s = .next t ∧
      (∀ k, k < 4 →
        (readByte t.mem (ea.toNat + k)).toNat = (s.readReg ra).toNat / 2 ^ (8 * k) % 2 ^ 8) ∧
      keepsMemoryBut ea.toNat 4 s t ∧ keepsRegsBut none s t ∧ t.flags = s.flags ∧
      t.pc = s.pc + 4 ∧
      t.caches = (hierWrite s.cfg s.mem s.caches ea.toNat 4 (s.readReg ra).toNat).caches ∧
      keepsRas s t ∧ keepsPipeline s t ∧ t.status = s.status ∧
      ∀ a, a ∈ t.stored ↔ a = ea.toNat ∨ a ∈ s.stored

/-- A load or store outside memory takes OutOfBoundsAccess, a misaligned one is refused. For each of
the four instructions: at an aligned effective address whose word does not lie inside memory the
fault OutOfBoundsAccess is taken with the instruction's address and the effective address, and
nothing else changes; at an address that is no multiple of 4 the model refuses, before the
bounds matter. (42_load_store.md R145; 20_memory.md R56, R64; 60_exceptions.md R262) -/
def Obligations.AccessOutsideMemoryFaults : Prop :=
  ∀ (s : State) (i : Instr) (ea : Word),
    effectiveAddress s.readReg i = some ea →
    (ea.toNat % 4 = 0 → s.cfg.memSize < ea.toNat + 4 →
      exec i s = .next { s with status := .faulted ⟨.outOfBoundsAccess, s.pc, some ea⟩ }) ∧
    (ea.toNat % 4 ≠ 0 → exec i s = .refused (.misalignedAccess s.pc ea))

/-- JMP and the conditional jumps: pc by the stored flags, in every state, nothing else changed.
From every state each of the seven jumps completes: pc becomes the target when the condition on
the stored flags holds, else pc + 4, and nothing else changes. Behind a CMP32 the conditions
read as the six unsigned relations of the table. (R170) -/
def Obligations.JumpsFollowTheConditionTable : Prop :=
  (∀ (s : State) (target : Word),
    exec (.jmp target) s = .next { s with pc := target } ∧
    exec (.je target) s = .next { s with pc := if s.flags.eq = true then target else s.pc + 4 } ∧
    exec (.jne target) s = .next { s with pc := if s.flags.eq = false then target else s.pc + 4 } ∧
    exec (.jlt target) s = .next { s with pc := if s.flags.lt = true then target else s.pc + 4 } ∧
    exec (.jle target) s = .next { s with pc := if s.flags.le = true then target else s.pc + 4 } ∧
    exec (.jgt target) s = .next { s with pc := if s.flags.le = false then target else s.pc + 4 } ∧
    exec (.jge target) s =
      .next { s with pc := if s.flags.lt = false then target else s.pc + 4 }) ∧
  ∀ (s t : State) (rb rc : Reg) (target : Word), exec (.cmp32 rb rc) s = .next t →
    exec (.je target) t = .next { t with pc :=
      if (s.readReg rb).toNat = (s.readReg rc).toNat then target else t.pc + 4 } ∧
    exec (.jne target) t = .next { t with pc :=
      if (s.readReg rb).toNat ≠ (s.readReg rc).toNat then target else t.pc + 4 } ∧
    exec (.jlt target) t = .next { t with pc :=
      if (s.readReg rb).toNat < (s.readReg rc).toNat then target else t.pc + 4 } ∧
    exec (.jle target) t = .next { t with pc :=
      if (s.readReg rb).toNat ≤ (s.readReg rc).toNat then target else t.pc + 4 } ∧
    exec (.jgt target) t = .next { t with pc :=
      if (s.readReg rc).toNat < (s.readReg rb).toNat then target else t.pc + 4 } ∧
    exec (.jge target) t = .next { t with pc :=
      if (s.readReg rc).toNat ≤ (s.readReg rb).toNat then target else t.pc + 4 }

/-- CALL: pushes this_pc + 4 and jumps, or StackOverflow when full. With room on a legal stack, CALL
completes: the entry at the old sp is the CALL's address plus 4, the other entries are
unchanged, sp grows by one, pc is the target, and no register, flag, byte of memory or anything
else changes. With the stack full, StackOverflow is taken and nothing else changes.
(43_control.md R168) -/
def Obligations.CallPushesTheReturnAddress : Prop :=
  ∀ (s : State) (target : Word), s.rasOk →
    (s.sp < s.cfg.stackDepth →
      ∃ t, exec (.call target) s = .next t ∧ t.ras[s.sp]? = some (s.pc + 4) ∧
        (∀ k, k ≠ s.sp → t.ras[k]? = s.ras[k]?) ∧ t.sp = s.sp + 1 ∧ t.pc = target ∧
        keepsRegsBut none s t ∧ t.flags = s.flags ∧ keepsMemory s t ∧ t.caches = s.caches ∧
        keepsPipeline s t ∧ t.status = s.status ∧ t.stored = s.stored) ∧
    (s.sp = s.cfg.stackDepth →
      exec (.call target) s = .next { s with status := .faulted ⟨.stackOverflow, s.pc, none⟩ })

/-- RET: pops the top entry into pc, or StackUnderflow when empty. With an entry on a legal stack,
RET completes: pc is the entry on top, sp shrinks by one, the entries keep their values, and
nothing else changes. With the stack empty, StackUnderflow is taken and nothing else changes.
(43_control.md R169) -/
def Obligations.RetPopsIntoPc : Prop :=
  ∀ s : State, s.rasOk →
    (0 < s.sp →
      ∃ t, exec .ret s = .next t ∧ some t.pc = s.ras[s.sp - 1]? ∧ t.sp = s.sp - 1 ∧
        t.ras = s.ras ∧ keepsRegsBut none s t ∧ t.flags = s.flags ∧ keepsMemory s t ∧
        t.caches = s.caches ∧ keepsPipeline s t ∧ t.status = s.status ∧ t.stored = s.stored) ∧
    (s.sp = 0 →
      exec .ret s = .next { s with status := .faulted ⟨.stackUnderflow, s.pc, none⟩ })

/-- HALT: status Halted, pc behind it, nothing else changed; a halted engine stays (the model's
choice, log 5). From every state HALT completes with status Halted and pc at its own address
plus 4; no register, flag, byte of memory, stack entry or anything else changes; and with a
sound configuration every later step leaves that state as it is, which is the model's choice
(log 5, DEDUCED: the architectural view does not say what follows a terminal state).
(44_system.md R180; 50_pipeline.md R229; notes/assumptions/5.md) -/
def Obligations.HaltStopsTheEngine : Prop :=
  ∀ s : State,
    exec .halt s = .next { s with pc := s.pc + 4, status := .halted } ∧
    (s.cfg.wf = true → ∀ k t, exec .halt s = .next t → Sys2Proof.core.run k t = .next t)

/-- A CALL followed by RET comes back behind the CALL. With room on a legal stack, CALL and then RET
bring pc to the CALL's address plus 4 with sp and all entries below it as before, all registers,
flags and memory unchanged, and the stack legal. (43_control.md R168, R169) -/
def Obligations.CallThenRetComesBack : Prop :=
  ∀ (s : State) (target : Word), s.rasOk → s.sp < s.cfg.stackDepth →
    ∃ t u, exec (.call target) s = .next t ∧ exec .ret t = .next u ∧ u.pc = s.pc + 4 ∧
      u.sp = s.sp ∧ u.ras.take u.sp = s.ras.take s.sp ∧ u.rasOk ∧ u.x = s.x ∧
      u.flags = s.flags ∧ u.mem = s.mem ∧ u.status = s.status

/-- Who writes what: over all instructions. Whatever instruction completes or faults: no register
but its destination changes; the flags change only under CMP32; memory and the record of stores
change only under ST32 and STIN32; the caches change only under the four accesses; the return-
address stack changes only under CALL and RET; the status changes only to Halted under HALT or
to Faulted with the instruction's own address; and the latches, the Memory stage's registers,
the configuration and the breakpoints never change. (10_state.md R22, R27, R31, R34;
30_encoding.md R106) -/
def Obligations.EachKindOfStateHasItsWriters : Prop :=
  ∀ (i : Instr) (s t : State), exec i s = .next t →
    keepsRegsBut (dstOf i) s t ∧
    ((∀ rb rc, i ≠ .cmp32 rb rc) → t.flags = s.flags) ∧
    ((∀ ra addr, i ≠ .st32 ra addr) → (∀ ra rb, i ≠ .stin32 ra rb) →
      t.mem = s.mem ∧ t.stored = s.stored) ∧
    (modeOf i = none → t.caches = s.caches) ∧
    ((∀ target, i ≠ .call target) → i ≠ .ret → keepsRas s t) ∧
    (t.status = s.status ∨ (i = .halt ∧ t.status = .halted) ∨
      ∃ f, t.status = .faulted f ∧ f.faultPc = s.pc ∧ t = { s with status := .faulted f }) ∧
    keepsPipeline s t

/-- An instruction's outcome depends on no register outside its sources. If a register is not among
an instruction's listed sources, changing its value changes the outcome in no way but in that
register: the two runs refuse alike, or both go on to states that differ at most there; where
the register is not the destination it keeps its changed value; where it is, a Running engine
that goes on Running leaves the same value in it in both runs, so the old destination is not
read, and one that faults leaves the changed value. The flags matter to the conditional jumps
alone. (30_encoding.md R106) -/
def Obligations.OnlyListedSourcesAreRead : Prop :=
  (∀ (i : Instr) (s : State) (r : Reg) (v : Word), r ∉ srcsOf i →
    (∀ t, exec i s = .next t →
      ∃ u, exec i (s.writeReg r v) = .next u ∧ sameButReg r t u ∧
        (dstOf i ≠ some r → u.readReg r = v) ∧
        (dstOf i = some r → s.status = .running →
          (t.status = .running → u.readReg r = t.readReg r) ∧
          (t.status ≠ .running → u.readReg r = v))) ∧
    (∀ why, exec i s = .refused why → exec i (s.writeReg r v) = .refused why)) ∧
  ∀ (i : Instr) (s : State) (f : Flags), readsFlagsOp i.op = false →
    (∀ t, exec i s = .next t →
      exec i { s with flags := f } = .next t ∨ exec i { s with flags := f } =
        .next { t with flags := f }) ∧
    (∀ why, exec i s = .refused why → exec i { s with flags := f } = .refused why)

/-- The only instruction the model refuses is a misaligned access. exec never stops with a model
fault; where it refuses, the instruction is a load or store whose effective address is no
multiple of 4. So every instruction without a misaligned effective address goes on to a next
state. (20_memory.md R56; 93_implementation_defined.md U6) -/
def Obligations.OnlyMisalignedAccessesAreRefused : Prop :=
  ∀ (i : Instr) (s : State),
    (∀ f, exec i s ≠ .fault f) ∧
    (∀ why, exec i s = .refused why → ∃ ea, effectiveAddress s.readReg i = some ea ∧
      ea.toNat % 4 ≠ 0 ∧ why = .misalignedAccess s.pc ea) ∧
    ((∀ ea, effectiveAddress s.readReg i = some ea → ea.toNat % 4 = 0) →
      ∃ t, exec i s = .next t)

/-- Every step keeps memory canonical and the caches coherent. If the memory system is legal (sound
configuration, canonical memory inside MEM_SIZE, caches of their geometry, every valid line
equal to the memory it maps) and a step answers a next state, the memory system is legal there.
(20_memory.md R72; 10_state.md R35) -/
def Obligations.StepKeepsTheMemorySystem : Prop :=
  ∀ s t : State, s.memorySystemOk → step s = .next t → t.memorySystemOk

/-- Every clock cycle keeps memory canonical and the caches coherent. The same for a clock cycle,
also one that ends in a fault. (20_memory.md R72; 50_pipeline.md R206) -/
def Obligations.CycleKeepsTheMemorySystem : Prop :=
  ∀ s t : State, s.memorySystemOk → cycle s = .next t → t.memorySystemOk

/-- The hierarchy returns what memory holds and keeps its invariant. For a sound configuration and
coherent caches of their geometry, a hierarchy read of an aligned 1, 2 or 4 byte value returns
the little-endian value of memory, and reads and writes leave the caches of their geometry and
coherent with the memory they leave. (20_memory.md R66, R70, R72) -/
def Obligations.CachesNeverChangeAValue : Prop :=
  ∀ (cfg : Config) (m : Mem) (caches : List Cache) (addr n v : Nat), cfg.wf = true →
    Memory.wf m = true → List.Forall₂ levelFits cfg.levels caches →
    List.Forall₂ (levelCoherent m) cfg.levels caches → n ∈ [1, 2, 4] → addr % n = 0 →
    (hierRead cfg m caches addr n).value = leValue (readBytes m addr n) ∧
    List.Forall₂ levelFits cfg.levels (hierRead cfg m caches addr n).caches ∧
    List.Forall₂ (levelCoherent m) cfg.levels (hierRead cfg m caches addr n).caches ∧
    List.Forall₂ levelFits cfg.levels (hierWrite cfg m caches addr n v).caches ∧
    List.Forall₂ (levelCoherent (hierWrite cfg m caches addr n v).mem) cfg.levels
      (hierWrite cfg m caches addr n v).caches

/-- A read right after a write of the same width returns the value written. For a sound
configuration, canonical memory and coherent caches of their geometry, hit or miss: reading n
bytes right after writing the n-byte value v at an aligned address returns v. (R73) -/
def Obligations.ReadAfterWriteReturnsTheValue : Prop :=
  ∀ (cfg : Config) (m : Mem) (caches : List Cache) (addr n v : Nat), cfg.wf = true →
    Memory.wf m = true → List.Forall₂ levelFits cfg.levels caches →
    List.Forall₂ (levelCoherent m) cfg.levels caches → n ∈ [1, 2, 4] → addr % n = 0 →
    v < 2 ^ (8 * n) →
    (hierRead cfg (hierWrite cfg m caches addr n v).mem (hierWrite cfg m caches addr n v).caches
      addr n).value = v

/-- A hit costs the latencies down to its level and changes nothing; a full miss fills every level.
If an address first hits at level k, the read's latency is the sum of the latencies of levels 0
to k and no level changes. If it misses at every level, the latency is the sum of all latencies
plus that of memory, and in every level the line at the address's index becomes valid with the
address's tag and the enclosing line of memory, all other lines unchanged. (R67; R68) -/
def Obligations.ReadLatencyAndFill : Prop :=
  ∀ (cfg : Config) (m : Mem) (caches : List Cache) (addr n : Nat),
    caches.length = cfg.levels.length →
    (∀ k, firstHit cfg caches addr k →
      (hierRead cfg m caches addr n).latency = ((cfg.levels.take (k + 1)).map Level.lat).sum ∧
      (hierRead cfg m caches addr n).caches = caches) ∧
    (missesEverywhere cfg caches addr →
      (hierRead cfg m caches addr n).latency = (cfg.levels.map Level.lat).sum + cfg.memLat ∧
      (hierRead cfg m caches addr n).caches.length = caches.length ∧
      ∀ (j : Nat) (lv : Level) (before : Cache), cfg.levels[j]? = some lv →
        caches[j]? = some before →
        ∃ after, (hierRead cfg m caches addr n).caches[j]? = some after ∧
          after.length = before.length ∧
          (addr / lv.line % lv.nlines < before.length →
            after[addr / lv.line % lv.nlines]? = some ⟨true, addr / (lv.line * lv.nlines),
              readBytes m (addr - addr % lv.line) lv.line⟩) ∧
          ∀ k, k ≠ addr / lv.line % lv.nlines → after[k]? = before[k]?)

/-- A write reaches memory always, a cached line only where it hits. A hierarchy write costs all
latencies plus memory's; memory holds the bytes written and is unchanged elsewhere; in each
level no line's valid bit or tag changes, no line but the hit one changes, and the hit line's
bytes at the offset are the bytes written. (20_memory.md R70, R71) -/
def Obligations.WriteIsThroughAndAllocatesNothing : Prop :=
  ∀ (cfg : Config) (m : Mem) (caches : List Cache) (addr n v : Nat), cfg.wf = true →
    Memory.wf m = true → List.Forall₂ levelFits cfg.levels caches → n ∈ [1, 2, 4] →
    addr % n = 0 →
    (hierWrite cfg m caches addr n v).latency = (cfg.levels.map Level.lat).sum + cfg.memLat ∧
    readBytes (hierWrite cfg m caches addr n v).mem addr n = leBytes n v ∧
    (∀ a, a < addr ∨ addr + n ≤ a →
      readByte (hierWrite cfg m caches addr n v).mem a = readByte m a) ∧
    ∀ (j : Nat) (lv : Level) (before : Cache), cfg.levels[j]? = some lv →
      caches[j]? = some before →
      ∃ after, (hierWrite cfg m caches addr n v).caches[j]? = some after ∧
        after.length = before.length ∧
        (¬hitsLevel lv before addr → after = before) ∧
        ∀ k old, before[k]? = some old →
          ∃ new, after[k]? = some new ∧ new.valid = old.valid ∧ new.tag = old.tag ∧
            (k ≠ addr / lv.line % lv.nlines → new = old) ∧
            (hitsLevel lv before addr → k = addr / lv.line % lv.nlines →
              (new.data.drop (addr % lv.line)).take n = leBytes n v ∧
              new.data.take (addr % lv.line) = old.data.take (addr % lv.line) ∧
              new.data.drop (addr % lv.line + n) = old.data.drop (addr % lv.line + n))

/-- After a fill, an address of another tag at the same index misses at that level. If a level of
its geometry is filled for one address, then any other address with the same index and another
tag misses there, whatever was there before, and the filled address hits. (R74) -/
def Obligations.FillEvictsTheOtherTag : Prop :=
  ∀ (m : Mem) (lv : Level) (cache : Cache) (addr other : Nat), levelFits lv cache →
    0 < lv.nlines → other / lv.line % lv.nlines = addr / lv.line % lv.nlines →
    other / (lv.line * lv.nlines) ≠ addr / (lv.line * lv.nlines) →
    hitsLevel lv (fillLevel m addr lv cache) addr ∧
    ¬hitsLevel lv (fillLevel m addr lv cache) other ∧
    hitLine lv (fillLevel m addr lv cache) other = none

/-- Two canonical memories that read alike are the same list. If two memories in canonical form give
the same byte at every address, they are equal; and writing a byte keeps the form, is read back,
and changes no other address. (20_memory.md R51) -/
def Obligations.CanonicalMemoriesAreEqualData : Prop :=
  (∀ m m' : Mem, Memory.wf m = true → Memory.wf m' = true →
    (∀ a, readByte m a = readByte m' a) → m = m') ∧
  ∀ (m : Mem) (a : Nat) (b : Byte), Memory.wf m = true →
    Memory.wf (writeByte m a b) = true ∧ readByte (writeByte m a b) a = b ∧
    ∀ a', a' ≠ a → readByte (writeByte m a b) a' = readByte m a'

/-- pc and the return addresses stay multiples of 4. If pc and every entry of the return-address
stack are multiples of 4 and a step answers a next state, they are so there. (10_state.md R25;
20_memory.md R57) -/
def Obligations.StepKeepsPcAligned : Prop :=
  ∀ s t : State, s.pcOk → step s = .next t → t.pcOk

/-- pc, the return addresses and the addresses in flight stay multiples of 4. The same for a clock
cycle, with the addresses that the latches FD and DE carry. (10_state.md R25; 20_memory.md R57) -/
def Obligations.CycleKeepsPcAligned : Prop :=
  ∀ s t : State, s.pcOk → s.latchesAligned → cycle s = .next t → t.pcOk ∧ t.latchesAligned

/-- The return-address stack keeps its size and sp its range, in both views. If the stack has
STACK_DEPTH entries and sp is at most STACK_DEPTH, a step and a clock cycle keep that.
(10_state.md R30) -/
def Obligations.StackPointerStaysInRange : Prop :=
  (∀ s t : State, s.rasOk → step s = .next t → t.rasOk) ∧
  ∀ s t : State, s.rasOk → cycle s = .next t → t.rasOk

/-- LE is EQ or LT, and not both EQ and LT, in both views. If the flags, and the flags in flight in
EM and MW, are legal combinations (the three of CMP32, one of them the reset one), a step and a
clock cycle keep that. (10_state.md R27; 41_compare.md R141) -/
def Obligations.FlagsStayALegalCombination : Prop :=
  (∀ s t : State, s.flags.legal → step s = .next t → t.flags.legal) ∧
  ∀ s t : State, s.flags.legal →
    (∀ m f, s.em = some m → m.flOut = some f → f.legal) →
    (∀ w f, s.mw = some w → w.flOut = some f → f.legal) → cycle s = .next t →
    t.flags.legal ∧ (∀ m f, t.em = some m → m.flOut = some f → f.legal) ∧
    (∀ w f, t.mw = some w → w.flOut = some f → f.legal)

/-- A HALT in flight has nothing behind it, and a halted engine is empty with pc behind the HALT.
Every clock cycle keeps: the word in FD stands just before pc; behind a HALT in Execute, Memory
or Writeback there are only bubbles and pc stands right behind the HALT; a stall counter above 0
belongs to an access in Memory; a halted engine has four bubbles and mbusy 0. And a cycle that
halts leaves pc at the address of the HALT it committed plus 4. (50_pipeline.md R224, R225;
60_exceptions.md R275) -/
def Obligations.NothingFollowsAHaltInThePipe : Prop :=
  ∀ s t : State, s.haltOk → cycle s = .next t →
    t.haltOk ∧
    (t.status = .halted → ∃ w, s.mw = some w ∧ w.op = .halt ∧ t.pc = w.pc + 4)

/-- Registers and flags change in a cycle exactly as Writeback commits them. In every cycle that
answers a next state, stalled, moving or faulting: each register is the value MW carries for it,
or unchanged; the flags are those MW carries, or unchanged; so at most one register changes; and
a HALT in MW ends the cycle Halted unless the cycle faults. (50_pipeline.md R204; 10_state.md
R22, R27) -/
def Obligations.WritebackCommitsInEveryCycle : Prop :=
  ∀ s t : State, cycle s = .next t →
    (∀ q, t.readReg q = committedReg s q) ∧ t.flags = committedFlags s ∧
    ((∃ w, s.mw = some w ∧ w.op = .halt) → t.status = .halted ∨ ∃ f, t.status = .faulted f) ∧
    (t.status = .halted → ∃ w, s.mw = some w ∧ w.op = .halt) ∧
    (∀ q q', t.readReg q ≠ s.readReg q → t.readReg q' ≠ s.readReg q' → q = q')

/-- A load of latency L holds the Memory stage max(1, L) cycles and holds everything behind it. Take
a Running engine of a sound configuration with an aligned, in-bounds load in its first Memory
cycle, of latency L, and no HALT in Writeback. For every k below max(1, L), after k cycles the
load is still in EM with DE, FD, pc, ras and sp as they were, memory is as it was, and from the
first on mbusy is max(1, L) - k and the caches are those the hierarchy read leaves. After max(1,
L) cycles, also where the last of them faults in a later stage, memory is as it was and the
caches are those the hierarchy read leaves; and if that cycle does not fault, the load is then
in MW with the value read. (50_pipeline.md R206, R207, R208, R226; 20_memory.md R66;
70_reset_and_hazards.md R313) -/
def Obligations.LoadHoldsMemoryForItsLatency : Prop :=
  ∀ (s : State) (m : ExecuteLatch) (L : Nat), s.cfg.wf = true → s.status = .running →
    s.em = some m → isLoadOp m.op = true → s.mbusy = 0 → m.res.toNat % 4 = 0 →
    m.res.toNat + 4 ≤ s.cfg.memSize → (∀ w, s.mw = some w → w.op ≠ .halt) →
    L = (hierRead s.cfg s.mem s.caches m.res.toNat 4).latency →
    (∀ k, k < max 1 L → ∃ t, cycles k s = .next t ∧ t.em = some m ∧ t.de = s.de ∧
      t.fd = s.fd ∧ t.pc = s.pc ∧ keepsRas s t ∧ t.status = .running ∧ t.mem = s.mem ∧
      (1 ≤ k → t.mbusy = max 1 L - k ∧ t.mw = none ∧
        t.mdata = BitVec.ofNat 32 (hierRead s.cfg s.mem s.caches m.res.toNat 4).value ∧
        t.caches = (hierRead s.cfg s.mem s.caches m.res.toNat 4).caches)) ∧
    (∀ u, cycles (max 1 L) s = .next u →
      u.mem = s.mem ∧ u.caches = (hierRead s.cfg s.mem s.caches m.res.toNat 4).caches ∧
      (u.status = .running → u.mbusy = 0 ∧ u.mw = some ⟨m.pc, m.op, m.dst,
        BitVec.ofNat 32 (hierRead s.cfg s.mem s.caches m.res.toNat 4).value, none⟩))

/-- A store of latency L writes in its first cycle, holds the Memory stage max(1, L) cycles and
holds everything behind it. Take a Running engine of a sound configuration with an aligned, in-
bounds store in its first Memory cycle, of latency L, and no HALT in Writeback. For every k
below max(1, L), after k cycles the store is still in EM with DE, FD, pc, ras and sp as they
were, and from the first on memory and caches are those the hierarchy write leaves and mbusy is
max(1, L) - k. After max(1, L) cycles, also where the last of them faults in a later stage,
memory and caches are those the hierarchy write leaves; and if that cycle does not fault, the
store is then in MW with nothing to commit to the flags. (50_pipeline.md R206, R207, R208, R226;
70_reset_and_hazards.md R313; 20_memory.md R70, R71) -/
def Obligations.StoreHoldsMemoryForItsLatency : Prop :=
  ∀ (s : State) (m : ExecuteLatch) (L : Nat), s.cfg.wf = true → s.status = .running →
    s.em = some m → isStoreOp m.op = true → s.mbusy = 0 → m.res.toNat % 4 = 0 →
    m.res.toNat + 4 ≤ s.cfg.memSize → (∀ w, s.mw = some w → w.op ≠ .halt) →
    L = (hierWrite s.cfg s.mem s.caches m.res.toNat 4 m.sdata.toNat).latency →
    (∀ k, k < max 1 L → ∃ t, cycles k s = .next t ∧ t.em = some m ∧ t.de = s.de ∧
      t.fd = s.fd ∧ t.pc = s.pc ∧ keepsRas s t ∧ t.status = .running ∧
      (1 ≤ k → t.mbusy = max 1 L - k ∧ t.mw = none ∧
        t.mem = (hierWrite s.cfg s.mem s.caches m.res.toNat 4 m.sdata.toNat).mem ∧
        t.caches = (hierWrite s.cfg s.mem s.caches m.res.toNat 4 m.sdata.toNat).caches)) ∧
    (∀ u, cycles (max 1 L) s = .next u →
      u.mem = (hierWrite s.cfg s.mem s.caches m.res.toNat 4 m.sdata.toNat).mem ∧
      u.caches = (hierWrite s.cfg s.mem s.caches m.res.toNat 4 m.sdata.toNat).caches ∧
      (u.status = .running → u.mbusy = 0 ∧ ∃ w, u.mw = some w ∧ w.pc = m.pc ∧
        w.op = m.op ∧ w.dst = m.dst ∧ w.flOut = none))

/-- In a cycle without a Memory stall every instruction moves on by one stage. Memory completes its
cycle without a stall and without touching memory or caches when EM is a bubble or holds no load
or store. In a cycle that goes on, with Memory not stalling: what was in EM is in MW and what
was in DE is in EM, with its address, mnemonic and destination; what was in FD is in DE, unless
Execute redirects or Decode stalls on a load-use hazard, and then DE is a bubble. The word of FD
decodes, and DE holds its address, its mnemonic and the destination, operands, target and flags
that the table of R219 selects for it, registers and flags read through forwarding; a field the
table calls unused is not constrained (log 10). (50_pipeline.md R205, R210, R217, R218, R219,
R222; 70_reset_and_hazards.md R310) -/
def Obligations.InstructionsMoveOneStageACycle : Prop :=
  (∀ s : State, (∀ l, s.em = some l → l.op ≠ .ld32 ∧ l.op ≠ .ldin32 ∧ l.op ≠ .st32 ∧
      l.op ≠ .stin32) →
    ∃ m, stageM s = .ok m ∧ m.stall = false ∧ m.mem = s.mem ∧ m.caches = s.caches) ∧
  ∀ (s t : State) (m : MemoryOut) (e : ExecuteOut) (d : DecodeOut), stageM s = .ok m →
    m.stall = false → stageE s m.stored = .ok e →
    stageD s (forwardsOf (stageW s) m e) e.redirect = .ok d → cycle s = .next t →
    (∀ f, t.status ≠ .faulted f) →
    t.mw.map (fun w => (w.pc, w.op, w.dst)) = s.em.map (fun l => (l.pc, l.op, l.dst)) ∧
    t.em.map (fun l => (l.pc, l.op, l.dst)) = s.de.map (fun l => (l.pc, l.op, l.dst)) ∧
    (e.redirect = none → d.stall = false →
      (s.fd = none → t.de = none) ∧
      ∀ l, s.fd = some l → ∃ i w, decode l.word = .ok i ∧ t.de = some w ∧ w.pc = l.pc ∧
        w.op = i.op ∧
        decodedAs ((forwardsOf (stageW s) m e).rd s) ((forwardsOf (stageW s) m e).rdFlags s) w i) ∧
    (e.redirect ≠ none ∨ d.stall = true → t.de = none)

/-- A load in Execute whose destination is read by the word in Decode: Decode and Fetch hold,
Execute gets a bubble, and nothing else stalls Decode. Take a Running engine of a sound
configuration whose Memory stage completes its cycle without a stall, with a load into r in DE,
not from stored-over memory, and in FD a decodable word that reads r. The cycle answers a next
state with DE a bubble, FD and pc unchanged and the load in EM; no load-use hazard can arise
there, whatever Decode then holds; and where a stall counter above 0 belongs to an access in
Memory (the invariant haltOk), the Memory stage of the next cycle begins the load's own access.
Whenever Decode completes, it asserts the stall exactly when there is no redirect, DE holds LD32
or LDIN32 with a destination, and the word in FD decodes to an instruction that reads that
register by the table of R106. (50_pipeline.md R206, R219, R222; 30_encoding.md R106;
70_reset_and_hazards.md R311) -/
def Obligations.LoadUseStallsOneCycle : Prop :=
  (∀ (s : State) (m : MemoryOut) (e : DecodeLatch) (r : Reg) (d : FetchLatch) (i : Instr),
    s.cfg.wf = true → s.status = .running → stageM s = .ok m → m.stall = false →
    s.de = some e → e.op = .ld32 ∨ e.op = .ldin32 → e.dst = some r → s.fd = some d →
    storedOver m.stored e.pc = false → decode d.word = .ok i → readsRegister r i →
    ∃ t m', cycle s = .next t ∧ t.de = none ∧ t.fd = s.fd ∧ t.pc = s.pc ∧
      t.em = some m' ∧ m'.op = e.op ∧ m'.dst = some r ∧ m'.res = e.a ∧
      (∀ j, loadUse t j = false) ∧
      (s.haltOk → t.mbusy = 0 ∧ stageM t = issueLoad t m')) ∧
  ∀ (s : State) (fw : Forwards) (redirect : Option Word) (o : DecodeOut),
    stageD s fw redirect = .ok o →
    (o.stall = true ↔ redirect = none ∧ ∃ e r d i, s.de = some e ∧
      (e.op = .ld32 ∨ e.op = .ldin32) ∧ e.dst = some r ∧ s.fd = some d ∧ decode d.word = .ok i ∧
      readsRegister r i)

/-- Forwarding: the youngest producer in flight wins. When Memory does not stall and Execute
completes: the value Decode reads for r is the result of an ALU instruction in Execute that
writes r (each of the eleven ALU mnemonics with its operation on the latched operands), else the
loaded or passed value of the instruction leaving Memory that writes r, else the value MW
carries for r, else the stored register; the flags are those of a CMP32 in Execute, else those
leaving Memory, else those in MW, else the stored ones. (50_pipeline.md R210, R220, R221) -/
def Obligations.DecodeReadsTheYoungestValue : Prop :=
  ∀ (s : State) (m : MemoryOut) (e : ExecuteOut), stageM s = .ok m → m.stall = false →
    stageE s m.stored = .ok e →
    (∀ (l : DecodeLatch) (r : Reg), s.de = some l → l.dst = some r →
      (l.op = .addi ∨ l.op = .addu ∨ l.op = .addim →
        (forwardsOf (stageW s) m e).rd s r = l.a + l.b) ∧
      (l.op = .subi ∨ l.op = .subu → (forwardsOf (stageW s) m e).rd s r = l.a - l.b) ∧
      (l.op = .andi → (forwardsOf (stageW s) m e).rd s r = l.a &&& l.b) ∧
      (l.op = .ori → (forwardsOf (stageW s) m e).rd s r = l.a ||| l.b) ∧
      (l.op = .xori → (forwardsOf (stageW s) m e).rd s r = l.a ^^^ l.b) ∧
      (l.op = .shli → (forwardsOf (stageW s) m e).rd s r = l.a <<< (l.b.toNat % 32)) ∧
      (l.op = .shri → (forwardsOf (stageW s) m e).rd s r = l.a.sshiftRight (l.b.toNat % 32)) ∧
      (l.op = .shru → (forwardsOf (stageW s) m e).rd s r = l.a >>> (l.b.toNat % 32))) ∧
    (∀ r : Reg, (∀ l, s.de = some l → l.dst ≠ some r ∨ isLoadOp l.op = true) →
      (∀ l, s.em = some l → l.dst = some r → isStoreOp l.op = false →
        (forwardsOf (stageW s) m e).rd s r =
          if isLoadOp l.op = true then m.mdata else l.res) ∧
      ((∀ l, s.em = some l → l.dst ≠ some r) →
        (forwardsOf (stageW s) m e).rd s r = committedReg s r)) ∧
    (∀ l, s.de = some l → l.op = .cmp32 →
      (forwardsOf (stageW s) m e).rdFlags s = compareFlags l.a l.b) ∧
    ((∀ l, s.de = some l → l.op ≠ .cmp32) →
      (∀ l f, s.em = some l → isLoadOp l.op = false → isStoreOp l.op = false →
        l.flOut = some f → (forwardsOf (stageW s) m e).rdFlags s = f) ∧
      ((∀ l, s.em = some l → l.flOut = none) →
        (forwardsOf (stageW s) m e).rdFlags s = committedFlags s))

/-- A redirect squashes Decode and Fetch, whatever they hold. Take a Running engine of a sound
configuration whose Memory stage completes without a stall, the word in Execute not from stored-
over memory. If Execute redirects (JMP, a conditional jump whose condition holds, CALL with
room, RET with an entry, the stack being a legal one), the cycle answers a next state with pc at
the target (for RET at the entry on top of the stack) and FD and DE bubbles, whatever word FD
holds and wherever pc points: no fault of Decode or Fetch arises, memory, registers and flags
are as the older instructions leave them, and the return-address stack is pushed by CALL, popped
by RET and else unchanged. (50_pipeline.md R213, R214, R215, R217; 60_exceptions.md R265;
70_reset_and_hazards.md R301) -/
def Obligations.TakenTransferSquashesTwo : Prop :=
  ∀ (s : State) (m : MemoryOut) (l : DecodeLatch), s.cfg.wf = true → s.status = .running →
    stageM s = .ok m → m.stall = false → s.de = some l → storedOver m.stored l.pc = false →
    ((l.op = .jmp ∨ (l.op = .je ∧ l.flIn.eq = true) ∨ (l.op = .jne ∧ l.flIn.eq = false) ∨
        (l.op = .jlt ∧ l.flIn.lt = true) ∨ (l.op = .jle ∧ l.flIn.le = true) ∨
        (l.op = .jgt ∧ l.flIn.le = false) ∨ (l.op = .jge ∧ l.flIn.lt = false) ∨
        (l.op = .call ∧ s.sp ≠ s.cfg.stackDepth)) →
      ∃ t, cycle s = .next t ∧ t.pc = l.target ∧ t.fd = none ∧ t.de = none ∧
        t.mem = m.mem ∧ (∀ q, t.readReg q = committedReg s q) ∧ t.flags = committedFlags s ∧
        (∀ f, t.status ≠ .faulted f) ∧
        (l.op = .call → t.ras = s.ras.set s.sp (l.pc + 4) ∧ t.sp = s.sp + 1) ∧
        (l.op ≠ .call → keepsRas s t)) ∧
    (l.op = .ret → s.rasOk → s.sp ≠ 0 →
      ∃ t, cycle s = .next t ∧ some t.pc = s.ras[s.sp - 1]? ∧ t.fd = none ∧ t.de = none ∧
        t.mem = m.mem ∧ (∀ q, t.readReg q = committedReg s q) ∧ t.flags = committedFlags s ∧
        (∀ f, t.status ≠ .faulted f) ∧ t.ras = s.ras ∧ t.sp = s.sp - 1)

/-- What Fetch does in a cycle that neither stalls nor redirects. Take a cycle of a Running engine
in which Memory does not stall, Execute does not redirect, Decode completes without a load-use
stall. If a HALT is in FD, DE, EM or MW the cycle leaves FD a bubble and pc unchanged, wherever
pc points; else, with pc inside memory and not at an address stored over in an earlier cycle, FD
holds pc and the word of the start-of-cycle memory at pc, and pc has advanced by 4; no cache is
touched by the fetch. A fetch from an address stored over in an earlier cycle is refused (R79;
the record is the model's own, log 7, log 8). The fetch outside memory is the last clause of
OldestFaultWins. (50_pipeline.md R223, R224; 20_memory.md R75, R79; notes/assumptions/8.md) -/
def Obligations.FetchAdvancesOrStopsBehindHalt : Prop :=
  ∀ (s : State) (m : MemoryOut) (e : ExecuteOut) (d : DecodeOut), s.cfg.wf = true →
    s.status = .running → stageM s = .ok m → m.stall = false → stageE s m.stored = .ok e →
    e.redirect = none → stageD s (forwardsOf (stageW s) m e) none = .ok d →
    d.stall = false →
    ((∃ w, s.fd = some w ∧ w.word.extractLsb' 24 8 = 0x50) ∨ (∃ l, s.de = some l ∧ l.op = .halt) ∨
        (∃ l, s.em = some l ∧ l.op = .halt) ∨ (∃ l, s.mw = some l ∧ l.op = .halt) →
      ∃ t, cycle s = .next t ∧ t.fd = none ∧ t.pc = s.pc ∧ t.caches = m.caches) ∧
    (fetchStop s = false → s.pc.toNat + 4 ≤ s.cfg.memSize → storedOver s.stored s.pc = true →
      cycle s = .refused (.selfModifiedCode s.pc)) ∧
    (fetchStop s = false → s.pc.toNat + 4 ≤ s.cfg.memSize → storedOver s.stored s.pc = false →
      ∃ t w, cycle s = .next t ∧ t.fd = some { pc := s.pc, word := w } ∧
        w.toNat = word32At s.mem s.pc.toNat ∧ t.pc = s.pc + 4 ∧ t.caches = m.caches)

/-- What a faulting cycle leaves, and which instruction it blames. If a cycle ends Faulted, then the
latches, pc, mbusy and mdata are those of its start, registers and flags are as Writeback left
them, and either the record is that of an access outside memory in Memory, with memory, caches
and stack untouched; or memory and caches are as Memory left them and the record is that of CALL
or RET in Execute, with the stack untouched; or also the stack is as Execute left it, Execute
did not redirect, and the record is that of an unassigned word in Decode or of a pc outside
memory in Fetch. (50_pipeline.md R227; 60_exceptions.md R260, R262, R263) -/
def Obligations.FaultingCycleKeepsWhatIsCommitted : Prop :=
  ∀ (s t : State) (r : FaultRecord), cycle s = .next t → t.status = .faulted r →
    t.fd = s.fd ∧ t.de = s.de ∧ t.em = s.em ∧ t.mw = s.mw ∧ t.pc = s.pc ∧ t.mbusy = s.mbusy ∧
    t.mdata = s.mdata ∧ (∀ q, t.readReg q = committedReg s q) ∧ t.flags = committedFlags s ∧
    ((faultsInMemory s r ∧ t.mem = s.mem ∧ t.caches = s.caches ∧ keepsRas s t) ∨
     ∃ m, stageM s = .ok m ∧ m.stall = false ∧ t.mem = m.mem ∧ t.caches = m.caches ∧
      ((faultsInExecute s r ∧ keepsRas s t) ∨
       ∃ e, stageE s m.stored = .ok e ∧ e.redirect = none ∧ t.ras = e.ras ∧ t.sp = e.sp ∧
        (faultsInDecode s r ∨ faultsInFetch s r)))

/-- In one cycle the fault of the stage nearest Writeback is taken. For a Running engine of a sound
configuration: a fault in Memory is taken whatever Execute, Decode and Fetch hold; if Memory
completes without a stall, a fault in Execute of a word not stored over is taken whatever Decode
and Fetch hold; if Execute also completes without a redirect, a fault in Decode is taken
whatever Fetch holds; if Decode also completes without a load-use stall, a pc outside memory in
Fetch takes OutOfBoundsAccess; while Memory stalls, no fault is taken. (60_exceptions.md R260,
R264, R265; 50_pipeline.md R223, R227; 70_reset_and_hazards.md R300) -/
def Obligations.OldestFaultWins : Prop :=
  ∀ (s : State) (r : FaultRecord), s.cfg.wf = true → s.status = .running →
    (faultsInMemory s r → ∃ t, cycle s = .next t ∧ t.status = .faulted r) ∧
    (∀ m, stageM s = .ok m →
      (m.stall = true → ∃ t, cycle s = .next t ∧ ∀ f, t.status ≠ .faulted f) ∧
      (m.stall = false →
        ((∀ l, s.de = some l → storedOver m.stored l.pc = false) →
          faultsInExecute s r → ∃ t, cycle s = .next t ∧ t.status = .faulted r) ∧
        ∀ e, stageE s m.stored = .ok e → e.redirect = none →
          (faultsInDecode s r → ∃ t, cycle s = .next t ∧ t.status = .faulted r) ∧
          ∀ d, stageD s (forwardsOf (stageW s) m e) none = .ok d → d.stall = false →
            faultsInFetch s r → ∃ t, cycle s = .next t ∧ t.status = .faulted r))

/-- A cycle of a Running engine goes on, except for the listed refusals. For a Running engine of a
sound configuration a cycle answers a next state, unless the instruction in Memory begins an
access at an address that is no multiple of 4 (R56), or Fetch reads an address stored over in an
earlier cycle (R79), or the word in Execute, fetched before, is stored over when all older
instructions are past Memory's faults. The last is the model's own deduction from R79 (the
architectural view fetches that word after the store; log 7, DEDUCED), and so is that a fetch in
the cycle of the store itself is not a later one (log 8, DEDUCED). That a stopped engine answers
the fault engineNotRunning is the model's reading (log 5, DEDUCED). An unsound configuration is
refused (R9). (20_memory.md R56, R79; 00_scope.md R9; 60_exceptions.md R262;
93_implementation_defined.md sections 1 and 2; notes/assumptions/5.md; notes/assumptions/7.md;
notes/assumptions/8.md) -/
def Obligations.CycleRefusesOnlyTheListedCases : Prop :=
  ∀ s : State,
    (s.cfg.wf = true → s.status = .running →
      (∀ f, cycle s ≠ .fault f) ∧
      (∀ why, cycle s = .refused why →
        (∃ m, s.em = some m ∧ (isLoadOp m.op || isStoreOp m.op) = true ∧ s.mbusy = 0 ∧
          m.res.toNat % 4 ≠ 0 ∧ why = .misalignedAccess m.pc m.res) ∨
        (∃ m e, stageM s = .ok m ∧ m.stall = false ∧ s.de = some e ∧
          storedOver m.stored e.pc = true ∧ why = .selfModifiedCode e.pc) ∨
        (fetchStop s = false ∧ s.pc.toNat + 4 ≤ s.cfg.memSize ∧
          storedOver s.stored s.pc = true ∧ why = .selfModifiedCode s.pc))) ∧
    (s.cfg.wf = true → s.status ≠ .running → cycle s = .fault .engineNotRunning) ∧
    (s.cfg.wf = false → cycle s = .refused .configurationRejected)

/-- If the cycle machine halts, the one-instruction-at-a-time machine halts in the same state. For
every configuration that passes the checks (so for every image): if n cycles from reset end
Halted, then the architectural view from the same reset state ends Halted too, having executed
exactly the instructions that reached Writeback, in the same order, with the same registers,
flags, memory, valid stack entries, sp and pc. (50_pipeline.md section 7, R229) -/
def Obligations.CycleMachineAgreesWithTheInterpreter : Prop :=
  ∀ (cfg : Config) (bps : List Nat) (n : Nat) (t : State), cfg.wf = true →
    cycles n (State.init cfg bps) = .next t → t.status = .halted →
    ∃ k u, Sys2Proof.core.run k (State.init cfg bps) = .next u ∧ u.status = .halted ∧
      executedPcs k (State.init cfg bps) = retiredPcs n (State.init cfg bps) ∧
      (∀ q, u.readReg q = t.readReg q) ∧ u.flags = t.flags ∧
      (∀ a, readByte u.mem a = readByte t.mem a) ∧ u.sp = t.sp ∧
      u.ras.take u.sp = t.ras.take t.sp ∧ u.pc = t.pc

/-- step() is one cycle when Running and nothing in a terminal state, with the report. For a Running
engine step() answers exactly as one cycle does, with the status after it (the fault record in
it) and whether pc is a breakpoint address; for a Halted or Faulted engine it changes nothing
and returns that state. (R277) -/
def Obligations.ControllerStepIsOneCycle : Prop :=
  ∀ s : State,
    (s.status = .running →
      (∀ t, cycle s = .next t ↔ ∃ rep, controllerStep s = .next (t, rep)) ∧
      (∀ t rep, controllerStep s = .next (t, rep) → rep.status = t.status ∧
        (rep.breakpoint = true ↔ t.pc.toNat ∈ t.breakpoints)) ∧
      (∀ why, cycle s = .refused why ↔ controllerStep s = .refused why)) ∧
    (s.status ≠ .running → ∃ rep, controllerStep s = .next (s, rep) ∧ rep.status = s.status ∧
      (rep.breakpoint = true ↔ s.pc.toNat ∈ s.breakpoints))

/-- run() stops at the first step after which the engine stopped or a breakpoint is at Fetch. A
reason holds at a state exactly so: halted when the engine is Halted, faulted with its record
when it is Faulted, breakpoint when it is Running with pc in the breakpoint set, and else none.
If the model's run with a budget of steps returns a reason other than the spent budget, then
some number j of steps, at least one, leads there, the reason holds there, and after no smaller
positive number of steps does any reason hold. Conversely, where j steps, at least one and
within the budget, lead without a refusal to a state in which a reason holds, and after no
smaller positive number of steps does any reason hold, the run returns that state and that
reason. Which reason holds when the engine has stopped with pc on a breakpoint address is the
model's choice (log 24). In a terminal state run() returns that state at once. The budget is the
model's own device (log 15). (60_exceptions.md R278; notes/assumptions/15.md;
notes/assumptions/24.md) -/
def Obligations.RunStopsForItsReason : Prop :=
  (∀ t : State,
    (stopReason t = some .breakpoint ↔ t.status = .running ∧ t.pc.toNat ∈ t.breakpoints) ∧
    (stopReason t = some .halted ↔ t.status = .halted) ∧
    (∀ f, stopReason t = some (.faulted f) ↔ t.status = .faulted f) ∧
    stopReason t ≠ some .budgetSpent) ∧
  (∀ (n : Nat) (s t : State) (why : StopReason), s.status = .running →
    controllerRun n s = .next (t, why) → why ≠ .budgetSpent →
    ∃ j, 1 ≤ j ∧ j ≤ n ∧ cycles j s = .next t ∧ stopReason t = some why ∧
      ∀ i u, 1 ≤ i → i < j → cycles i s = .next u → stopReason u = none) ∧
  (∀ (n j : Nat) (s t : State) (why : StopReason), s.status = .running → 1 ≤ j → j ≤ n →
    cycles j s = .next t → stopReason t = some why →
    (∀ i u, 1 ≤ i → i < j → cycles i s = .next u → stopReason u = none) →
    controllerRun n s = .next (t, why)) ∧
  ∀ (n : Nat) (s : State), 1 ≤ n →
    (s.status = .halted → controllerRun n s = .next (s, .halted)) ∧
    (∀ f, s.status = .faulted f → controllerRun n s = .next (s, .faulted f))

/-- Setting or clearing a breakpoint changes the set and nothing the engine does. set_breakpoint
adds the address and clear_breakpoint removes it, and no other address, and nothing else of the
state changes; a cycle and a step of the architectural view from the state that set_breakpoint
or clear_breakpoint leaves answer as before, with the new set kept. (10_state.md R42;
60_exceptions.md R279) -/
def Obligations.BreakpointsAreInvisibleToTheEngine : Prop :=
  (∀ (s : State) (a k : Nat) (b : Word), b.toNat = a →
    (k ∈ (setBreakpoint b s).breakpoints ↔ k = a ∨ k ∈ s.breakpoints) ∧
    (k ∈ (clearBreakpoint b s).breakpoints ↔ k ≠ a ∧ k ∈ s.breakpoints)) ∧
  ∀ (s u : State) (b : Word), u = setBreakpoint b s ∨ u = clearBreakpoint b s →
    u = { s with breakpoints := u.breakpoints } ∧
    (∀ t, cycle s = .next t → cycle u = .next { t with breakpoints := u.breakpoints }) ∧
    (∀ f, cycle s = .fault f → cycle u = .fault f) ∧
    (∀ why, cycle s = .refused why → cycle u = .refused why) ∧
    (∀ t, step s = .next t → step u = .next { t with breakpoints := u.breakpoints }) ∧
    (∀ why, step s = .refused why → step u = .refused why)

/-- read_register and read_memory return the committed register and the bytes of memory.
read_register gives the committed register for ids 0 to 15; read_memory of an aligned 1, 2 or 4
byte value inside memory gives its little-endian value, and outside memory reports
OutOfBoundsAccess. An id above 15, another width and a misaligned address are refused (D29, U16,
U17); the form of the refusal, and that it comes before the bounds are tested, is the model's
choice (log 17, DEDUCED). And with a legal memory system read_memory of a word gives what LD32
of that address loads. (60_exceptions.md R280, R281; 92_eei_decisions.md D29;
93_implementation_defined.md U16, U17; notes/assumptions/17.md) -/
def Obligations.ControllerReadsSeeCommittedState : Prop :=
  (∀ (s : State) (r : Reg), readRegister r.val s = .value (s.readReg r)) ∧
  (∀ (s : State) (id : Nat), 15 < id → readRegister id s = .refused (.noSuchRegister id)) ∧
  (∀ (s : State) (addr n : Nat),
    (n ∈ [1, 2, 4] → addr % n = 0 → addr + n ≤ s.cfg.memSize →
      ∃ v : Word, readMemory addr n s = .value v ∧ v.toNat = leValue (readBytes s.mem addr n)) ∧
    (n ∈ [1, 2, 4] → addr % n = 0 → s.cfg.memSize < addr + n →
      readMemory addr n s = .outOfBounds) ∧
    (n ∉ [1, 2, 4] ∨ addr % n ≠ 0 → readMemory addr n s = .refused (.badMemoryRead addr n))) ∧
  ∀ (s t : State) (ra : Reg) (addr : Word), s.memorySystemOk → addr.toNat % 4 = 0 →
    addr.toNat + 4 ≤ s.cfg.memSize → exec (.ld32 ra addr) s = .next t →
    readMemory addr.toNat 4 s = .value (t.readReg ra)

/-- The state of each stage in a cycle, where two words of R203 could apply by the model's choice
(log 21). The order of the words of R203 is the model's choice (log 21, DEDUCED): Fetch behind a
HALT is idle also under a stall or a redirect, and in a cycle that a fault or a refusal ends no
stage is stalled or squashed. Writeback is busy exactly when MW holds an instruction. When
Memory, Execute or Decode ends the cycle with a fault or a refusal, every stage is idle or busy,
none stalled or squashed. When Memory stalls, Memory, Execute and Decode are stalled where they
have an instruction, and so is Fetch. When Execute redirects, Decode with an instruction and
Fetch are squashed. On a load-use stall Decode and Fetch are stalled and Execute and Memory are
busy. Fetch behind a HALT is idle in every case. (50_pipeline.md R203, R208, R217, R222, R227;
notes/assumptions/21.md) -/
def Obligations.StageStatesFollowTheSignals : Prop :=
  ∀ s : State,
    (stageState s .writeback = .busy ↔ s.mw ≠ none) ∧
    (fetchStop s = true → stageState s .fetch = .idle) ∧
    (∀ stop, stageM s = .error stop →
      ∀ st, stageState s st = .idle ∨ stageState s st = .busy) ∧
    ∀ m, stageM s = .ok m →
      (m.stall = true →
        (s.em ≠ none → stageState s .memory = .stalled) ∧
        (s.de ≠ none → stageState s .execute = .stalled) ∧
        (s.fd ≠ none → stageState s .decode = .stalled) ∧
        (fetchStop s = false → stageState s .fetch = .stalled)) ∧
      (m.stall = false →
        (s.em ≠ none → stageState s .memory = .busy) ∧
        (s.de ≠ none → stageState s .execute = .busy) ∧
        (∀ stop, stageE s m.stored = .error stop →
          ∀ st, stageState s st = .idle ∨ stageState s st = .busy) ∧
        ∀ e, stageE s m.stored = .ok e →
          (e.redirect ≠ none →
            (s.fd ≠ none → stageState s .decode = .squashed) ∧
            (fetchStop s = false → stageState s .fetch = .squashed)) ∧
          (e.redirect = none → ∀ d,
            stageD s (forwardsOf (stageW s) m e) none = .ok d →
            (d.stall = true → s.fd ≠ none ∧ stageState s .decode = .stalled ∧
              (fetchStop s = false → stageState s .fetch = .stalled)) ∧
            (d.stall = false → (s.fd ≠ none → stageState s .decode = .busy) ∧
              (fetchStop s = false → stageState s .fetch = .busy))) ∧
          (e.redirect = none → ∀ stop,
            stageD s (forwardsOf (stageW s) m e) none = .error stop →
            ∀ st, stageState s st = .idle ∨ stageState s st = .busy))

/-- The frame of a cycle: who may write memory, caches and the return-address stack. In every cycle
that answers a next state, stalled, moving or faulting: the configuration and the breakpoint set
are unchanged. Memory and the record of stores change only when EM holds ST32 or STIN32 in its
first Memory cycle, and then, memory being canonical, in no byte but the four at the store's
address. The caches change only when EM holds a load or store in its first Memory cycle, mdata
only when it is a load. The return-address stack changes only when Memory completes without a
stall and DE holds CALL, which pushes its own address plus 4 and overwrites no other entry, or
RET, which pops and keeps every entry. (00_scope.md R14; 10_state.md R31, R34, R35, R45;
50_pipeline.md R206, R207, R214, R215, R227) -/
def Obligations.CycleWritesOnlyWhatAStageWrites : Prop :=
  ∀ s t : State, cycle s = .next t →
    t.cfg = s.cfg ∧ t.breakpoints = s.breakpoints ∧
    (t.mem ≠ s.mem ∨ t.stored ≠ s.stored → ∃ m, s.em = some m ∧ s.mbusy = 0 ∧
      (m.op = .st32 ∨ m.op = .stin32) ∧ t.stored = insertSorted m.res.toNat s.stored ∧
      (Memory.wf s.mem = true → keepsMemoryBut m.res.toNat 4 s t)) ∧
    (t.caches ≠ s.caches → ∃ m, s.em = some m ∧ s.mbusy = 0 ∧
      (m.op = .ld32 ∨ m.op = .ldin32 ∨ m.op = .st32 ∨ m.op = .stin32)) ∧
    (t.mdata ≠ s.mdata → ∃ m, s.em = some m ∧ s.mbusy = 0 ∧ (m.op = .ld32 ∨ m.op = .ldin32)) ∧
    (¬keepsRas s t → ∃ m l, stageM s = .ok m ∧ m.stall = false ∧ s.de = some l ∧
      ((l.op = .call ∧ s.sp ≠ s.cfg.stackDepth ∧ t.ras = s.ras.set s.sp (l.pc + 4) ∧
          t.sp = s.sp + 1) ∨
       (l.op = .ret ∧ s.sp ≠ 0 ∧ t.ras = s.ras ∧ t.sp = s.sp - 1)))
end

