-- ==== Sys2Proof/Laws/Decode.lean ====
section
/-! SUPPORT. The encoder's formats read back field by field (R91 to R95), and the opcode map in both
directions (R100). -/

namespace Sys2Proof

/-! ### The opcode map -/

@[simp] theorem Opcode.ofByte_byte (op : Opcode) : Opcode.ofByte op.byte = some op := by
  cases op <;> rfl

theorem Opcode.byte_injective (a b : Opcode) (h : a.byte = b.byte) : a = b := by
  have := congrArg Opcode.ofByte h
  simpa using this

theorem Opcode.byte_of_ofByte (b : Byte) (op : Opcode) (h : Opcode.ofByte b = some op) :
    b = op.byte := by
  have key : ∀ b : Byte, ∀ op, Opcode.ofByte b = some op → b = op.byte := by decide +revert
  exact key b op h

/-! ### Format R -/

theorem encodeR_toNat (op : Opcode) (ra rb rc : Reg) :
    (encodeR op ra rb rc).toNat =
      op.byte.toNat * 16777216 + ra.val * 1048576 + rb.val * 65536 + rc.val * 4096 := by
  have h0 := op.byte.isLt
  simp only [encodeR, BitVec.toNat_ofNat]
  omega

@[simp] theorem opField_encodeR (op : Opcode) (ra rb rc : Reg) :
    opField (encodeR op ra rb rc) = op.byte := by
  apply BitVec.eq_of_toNat_eq
  have h0 := op.byte.isLt
  simp only [opField, encodeR_toNat, BitVec.toNat_ofNat]
  omega

@[simp] theorem raField_encodeR (op : Opcode) (ra rb rc : Reg) :
    raField (encodeR op ra rb rc) = ra := by
  apply Fin.ext
  simp only [raField, encodeR_toNat]
  omega

@[simp] theorem rbField_encodeR (op : Opcode) (ra rb rc : Reg) :
    rbField (encodeR op ra rb rc) = rb := by
  apply Fin.ext
  simp only [rbField, encodeR_toNat]
  omega

@[simp] theorem rcField_encodeR (op : Opcode) (ra rb rc : Reg) :
    rcField (encodeR op ra rb rc) = rc := by
  apply Fin.ext
  simp only [rcField, encodeR_toNat]
  omega

/-! ### Format I -/

theorem encodeI_toNat (op : Opcode) (ra : Reg) (imm : Word) :
    (encodeI op ra imm).toNat =
      op.byte.toNat * 16777216 + ra.val * 1048576 + imm.toNat % 1048576 := by
  have h0 := op.byte.isLt
  simp only [encodeI, BitVec.toNat_ofNat]
  omega

@[simp] theorem opField_encodeI (op : Opcode) (ra : Reg) (imm : Word) :
    opField (encodeI op ra imm) = op.byte := by
  apply BitVec.eq_of_toNat_eq
  have h0 := op.byte.isLt
  simp only [opField, encodeI_toNat, BitVec.toNat_ofNat]
  omega

@[simp] theorem raField_encodeI (op : Opcode) (ra : Reg) (imm : Word) :
    raField (encodeI op ra imm) = ra := by
  apply Fin.ext
  simp only [raField, encodeI_toNat]
  omega

@[simp] theorem imm20Field_encodeI (op : Opcode) (ra : Reg) (imm : Word) :
    imm20Field (encodeI op ra imm) = imm.toNat % 1048576 := by
  simp only [imm20Field, encodeI_toNat]
  omega

/-! ### Format J -/

theorem encodeJ_toNat (op : Opcode) (target : Word) :
    (encodeJ op target).toNat = op.byte.toNat * 16777216 + target.toNat / 4 % 16777216 := by
  have h0 := op.byte.isLt
  simp only [encodeJ, BitVec.toNat_ofNat]
  omega

@[simp] theorem opField_encodeJ (op : Opcode) (target : Word) :
    opField (encodeJ op target) = op.byte := by
  apply BitVec.eq_of_toNat_eq
  have h0 := op.byte.isLt
  simp only [opField, encodeJ_toNat, BitVec.toNat_ofNat]
  omega

@[simp] theorem tgt24Field_encodeJ (op : Opcode) (target : Word) :
    tgt24Field (encodeJ op target) = target.toNat / 4 % 16777216 := by
  simp only [tgt24Field, encodeJ_toNat]
  omega

/-! ### Format Z -/

@[simp] theorem opField_encodeZ (op : Opcode) : opField (encodeZ op) = op.byte := by
  apply BitVec.eq_of_toNat_eq
  have h0 := op.byte.isLt
  simp only [opField, encodeZ, BitVec.toNat_ofNat]
  omega

/-! ### Decoding by the opcode field -/

theorem decode_of_opField (w : Word) (op : Opcode) (h : opField w = op.byte) :
    decode w = .ok (buildInstr op w) := by
  simp [decode, h]

/-- A decoded word has an assigned opcode byte and is that row's instruction. -/
theorem decode_ok (w : Word) (i : Instr) (h : decode w = .ok i) :
    ∃ op, opField w = op.byte ∧ i = buildInstr op w := by
  simp only [decode] at h
  split at h
  · rename_i op hop
    injection h with h
    exact ⟨op, Opcode.byte_of_ofByte _ _ hop, h.symm⟩
  · cases h

@[simp] theorem op_buildInstr (op : Opcode) (w : Word) : (buildInstr op w).op = op := by
  cases op <;> rfl

end Sys2Proof
end

