-- ==== Sys2Proof/Laws/Config.lean ====
section
/-! SUPPORT. What a configuration that passes the checks of R8 and R9 satisfies. -/

namespace Sys2Proof

theorem four_dvd_of_isPowerOfTwo (n : Nat) (h : isPowerOfTwo n = true) (h4 : 4 ≤ n) : 4 ∣ n := by
  have hn : 2 ^ n.log2 = n := by simpa [isPowerOfTwo] using h
  have h2 : 2 ≤ n.log2 := by
    by_contra hlt
    have h1 : n.log2 ≤ 1 := by omega
    have : 2 ^ n.log2 ≤ 2 ^ 1 := Nat.pow_le_pow_right (by decide) h1
    omega
  rw [← hn]
  exact pow_dvd_pow 2 h2

/-- What the checks say of one level. -/
structure Level.Ok (lv : Level) : Prop where
  /-- The line size is a power of two (R8). -/
  pow2 : isPowerOfTwo lv.line = true
  /-- The capacity is a multiple of the line size (R8). -/
  multiple : lv.cap % lv.line = 0
  /-- A line holds a word (R9). -/
  word : 4 ≤ lv.line
  /-- There is a line (R9). -/
  hasLine : lv.line ≤ lv.cap

theorem Level.Ok.four_dvd {lv : Level} (h : lv.Ok) : 4 ∣ lv.line :=
  four_dvd_of_isPowerOfTwo _ h.pow2 h.word

theorem Level.Ok.nlines_pos {lv : Level} (h : lv.Ok) : 0 < lv.nlines :=
  Nat.div_pos h.hasLine (by have := h.word; omega)

/-- Everything R8 and R9 ask of a configuration. -/
structure Config.Ok (c : Config) : Prop where
  /-- Each level. -/
  level : ∀ lv ∈ c.levels, lv.Ok
  /-- At least one level (R8). -/
  hasLevel : c.levels ≠ []
  /-- R9. -/
  memMin : 4 ≤ c.memSize
  /-- R9. -/
  memMax : c.memSize ≤ wordModulus
  /-- R9. -/
  memMultiple : ∀ lv ∈ c.levels, c.memSize % lv.line = 0
  /-- R9. -/
  stack : 1 ≤ c.stackDepth
  /-- R9. -/
  entryAligned : c.entry % 4 = 0
  /-- R9. -/
  entryInside : c.entry + 4 ≤ c.memSize
  /-- R9. -/
  baseAligned : c.loadBase % 4 = 0
  /-- R9. -/
  imageInside : c.loadBase + c.image.length ≤ c.memSize

theorem Config.ok_of_wf (c : Config) (h : c.wf = true) : c.Ok := by
  simp only [Config.wf, beq_iff_eq, Config.check] at h
  split_ifs at h with h1 h2 h3 h4 h5 h6 h7 h8 h9 h10
  simp only [Bool.not_eq_true', Bool.not_eq_false, List.all_eq_true, beq_iff_eq, decide_eq_true_eq,
    Bool.and_eq_true] at h1 h2 h4 h5 h6 h7 h9 h10
  refine ⟨fun lv hl => ⟨h1 lv hl, h2 lv hl, h4 lv hl, h5 lv hl⟩, ?_, h6.1, h6.2, h7, ?_, h9.1, h9.2,
    h10.1, h10.2⟩
  · intro he; simp [he] at h3
  · exact Nat.one_le_iff_ne_zero.2 h8

end Sys2Proof
end

