-- ==== Sys2Proof/Laws/State.lean ====
section
/-! SUPPORT. One lemma per field per named update of State, so that no proof unfolds a record update. -/

namespace Sys2Proof.Machine

variable (s : State)

/-! ### `writeReg` -/

@[simp] theorem State.writeReg_cfg (r : Reg) (v : Word) : (s.writeReg r v).cfg = s.cfg := rfl
@[simp] theorem State.writeReg_x (r : Reg) (v : Word) :
    (s.writeReg r v).x = s.x.set r.val v r.isLt := rfl
@[simp] theorem State.writeReg_flags (r : Reg) (v : Word) : (s.writeReg r v).flags = s.flags := rfl
@[simp] theorem State.writeReg_pc (r : Reg) (v : Word) : (s.writeReg r v).pc = s.pc := rfl
@[simp] theorem State.writeReg_ras (r : Reg) (v : Word) : (s.writeReg r v).ras = s.ras := rfl
@[simp] theorem State.writeReg_sp (r : Reg) (v : Word) : (s.writeReg r v).sp = s.sp := rfl
@[simp] theorem State.writeReg_mem (r : Reg) (v : Word) : (s.writeReg r v).mem = s.mem := rfl
@[simp] theorem State.writeReg_caches (r : Reg) (v : Word) :
    (s.writeReg r v).caches = s.caches := rfl
@[simp] theorem State.writeReg_fd (r : Reg) (v : Word) : (s.writeReg r v).fd = s.fd := rfl
@[simp] theorem State.writeReg_de (r : Reg) (v : Word) : (s.writeReg r v).de = s.de := rfl
@[simp] theorem State.writeReg_em (r : Reg) (v : Word) : (s.writeReg r v).em = s.em := rfl
@[simp] theorem State.writeReg_mw (r : Reg) (v : Word) : (s.writeReg r v).mw = s.mw := rfl
@[simp] theorem State.writeReg_mbusy (r : Reg) (v : Word) : (s.writeReg r v).mbusy = s.mbusy := rfl
@[simp] theorem State.writeReg_mdata (r : Reg) (v : Word) : (s.writeReg r v).mdata = s.mdata := rfl
@[simp] theorem State.writeReg_status (r : Reg) (v : Word) :
    (s.writeReg r v).status = s.status := rfl
@[simp] theorem State.writeReg_breakpoints (r : Reg) (v : Word) :
    (s.writeReg r v).breakpoints = s.breakpoints := rfl
@[simp] theorem State.writeReg_stored (r : Reg) (v : Word) :
    (s.writeReg r v).stored = s.stored := rfl

/-! ### `setFlags` -/

@[simp] theorem State.setFlags_cfg (f : Flags) : (s.setFlags f).cfg = s.cfg := rfl
@[simp] theorem State.setFlags_x (f : Flags) : (s.setFlags f).x = s.x := rfl
@[simp] theorem State.setFlags_flags (f : Flags) : (s.setFlags f).flags = f := rfl
@[simp] theorem State.setFlags_pc (f : Flags) : (s.setFlags f).pc = s.pc := rfl
@[simp] theorem State.setFlags_ras (f : Flags) : (s.setFlags f).ras = s.ras := rfl
@[simp] theorem State.setFlags_sp (f : Flags) : (s.setFlags f).sp = s.sp := rfl
@[simp] theorem State.setFlags_mem (f : Flags) : (s.setFlags f).mem = s.mem := rfl
@[simp] theorem State.setFlags_caches (f : Flags) : (s.setFlags f).caches = s.caches := rfl
@[simp] theorem State.setFlags_fd (f : Flags) : (s.setFlags f).fd = s.fd := rfl
@[simp] theorem State.setFlags_de (f : Flags) : (s.setFlags f).de = s.de := rfl
@[simp] theorem State.setFlags_em (f : Flags) : (s.setFlags f).em = s.em := rfl
@[simp] theorem State.setFlags_mw (f : Flags) : (s.setFlags f).mw = s.mw := rfl
@[simp] theorem State.setFlags_mbusy (f : Flags) : (s.setFlags f).mbusy = s.mbusy := rfl
@[simp] theorem State.setFlags_mdata (f : Flags) : (s.setFlags f).mdata = s.mdata := rfl
@[simp] theorem State.setFlags_status (f : Flags) : (s.setFlags f).status = s.status := rfl
@[simp] theorem State.setFlags_breakpoints (f : Flags) :
    (s.setFlags f).breakpoints = s.breakpoints := rfl
@[simp] theorem State.setFlags_stored (f : Flags) : (s.setFlags f).stored = s.stored := rfl

/-! ### `setPc` -/

@[simp] theorem State.setPc_cfg (t : Word) : (s.setPc t).cfg = s.cfg := rfl
@[simp] theorem State.setPc_x (t : Word) : (s.setPc t).x = s.x := rfl
@[simp] theorem State.setPc_flags (t : Word) : (s.setPc t).flags = s.flags := rfl
@[simp] theorem State.setPc_pc (t : Word) : (s.setPc t).pc = t := rfl
@[simp] theorem State.setPc_ras (t : Word) : (s.setPc t).ras = s.ras := rfl
@[simp] theorem State.setPc_sp (t : Word) : (s.setPc t).sp = s.sp := rfl
@[simp] theorem State.setPc_mem (t : Word) : (s.setPc t).mem = s.mem := rfl
@[simp] theorem State.setPc_caches (t : Word) : (s.setPc t).caches = s.caches := rfl
@[simp] theorem State.setPc_fd (t : Word) : (s.setPc t).fd = s.fd := rfl
@[simp] theorem State.setPc_de (t : Word) : (s.setPc t).de = s.de := rfl
@[simp] theorem State.setPc_em (t : Word) : (s.setPc t).em = s.em := rfl
@[simp] theorem State.setPc_mw (t : Word) : (s.setPc t).mw = s.mw := rfl
@[simp] theorem State.setPc_mbusy (t : Word) : (s.setPc t).mbusy = s.mbusy := rfl
@[simp] theorem State.setPc_mdata (t : Word) : (s.setPc t).mdata = s.mdata := rfl
@[simp] theorem State.setPc_status (t : Word) : (s.setPc t).status = s.status := rfl
@[simp] theorem State.setPc_breakpoints (t : Word) : (s.setPc t).breakpoints = s.breakpoints := rfl
@[simp] theorem State.setPc_stored (t : Word) : (s.setPc t).stored = s.stored := rfl

/-! ### `advance` -/

@[simp] theorem State.advance_cfg : (s.advance).cfg = s.cfg := rfl
@[simp] theorem State.advance_x : (s.advance).x = s.x := rfl
@[simp] theorem State.advance_flags : (s.advance).flags = s.flags := rfl
@[simp] theorem State.advance_pc : (s.advance).pc = nextWordAddress s.pc := rfl
@[simp] theorem State.advance_ras : (s.advance).ras = s.ras := rfl
@[simp] theorem State.advance_sp : (s.advance).sp = s.sp := rfl
@[simp] theorem State.advance_mem : (s.advance).mem = s.mem := rfl
@[simp] theorem State.advance_caches : (s.advance).caches = s.caches := rfl
@[simp] theorem State.advance_fd : (s.advance).fd = s.fd := rfl
@[simp] theorem State.advance_de : (s.advance).de = s.de := rfl
@[simp] theorem State.advance_em : (s.advance).em = s.em := rfl
@[simp] theorem State.advance_mw : (s.advance).mw = s.mw := rfl
@[simp] theorem State.advance_mbusy : (s.advance).mbusy = s.mbusy := rfl
@[simp] theorem State.advance_mdata : (s.advance).mdata = s.mdata := rfl
@[simp] theorem State.advance_status : (s.advance).status = s.status := rfl
@[simp] theorem State.advance_breakpoints : (s.advance).breakpoints = s.breakpoints := rfl
@[simp] theorem State.advance_stored : (s.advance).stored = s.stored := rfl

/-! ### `pushRas` -/

@[simp] theorem State.pushRas_cfg (v : Word) : (s.pushRas v).cfg = s.cfg := rfl
@[simp] theorem State.pushRas_x (v : Word) : (s.pushRas v).x = s.x := rfl
@[simp] theorem State.pushRas_flags (v : Word) : (s.pushRas v).flags = s.flags := rfl
@[simp] theorem State.pushRas_pc (v : Word) : (s.pushRas v).pc = s.pc := rfl
@[simp] theorem State.pushRas_ras (v : Word) : (s.pushRas v).ras = s.ras.set s.sp v := rfl
@[simp] theorem State.pushRas_sp (v : Word) : (s.pushRas v).sp = s.sp + 1 := rfl
@[simp] theorem State.pushRas_mem (v : Word) : (s.pushRas v).mem = s.mem := rfl
@[simp] theorem State.pushRas_caches (v : Word) : (s.pushRas v).caches = s.caches := rfl
@[simp] theorem State.pushRas_fd (v : Word) : (s.pushRas v).fd = s.fd := rfl
@[simp] theorem State.pushRas_de (v : Word) : (s.pushRas v).de = s.de := rfl
@[simp] theorem State.pushRas_em (v : Word) : (s.pushRas v).em = s.em := rfl
@[simp] theorem State.pushRas_mw (v : Word) : (s.pushRas v).mw = s.mw := rfl
@[simp] theorem State.pushRas_mbusy (v : Word) : (s.pushRas v).mbusy = s.mbusy := rfl
@[simp] theorem State.pushRas_mdata (v : Word) : (s.pushRas v).mdata = s.mdata := rfl
@[simp] theorem State.pushRas_status (v : Word) : (s.pushRas v).status = s.status := rfl
@[simp] theorem State.pushRas_breakpoints (v : Word) :
    (s.pushRas v).breakpoints = s.breakpoints := rfl
@[simp] theorem State.pushRas_stored (v : Word) : (s.pushRas v).stored = s.stored := rfl

/-! ### `popRas` -/

@[simp] theorem State.popRas_cfg : (s.popRas).cfg = s.cfg := rfl
@[simp] theorem State.popRas_x : (s.popRas).x = s.x := rfl
@[simp] theorem State.popRas_flags : (s.popRas).flags = s.flags := rfl
@[simp] theorem State.popRas_pc : (s.popRas).pc = s.pc := rfl
@[simp] theorem State.popRas_ras : (s.popRas).ras = s.ras := rfl
@[simp] theorem State.popRas_sp : (s.popRas).sp = s.sp - 1 := rfl
@[simp] theorem State.popRas_mem : (s.popRas).mem = s.mem := rfl
@[simp] theorem State.popRas_caches : (s.popRas).caches = s.caches := rfl
@[simp] theorem State.popRas_fd : (s.popRas).fd = s.fd := rfl
@[simp] theorem State.popRas_de : (s.popRas).de = s.de := rfl
@[simp] theorem State.popRas_em : (s.popRas).em = s.em := rfl
@[simp] theorem State.popRas_mw : (s.popRas).mw = s.mw := rfl
@[simp] theorem State.popRas_mbusy : (s.popRas).mbusy = s.mbusy := rfl
@[simp] theorem State.popRas_mdata : (s.popRas).mdata = s.mdata := rfl
@[simp] theorem State.popRas_status : (s.popRas).status = s.status := rfl
@[simp] theorem State.popRas_breakpoints : (s.popRas).breakpoints = s.breakpoints := rfl
@[simp] theorem State.popRas_stored : (s.popRas).stored = s.stored := rfl

/-! ### `afterRead` -/

@[simp] theorem State.afterRead_cfg (r : ReadResult) : (s.afterRead r).cfg = s.cfg := rfl
@[simp] theorem State.afterRead_x (r : ReadResult) : (s.afterRead r).x = s.x := rfl
@[simp] theorem State.afterRead_flags (r : ReadResult) : (s.afterRead r).flags = s.flags := rfl
@[simp] theorem State.afterRead_pc (r : ReadResult) : (s.afterRead r).pc = s.pc := rfl
@[simp] theorem State.afterRead_ras (r : ReadResult) : (s.afterRead r).ras = s.ras := rfl
@[simp] theorem State.afterRead_sp (r : ReadResult) : (s.afterRead r).sp = s.sp := rfl
@[simp] theorem State.afterRead_mem (r : ReadResult) : (s.afterRead r).mem = s.mem := rfl
@[simp] theorem State.afterRead_caches (r : ReadResult) : (s.afterRead r).caches = r.caches := rfl
@[simp] theorem State.afterRead_fd (r : ReadResult) : (s.afterRead r).fd = s.fd := rfl
@[simp] theorem State.afterRead_de (r : ReadResult) : (s.afterRead r).de = s.de := rfl
@[simp] theorem State.afterRead_em (r : ReadResult) : (s.afterRead r).em = s.em := rfl
@[simp] theorem State.afterRead_mw (r : ReadResult) : (s.afterRead r).mw = s.mw := rfl
@[simp] theorem State.afterRead_mbusy (r : ReadResult) : (s.afterRead r).mbusy = s.mbusy := rfl
@[simp] theorem State.afterRead_mdata (r : ReadResult) : (s.afterRead r).mdata = s.mdata := rfl
@[simp] theorem State.afterRead_status (r : ReadResult) : (s.afterRead r).status = s.status := rfl
@[simp] theorem State.afterRead_breakpoints (r : ReadResult) :
    (s.afterRead r).breakpoints = s.breakpoints := rfl
@[simp] theorem State.afterRead_stored (r : ReadResult) : (s.afterRead r).stored = s.stored := rfl

/-! ### `afterWrite` -/

@[simp] theorem State.afterWrite_cfg (ea : Word) (r : WriteResult) :
    (s.afterWrite ea r).cfg = s.cfg := rfl
@[simp] theorem State.afterWrite_x (ea : Word) (r : WriteResult) :
    (s.afterWrite ea r).x = s.x := rfl
@[simp] theorem State.afterWrite_flags (ea : Word) (r : WriteResult) :
    (s.afterWrite ea r).flags = s.flags := rfl
@[simp] theorem State.afterWrite_pc (ea : Word) (r : WriteResult) :
    (s.afterWrite ea r).pc = s.pc := rfl
@[simp] theorem State.afterWrite_ras (ea : Word) (r : WriteResult) :
    (s.afterWrite ea r).ras = s.ras := rfl
@[simp] theorem State.afterWrite_sp (ea : Word) (r : WriteResult) :
    (s.afterWrite ea r).sp = s.sp := rfl
@[simp] theorem State.afterWrite_mem (ea : Word) (r : WriteResult) :
    (s.afterWrite ea r).mem = r.mem := rfl
@[simp] theorem State.afterWrite_caches (ea : Word) (r : WriteResult) :
    (s.afterWrite ea r).caches = r.caches := rfl
@[simp] theorem State.afterWrite_fd (ea : Word) (r : WriteResult) :
    (s.afterWrite ea r).fd = s.fd := rfl
@[simp] theorem State.afterWrite_de (ea : Word) (r : WriteResult) :
    (s.afterWrite ea r).de = s.de := rfl
@[simp] theorem State.afterWrite_em (ea : Word) (r : WriteResult) :
    (s.afterWrite ea r).em = s.em := rfl
@[simp] theorem State.afterWrite_mw (ea : Word) (r : WriteResult) :
    (s.afterWrite ea r).mw = s.mw := rfl
@[simp] theorem State.afterWrite_mbusy (ea : Word) (r : WriteResult) :
    (s.afterWrite ea r).mbusy = s.mbusy := rfl
@[simp] theorem State.afterWrite_mdata (ea : Word) (r : WriteResult) :
    (s.afterWrite ea r).mdata = s.mdata := rfl
@[simp] theorem State.afterWrite_status (ea : Word) (r : WriteResult) :
    (s.afterWrite ea r).status = s.status := rfl
@[simp] theorem State.afterWrite_breakpoints (ea : Word) (r : WriteResult) :
    (s.afterWrite ea r).breakpoints = s.breakpoints := rfl
@[simp] theorem State.afterWrite_stored (ea : Word) (r : WriteResult) :
    (s.afterWrite ea r).stored = insertSorted ea.toNat s.stored := rfl

/-! ### `raise` -/

@[simp] theorem State.raise_cfg (k : FaultKind) (a : Word) (i : Option Word) :
    (s.raise k a i).cfg = s.cfg := rfl
@[simp] theorem State.raise_x (k : FaultKind) (a : Word) (i : Option Word) :
    (s.raise k a i).x = s.x := rfl
@[simp] theorem State.raise_flags (k : FaultKind) (a : Word) (i : Option Word) :
    (s.raise k a i).flags = s.flags := rfl
@[simp] theorem State.raise_pc (k : FaultKind) (a : Word) (i : Option Word) :
    (s.raise k a i).pc = s.pc := rfl
@[simp] theorem State.raise_ras (k : FaultKind) (a : Word) (i : Option Word) :
    (s.raise k a i).ras = s.ras := rfl
@[simp] theorem State.raise_sp (k : FaultKind) (a : Word) (i : Option Word) :
    (s.raise k a i).sp = s.sp := rfl
@[simp] theorem State.raise_mem (k : FaultKind) (a : Word) (i : Option Word) :
    (s.raise k a i).mem = s.mem := rfl
@[simp] theorem State.raise_caches (k : FaultKind) (a : Word) (i : Option Word) :
    (s.raise k a i).caches = s.caches := rfl
@[simp] theorem State.raise_fd (k : FaultKind) (a : Word) (i : Option Word) :
    (s.raise k a i).fd = s.fd := rfl
@[simp] theorem State.raise_de (k : FaultKind) (a : Word) (i : Option Word) :
    (s.raise k a i).de = s.de := rfl
@[simp] theorem State.raise_em (k : FaultKind) (a : Word) (i : Option Word) :
    (s.raise k a i).em = s.em := rfl
@[simp] theorem State.raise_mw (k : FaultKind) (a : Word) (i : Option Word) :
    (s.raise k a i).mw = s.mw := rfl
@[simp] theorem State.raise_mbusy (k : FaultKind) (a : Word) (i : Option Word) :
    (s.raise k a i).mbusy = s.mbusy := rfl
@[simp] theorem State.raise_mdata (k : FaultKind) (a : Word) (i : Option Word) :
    (s.raise k a i).mdata = s.mdata := rfl
@[simp] theorem State.raise_status (k : FaultKind) (a : Word) (i : Option Word) :
    (s.raise k a i).status = .faulted { kind := k, faultPc := a, info := i } := rfl
@[simp] theorem State.raise_breakpoints (k : FaultKind) (a : Word) (i : Option Word) :
    (s.raise k a i).breakpoints = s.breakpoints := rfl
@[simp] theorem State.raise_stored (k : FaultKind) (a : Word) (i : Option Word) :
    (s.raise k a i).stored = s.stored := rfl

/-! ### `halt` -/

@[simp] theorem State.halt_cfg : (s.halt).cfg = s.cfg := rfl
@[simp] theorem State.halt_x : (s.halt).x = s.x := rfl
@[simp] theorem State.halt_flags : (s.halt).flags = s.flags := rfl
@[simp] theorem State.halt_pc : (s.halt).pc = s.pc := rfl
@[simp] theorem State.halt_ras : (s.halt).ras = s.ras := rfl
@[simp] theorem State.halt_sp : (s.halt).sp = s.sp := rfl
@[simp] theorem State.halt_mem : (s.halt).mem = s.mem := rfl
@[simp] theorem State.halt_caches : (s.halt).caches = s.caches := rfl
@[simp] theorem State.halt_fd : (s.halt).fd = s.fd := rfl
@[simp] theorem State.halt_de : (s.halt).de = s.de := rfl
@[simp] theorem State.halt_em : (s.halt).em = s.em := rfl
@[simp] theorem State.halt_mw : (s.halt).mw = s.mw := rfl
@[simp] theorem State.halt_mbusy : (s.halt).mbusy = s.mbusy := rfl
@[simp] theorem State.halt_mdata : (s.halt).mdata = s.mdata := rfl
@[simp] theorem State.halt_status : (s.halt).status = .halted := rfl
@[simp] theorem State.halt_breakpoints : (s.halt).breakpoints = s.breakpoints := rfl
@[simp] theorem State.halt_stored : (s.halt).stored = s.stored := rfl

/-! ### `placeWord` -/

@[simp] theorem State.placeWord_cfg (w : Word) : (s.placeWord w).cfg = s.cfg := rfl
@[simp] theorem State.placeWord_x (w : Word) : (s.placeWord w).x = s.x := rfl
@[simp] theorem State.placeWord_flags (w : Word) : (s.placeWord w).flags = s.flags := rfl
@[simp] theorem State.placeWord_pc (w : Word) : (s.placeWord w).pc = s.pc := rfl
@[simp] theorem State.placeWord_ras (w : Word) : (s.placeWord w).ras = s.ras := rfl
@[simp] theorem State.placeWord_sp (w : Word) : (s.placeWord w).sp = s.sp := rfl
@[simp] theorem State.placeWord_mem (w : Word) :
    (s.placeWord w).mem = writeBytes s.mem s.pc.toNat (wordBytes w) := rfl
@[simp] theorem State.placeWord_caches (w : Word) : (s.placeWord w).caches = s.caches := rfl
@[simp] theorem State.placeWord_fd (w : Word) : (s.placeWord w).fd = s.fd := rfl
@[simp] theorem State.placeWord_de (w : Word) : (s.placeWord w).de = s.de := rfl
@[simp] theorem State.placeWord_em (w : Word) : (s.placeWord w).em = s.em := rfl
@[simp] theorem State.placeWord_mw (w : Word) : (s.placeWord w).mw = s.mw := rfl
@[simp] theorem State.placeWord_mbusy (w : Word) : (s.placeWord w).mbusy = s.mbusy := rfl
@[simp] theorem State.placeWord_mdata (w : Word) : (s.placeWord w).mdata = s.mdata := rfl
@[simp] theorem State.placeWord_status (w : Word) : (s.placeWord w).status = s.status := rfl
@[simp] theorem State.placeWord_breakpoints (w : Word) :
    (s.placeWord w).breakpoints = s.breakpoints := rfl
@[simp] theorem State.placeWord_stored (w : Word) :
    (s.placeWord w).stored = s.stored.filter fun a => !(a < s.pc.toNat + 4 && s.pc.toNat < a + 4) := rfl

/-! ### `afterW` -/

@[simp] theorem State.afterW_cfg (w : WritebackOut) : (s.afterW w).cfg = s.cfg := rfl
@[simp] theorem State.afterW_x (w : WritebackOut) : (s.afterW w).x = w.x := rfl
@[simp] theorem State.afterW_flags (w : WritebackOut) : (s.afterW w).flags = w.flags := rfl
@[simp] theorem State.afterW_pc (w : WritebackOut) : (s.afterW w).pc = s.pc := rfl
@[simp] theorem State.afterW_ras (w : WritebackOut) : (s.afterW w).ras = s.ras := rfl
@[simp] theorem State.afterW_sp (w : WritebackOut) : (s.afterW w).sp = s.sp := rfl
@[simp] theorem State.afterW_mem (w : WritebackOut) : (s.afterW w).mem = s.mem := rfl
@[simp] theorem State.afterW_caches (w : WritebackOut) : (s.afterW w).caches = s.caches := rfl
@[simp] theorem State.afterW_fd (w : WritebackOut) : (s.afterW w).fd = s.fd := rfl
@[simp] theorem State.afterW_de (w : WritebackOut) : (s.afterW w).de = s.de := rfl
@[simp] theorem State.afterW_em (w : WritebackOut) : (s.afterW w).em = s.em := rfl
@[simp] theorem State.afterW_mw (w : WritebackOut) : (s.afterW w).mw = s.mw := rfl
@[simp] theorem State.afterW_mbusy (w : WritebackOut) : (s.afterW w).mbusy = s.mbusy := rfl
@[simp] theorem State.afterW_mdata (w : WritebackOut) : (s.afterW w).mdata = s.mdata := rfl
@[simp] theorem State.afterW_status (w : WritebackOut) : (s.afterW w).status = s.status := rfl
@[simp] theorem State.afterW_breakpoints (w : WritebackOut) :
    (s.afterW w).breakpoints = s.breakpoints := rfl
@[simp] theorem State.afterW_stored (w : WritebackOut) : (s.afterW w).stored = s.stored := rfl

/-! ### `afterM` -/

@[simp] theorem State.afterM_cfg (m : MemoryOut) : (s.afterM m).cfg = s.cfg := rfl
@[simp] theorem State.afterM_x (m : MemoryOut) : (s.afterM m).x = s.x := rfl
@[simp] theorem State.afterM_flags (m : MemoryOut) : (s.afterM m).flags = s.flags := rfl
@[simp] theorem State.afterM_pc (m : MemoryOut) : (s.afterM m).pc = s.pc := rfl
@[simp] theorem State.afterM_ras (m : MemoryOut) : (s.afterM m).ras = s.ras := rfl
@[simp] theorem State.afterM_sp (m : MemoryOut) : (s.afterM m).sp = s.sp := rfl
@[simp] theorem State.afterM_mem (m : MemoryOut) : (s.afterM m).mem = m.mem := rfl
@[simp] theorem State.afterM_caches (m : MemoryOut) : (s.afterM m).caches = m.caches := rfl
@[simp] theorem State.afterM_fd (m : MemoryOut) : (s.afterM m).fd = s.fd := rfl
@[simp] theorem State.afterM_de (m : MemoryOut) : (s.afterM m).de = s.de := rfl
@[simp] theorem State.afterM_em (m : MemoryOut) : (s.afterM m).em = s.em := rfl
@[simp] theorem State.afterM_mw (m : MemoryOut) : (s.afterM m).mw = s.mw := rfl
@[simp] theorem State.afterM_mbusy (m : MemoryOut) : (s.afterM m).mbusy = s.mbusy := rfl
@[simp] theorem State.afterM_mdata (m : MemoryOut) : (s.afterM m).mdata = s.mdata := rfl
@[simp] theorem State.afterM_status (m : MemoryOut) : (s.afterM m).status = s.status := rfl
@[simp] theorem State.afterM_breakpoints (m : MemoryOut) :
    (s.afterM m).breakpoints = s.breakpoints := rfl
@[simp] theorem State.afterM_stored (m : MemoryOut) : (s.afterM m).stored = m.stored := rfl

/-! ### `afterE` -/

@[simp] theorem State.afterE_cfg (e : ExecuteOut) : (s.afterE e).cfg = s.cfg := rfl
@[simp] theorem State.afterE_x (e : ExecuteOut) : (s.afterE e).x = s.x := rfl
@[simp] theorem State.afterE_flags (e : ExecuteOut) : (s.afterE e).flags = s.flags := rfl
@[simp] theorem State.afterE_pc (e : ExecuteOut) : (s.afterE e).pc = s.pc := rfl
@[simp] theorem State.afterE_ras (e : ExecuteOut) : (s.afterE e).ras = e.ras := rfl
@[simp] theorem State.afterE_sp (e : ExecuteOut) : (s.afterE e).sp = e.sp := rfl
@[simp] theorem State.afterE_mem (e : ExecuteOut) : (s.afterE e).mem = s.mem := rfl
@[simp] theorem State.afterE_caches (e : ExecuteOut) : (s.afterE e).caches = s.caches := rfl
@[simp] theorem State.afterE_fd (e : ExecuteOut) : (s.afterE e).fd = s.fd := rfl
@[simp] theorem State.afterE_de (e : ExecuteOut) : (s.afterE e).de = s.de := rfl
@[simp] theorem State.afterE_em (e : ExecuteOut) : (s.afterE e).em = s.em := rfl
@[simp] theorem State.afterE_mw (e : ExecuteOut) : (s.afterE e).mw = s.mw := rfl
@[simp] theorem State.afterE_mbusy (e : ExecuteOut) : (s.afterE e).mbusy = s.mbusy := rfl
@[simp] theorem State.afterE_mdata (e : ExecuteOut) : (s.afterE e).mdata = s.mdata := rfl
@[simp] theorem State.afterE_status (e : ExecuteOut) : (s.afterE e).status = s.status := rfl
@[simp] theorem State.afterE_breakpoints (e : ExecuteOut) :
    (s.afterE e).breakpoints = s.breakpoints := rfl
@[simp] theorem State.afterE_stored (e : ExecuteOut) : (s.afterE e).stored = s.stored := rfl

/-! ### `endStalled` -/

@[simp] theorem State.endStalled_cfg (w : WritebackOut) (m : MemoryOut) :
    (s.endStalled w m).cfg = s.cfg := rfl
@[simp] theorem State.endStalled_x (w : WritebackOut) (m : MemoryOut) :
    (s.endStalled w m).x = s.x := rfl
@[simp] theorem State.endStalled_flags (w : WritebackOut) (m : MemoryOut) :
    (s.endStalled w m).flags = s.flags := rfl
@[simp] theorem State.endStalled_pc (w : WritebackOut) (m : MemoryOut) :
    (s.endStalled w m).pc = s.pc := rfl
@[simp] theorem State.endStalled_ras (w : WritebackOut) (m : MemoryOut) :
    (s.endStalled w m).ras = s.ras := rfl
@[simp] theorem State.endStalled_sp (w : WritebackOut) (m : MemoryOut) :
    (s.endStalled w m).sp = s.sp := rfl
@[simp] theorem State.endStalled_mem (w : WritebackOut) (m : MemoryOut) :
    (s.endStalled w m).mem = s.mem := rfl
@[simp] theorem State.endStalled_caches (w : WritebackOut) (m : MemoryOut) :
    (s.endStalled w m).caches = s.caches := rfl
@[simp] theorem State.endStalled_fd (w : WritebackOut) (m : MemoryOut) :
    (s.endStalled w m).fd = s.fd := rfl
@[simp] theorem State.endStalled_de (w : WritebackOut) (m : MemoryOut) :
    (s.endStalled w m).de = s.de := rfl
@[simp] theorem State.endStalled_em (w : WritebackOut) (m : MemoryOut) :
    (s.endStalled w m).em = s.em := rfl
@[simp] theorem State.endStalled_mw (w : WritebackOut) (m : MemoryOut) :
    (s.endStalled w m).mw = m.mw := rfl
@[simp] theorem State.endStalled_mbusy (w : WritebackOut) (m : MemoryOut) :
    (s.endStalled w m).mbusy = m.mbusy := rfl
@[simp] theorem State.endStalled_mdata (w : WritebackOut) (m : MemoryOut) :
    (s.endStalled w m).mdata = m.mdata := rfl
@[simp] theorem State.endStalled_status (w : WritebackOut) (m : MemoryOut) :
    (s.endStalled w m).status = endStatus w.halted := rfl
@[simp] theorem State.endStalled_breakpoints (w : WritebackOut) (m : MemoryOut) :
    (s.endStalled w m).breakpoints = s.breakpoints := rfl
@[simp] theorem State.endStalled_stored (w : WritebackOut) (m : MemoryOut) :
    (s.endStalled w m).stored = s.stored := rfl

/-! ### `endMoved` -/

@[simp] theorem State.endMoved_cfg (w : WritebackOut) (m : MemoryOut) (e : ExecuteOut) (d : DecodeOut) (f : FetchOut) :
    (s.endMoved w m e d f).cfg = s.cfg := rfl
@[simp] theorem State.endMoved_x (w : WritebackOut) (m : MemoryOut) (e : ExecuteOut) (d : DecodeOut) (f : FetchOut) :
    (s.endMoved w m e d f).x = s.x := rfl
@[simp] theorem State.endMoved_flags (w : WritebackOut) (m : MemoryOut) (e : ExecuteOut) (d : DecodeOut) (f : FetchOut) :
    (s.endMoved w m e d f).flags = s.flags := rfl
@[simp] theorem State.endMoved_pc (w : WritebackOut) (m : MemoryOut) (e : ExecuteOut) (d : DecodeOut) (f : FetchOut) :
    (s.endMoved w m e d f).pc = f.pc := rfl
@[simp] theorem State.endMoved_ras (w : WritebackOut) (m : MemoryOut) (e : ExecuteOut) (d : DecodeOut) (f : FetchOut) :
    (s.endMoved w m e d f).ras = s.ras := rfl
@[simp] theorem State.endMoved_sp (w : WritebackOut) (m : MemoryOut) (e : ExecuteOut) (d : DecodeOut) (f : FetchOut) :
    (s.endMoved w m e d f).sp = s.sp := rfl
@[simp] theorem State.endMoved_mem (w : WritebackOut) (m : MemoryOut) (e : ExecuteOut) (d : DecodeOut) (f : FetchOut) :
    (s.endMoved w m e d f).mem = s.mem := rfl
@[simp] theorem State.endMoved_caches (w : WritebackOut) (m : MemoryOut) (e : ExecuteOut) (d : DecodeOut) (f : FetchOut) :
    (s.endMoved w m e d f).caches = s.caches := rfl
@[simp] theorem State.endMoved_fd (w : WritebackOut) (m : MemoryOut) (e : ExecuteOut) (d : DecodeOut) (f : FetchOut) :
    (s.endMoved w m e d f).fd = f.fd := rfl
@[simp] theorem State.endMoved_de (w : WritebackOut) (m : MemoryOut) (e : ExecuteOut) (d : DecodeOut) (f : FetchOut) :
    (s.endMoved w m e d f).de = d.de := rfl
@[simp] theorem State.endMoved_em (w : WritebackOut) (m : MemoryOut) (e : ExecuteOut) (d : DecodeOut) (f : FetchOut) :
    (s.endMoved w m e d f).em = e.em := rfl
@[simp] theorem State.endMoved_mw (w : WritebackOut) (m : MemoryOut) (e : ExecuteOut) (d : DecodeOut) (f : FetchOut) :
    (s.endMoved w m e d f).mw = m.mw := rfl
@[simp] theorem State.endMoved_mbusy (w : WritebackOut) (m : MemoryOut) (e : ExecuteOut) (d : DecodeOut) (f : FetchOut) :
    (s.endMoved w m e d f).mbusy = m.mbusy := rfl
@[simp] theorem State.endMoved_mdata (w : WritebackOut) (m : MemoryOut) (e : ExecuteOut) (d : DecodeOut) (f : FetchOut) :
    (s.endMoved w m e d f).mdata = m.mdata := rfl
@[simp] theorem State.endMoved_status (w : WritebackOut) (m : MemoryOut) (e : ExecuteOut) (d : DecodeOut) (f : FetchOut) :
    (s.endMoved w m e d f).status = endStatus w.halted := rfl
@[simp] theorem State.endMoved_breakpoints (w : WritebackOut) (m : MemoryOut) (e : ExecuteOut) (d : DecodeOut) (f : FetchOut) :
    (s.endMoved w m e d f).breakpoints = s.breakpoints := rfl
@[simp] theorem State.endMoved_stored (w : WritebackOut) (m : MemoryOut) (e : ExecuteOut) (d : DecodeOut) (f : FetchOut) :
    (s.endMoved w m e d f).stored = s.stored := rfl

/-! ### Registers -/

@[simp] theorem State.readReg_writeReg_same (r : Reg) (v : Word) :
    (s.writeReg r v).readReg r = v := by
  simp [State.readReg, State.writeReg]

theorem State.readReg_writeReg_ne (r q : Reg) (v : Word) (h : r ≠ q) :
    (s.writeReg r v).readReg q = s.readReg q := by
  have h' : r.val ≠ q.val := fun e => h (Fin.ext e)
  simp [State.readReg, State.writeReg, h']

/-- A register read after a register write. -/
theorem State.readReg_writeReg (r q : Reg) (v : Word) :
    (s.writeReg r v).readReg q = if r = q then v else s.readReg q := by
  by_cases h : r = q
  · subst h; simp
  · simp [h, State.readReg_writeReg_ne]

@[simp] theorem State.readReg_setFlags (q : Reg) (f : Flags) :
    (s.setFlags f).readReg q = s.readReg q := rfl
@[simp] theorem State.readReg_setPc (q : Reg) (t : Word) :
    (s.setPc t).readReg q = s.readReg q := rfl
@[simp] theorem State.readReg_advance (q : Reg) : (s.advance).readReg q = s.readReg q := rfl
@[simp] theorem State.readReg_pushRas (q : Reg) (v : Word) :
    (s.pushRas v).readReg q = s.readReg q := rfl
@[simp] theorem State.readReg_popRas (q : Reg) : (s.popRas).readReg q = s.readReg q := rfl
@[simp] theorem State.readReg_afterRead (q : Reg) (r : ReadResult) :
    (s.afterRead r).readReg q = s.readReg q := rfl
@[simp] theorem State.readReg_afterWrite (q : Reg) (ea : Word) (r : WriteResult) :
    (s.afterWrite ea r).readReg q = s.readReg q := rfl
@[simp] theorem State.readReg_raise (q : Reg) (k : FaultKind) (a : Word) (i : Option Word) :
    (s.raise k a i).readReg q = s.readReg q := rfl
@[simp] theorem State.readReg_halt (q : Reg) : (s.halt).readReg q = s.readReg q := rfl
@[simp] theorem State.readReg_placeWord (q : Reg) (w : Word) :
    (s.placeWord w).readReg q = s.readReg q := rfl
@[simp] theorem State.readReg_afterM (q : Reg) (m : MemoryOut) :
    (s.afterM m).readReg q = s.readReg q := rfl
@[simp] theorem State.readReg_afterE (q : Reg) (e : ExecuteOut) :
    (s.afterE e).readReg q = s.readReg q := rfl
@[simp] theorem State.readReg_endStalled (q : Reg) (w : WritebackOut) (m : MemoryOut) :
    (s.endStalled w m).readReg q = s.readReg q := rfl
@[simp] theorem State.readReg_endMoved (q : Reg) (w : WritebackOut) (m : MemoryOut) (e : ExecuteOut) (d : DecodeOut) (f : FetchOut) :
    (s.endMoved w m e d f).readReg q = s.readReg q := rfl

end Sys2Proof.Machine
end

