-- ==== Sys2Proof/Laws/Memory.lean ====
section
/-! SUPPORT. The laws of main memory and of the byte order: read after write, canonical form,
little-endian values. -/

namespace Sys2Proof

/-! ### Little-endian values (R53) -/

@[simp] theorem leBytes_length (n v : Nat) : (leBytes n v).length = n := by
  induction n generalizing v with
  | zero => rfl
  | succ n ih => simp [leBytes, ih]

theorem leValue_leBytes (n v : Nat) : leValue (leBytes n v) = v % 256 ^ n := by
  induction n generalizing v with
  | zero => simp [leBytes, leValue, Nat.mod_one]
  | succ n ih =>
    simp only [leBytes, leValue, ih, BitVec.toNat_ofNat]
    rw [show 256 ^ (n + 1) = 256 * 256 ^ n from Nat.pow_succ', Nat.mod_mul]

theorem leValue_lt (bs : List Byte) : leValue bs < 256 ^ bs.length := by
  induction bs with
  | nil => simp [leValue]
  | cons b bs ih =>
    have hb : b.toNat < 256 := b.isLt
    simp only [leValue, List.length_cons, pow_succ]
    omega

theorem leBytes_leValue (bs : List Byte) : leBytes bs.length (leValue bs) = bs := by
  induction bs with
  | nil => rfl
  | cons b bs ih =>
    have hb : b.toNat < 256 := b.isLt
    have h1 : BitVec.ofNat 8 (b.toNat + 256 * leValue bs) = b := by
      apply BitVec.eq_of_toNat_eq
      simp only [BitVec.toNat_ofNat]
      omega
    have h2 : (b.toNat + 256 * leValue bs) / 256 = leValue bs := by omega
    simp only [List.length_cons, leBytes, leValue, h1, h2, ih]

@[simp] theorem wordBytes_length (w : Word) : (wordBytes w).length = 4 := by simp [wordBytes]

/-- The word read back from its own bytes. -/
theorem ofNat_leValue_wordBytes (w : Word) : BitVec.ofNat 32 (leValue (wordBytes w)) = w := by
  apply BitVec.eq_of_toNat_eq
  have := w.isLt
  simp only [wordBytes, leValue_leBytes, BitVec.toNat_ofNat]
  omega

namespace Machine

/-! ### One byte -/

theorem Memory.wf_cons (k : Nat) (v : Byte) (rest : Mem) :
    Memory.wf ((k, v) :: rest) = true ↔
      v ≠ unlistedByte ∧ (∀ c ∈ rest, k < c.1) ∧ Memory.wf rest = true := by
  simp [Memory.wf, and_assoc]

@[simp] theorem readByte_nil (a : Nat) : readByte [] a = unlistedByte := rfl

theorem readByte_unlisted (m : Mem) (a : Nat) (h : ∀ c ∈ m, c.1 ≠ a) :
    readByte m a = unlistedByte := by
  induction m with
  | nil => rfl
  | cons c rest ih =>
    have h1 := h c (by simp)
    simp only [readByte, h1, if_false]
    exact ih fun d hd => h d (by simp [hd])

theorem readByte_writeByte_same (m : Mem) (a : Nat) (b : Byte) (hm : Memory.wf m = true) :
    readByte (writeByte m a b) a = b := by
  induction m with
  | nil => by_cases hb : b = unlistedByte <;> simp [writeByte, readByte, hb]
  | cons c rest ih =>
    obtain ⟨k, v⟩ := c
    obtain ⟨-, hlt, hrest⟩ := (Memory.wf_cons k v rest).1 hm
    simp only [writeByte]
    split_ifs with h1 hb h2 hb
    · rw [hb]
      apply readByte_unlisted
      intro c hc
      rcases List.mem_cons.1 hc with rfl | hc
      · simp only; omega
      · have := hlt c hc; omega
    · simp [readByte]
    · rw [hb]
      apply readByte_unlisted
      intro c hc
      have := hlt c hc
      omega
    · simp [readByte]
    · simp [readByte, h2, ih hrest]

theorem readByte_writeByte_ne (m : Mem) (a a' : Nat) (b : Byte) (hm : Memory.wf m = true)
    (h : a ≠ a') : readByte (writeByte m a b) a' = readByte m a' := by
  induction m with
  | nil => by_cases hb : b = unlistedByte <;> simp [writeByte, readByte, hb, h]
  | cons c rest ih =>
    obtain ⟨k, v⟩ := c
    obtain ⟨-, hlt, hrest⟩ := (Memory.wf_cons k v rest).1 hm
    simp only [writeByte]
    split_ifs with h1 hb h2 hb
    · rfl
    · simp [readByte, h]
    · have hk : k ≠ a' := by omega
      simp [readByte, hk]
    · have hk : k ≠ a' := by omega
      simp [readByte, hk, h]
    · simp [readByte, ih hrest]

theorem mem_writeByte (m : Mem) (a : Nat) (b : Byte) (c : Host.Cell) (h : c ∈ writeByte m a b) :
    c ∈ m ∨ c = (a, b) := by
  induction m with
  | nil =>
    simp only [writeByte] at h
    split_ifs at h with hb
    · simp at h
    · exact .inr (by simpa using h)
  | cons d rest ih =>
    obtain ⟨k, v⟩ := d
    simp only [writeByte] at h
    split_ifs at h with h1 hb h2 hb
    · exact .inl h
    · rcases List.mem_cons.1 h with h | h
      · exact .inr h
      · exact .inl h
    · exact .inl (by simp [h])
    · rcases List.mem_cons.1 h with h | h
      · exact .inr h
      · exact .inl (by simp [h])
    · rcases List.mem_cons.1 h with h | h
      · exact .inl (by simp [h])
      · rcases ih h with h | h
        · exact .inl (by simp [h])
        · exact .inr h

theorem Memory.wf_writeByte (m : Mem) (a : Nat) (b : Byte) (hm : Memory.wf m = true) :
    Memory.wf (writeByte m a b) = true := by
  induction m with
  | nil =>
    by_cases hb : b = unlistedByte <;> simp [writeByte, hb, Memory.wf]
  | cons c rest ih =>
    obtain ⟨k, v⟩ := c
    obtain ⟨hv, hlt, hrest⟩ := (Memory.wf_cons k v rest).1 hm
    simp only [writeByte]
    split_ifs with h1 hb h2 hb
    · exact hm
    · refine (Memory.wf_cons _ _ _).2 ⟨hb, ?_, hm⟩
      intro c hc
      rcases List.mem_cons.1 hc with rfl | hc
      · exact h1
      · have := hlt c hc; omega
    · exact hrest
    · refine (Memory.wf_cons _ _ _).2 ⟨hb, ?_, hrest⟩
      intro c hc
      have := hlt c hc
      omega
    · refine (Memory.wf_cons _ _ _).2 ⟨hv, ?_, ih hrest⟩
      intro c hc
      rcases mem_writeByte rest a b c hc with hc | rfl
      · exact hlt c hc
      · simp only; omega

/-! ### Strings of bytes -/

@[simp] theorem readBytes_length (m : Mem) (a n : Nat) : (readBytes m a n).length = n := by
  induction n generalizing a with
  | zero => rfl
  | succ n ih => simp [readBytes, ih]

theorem readBytes_getElem (m : Mem) (a n i : Nat) (h : i < (readBytes m a n).length) :
    (readBytes m a n)[i] = readByte m (a + i) := by
  induction n generalizing a i with
  | zero => simp [readBytes] at h
  | succ n ih =>
    cases i with
    | zero => simp [readBytes]
    | succ i =>
      simp only [readBytes, List.getElem_cons_succ]
      rw [ih]
      congr 1
      omega

/-- Two memories that agree on `n` bytes give the same string. -/
theorem readBytes_congr (m m' : Mem) (a n : Nat)
    (h : ∀ k, a ≤ k → k < a + n → readByte m k = readByte m' k) :
    readBytes m a n = readBytes m' a n := by
  induction n generalizing a with
  | zero => rfl
  | succ n ih =>
    simp only [readBytes]
    rw [h a (by omega) (by omega), ih (a + 1) fun k h1 h2 => h k (by omega) (by omega)]

/-- A part of a longer string. -/
theorem readBytes_sub (m : Mem) (a n off k : Nat) (h : off + k ≤ n) :
    ((readBytes m a n).drop off).take k = readBytes m (a + off) k := by
  apply List.ext_getElem
  · simp; omega
  · intro i h1 h2
    simp only [List.getElem_take, List.getElem_drop, readBytes_getElem]
    congr 1
    omega

theorem Memory.wf_writeBytes (m : Mem) (a : Nat) (bs : List Byte) (hm : Memory.wf m = true) :
    Memory.wf (writeBytes m a bs) = true := by
  induction bs generalizing m a with
  | nil => exact hm
  | cons b bs ih => exact ih _ _ (Memory.wf_writeByte m a b hm)

theorem mem_writeBytes (m : Mem) (a : Nat) (bs : List Byte) (c : Host.Cell)
    (h : c ∈ writeBytes m a bs) : c ∈ m ∨ (a ≤ c.1 ∧ c.1 < a + bs.length) := by
  induction bs generalizing m a with
  | nil => exact .inl h
  | cons b bs ih =>
    rcases ih _ _ h with h | h
    · rcases mem_writeByte m a b c h with h | rfl
      · exact .inl h
      · exact .inr (by simp)
    · exact .inr (by simp only [List.length_cons]; omega)

theorem readByte_writeBytes_outside (m : Mem) (a : Nat) (bs : List Byte) (a' : Nat)
    (hm : Memory.wf m = true) (h : a' < a ∨ a + bs.length ≤ a') :
    readByte (writeBytes m a bs) a' = readByte m a' := by
  induction bs generalizing m a with
  | nil => rfl
  | cons b bs ih =>
    simp only [List.length_cons] at h
    simp only [writeBytes]
    rw [ih _ _ (Memory.wf_writeByte m a b hm) (by omega),
      readByte_writeByte_ne m a a' b hm (by omega)]

theorem readByte_writeBytes_inside (m : Mem) (a : Nat) (bs : List Byte) (i : Nat)
    (hm : Memory.wf m = true) (h : i < bs.length) :
    readByte (writeBytes m a bs) (a + i) = bs[i] := by
  induction bs generalizing m a i with
  | nil => simp at h
  | cons b bs ih =>
    simp only [writeBytes]
    cases i with
    | zero =>
      rw [readByte_writeBytes_outside _ _ _ _ (Memory.wf_writeByte m a b hm) (by omega)]
      simpa using readByte_writeByte_same m a b hm
    | succ i =>
      have := ih (writeByte m a b) (a + 1) i (Memory.wf_writeByte m a b hm) (by simpa using h)
      rw [show a + (i + 1) = a + 1 + i by omega, this]
      rfl

/-- The bytes just written are read back (R73, for main memory alone). -/
theorem readBytes_writeBytes_same (m : Mem) (a : Nat) (bs : List Byte) (hm : Memory.wf m = true) :
    readBytes (writeBytes m a bs) a bs.length = bs := by
  apply List.ext_getElem (by simp)
  intro i h1 h2
  rw [readBytes_getElem, readByte_writeBytes_inside m a bs i hm h2]

end Machine

end Sys2Proof
end

