-- ==== Sys2Proof/Laws/Cache.lean ====
section
/-! SUPPORT. The laws of the cache hierarchy: geometry (R62), what a read and a write do to a level,
and that both keep the levels' geometry and coherence (R72). -/

namespace Sys2Proof.Machine

/-! ### Geometry (R62) -/

/-- A line's number, from its tag and its index. -/
theorem lineTag_index (lv : Level) (addr : Nat) :
    lineTag lv addr * lv.nlines + lineIndex lv addr = addr / lv.line := by
  simp only [lineTag, lineIndex, ← Nat.div_div_eq_div_mul]
  exact Nat.div_add_mod' _ _

theorem lineBase_eq (lv : Level) (addr : Nat) : lineBase lv addr = addr / lv.line * lv.line := by
  have := Nat.div_add_mod' addr lv.line
  simp only [lineBase, lineOffset]
  omega

theorem lineBase_add_offset (lv : Level) (addr : Nat) :
    lineBase lv addr + lineOffset lv addr = addr := by
  have := Nat.mod_le addr lv.line
  simp only [lineBase, lineOffset]
  omega

theorem lineIndex_lt (lv : Level) (addr : Nat) (h : lv.Ok) : lineIndex lv addr < lv.nlines :=
  Nat.mod_lt _ h.nlines_pos

/-- An aligned access of at most four bytes lies inside one line (R58). -/
theorem lineOffset_add_le (lv : Level) (addr n : Nat) (h : lv.Ok) (hn : n ∣ 4)
    (ha : addr % n = 0) : lineOffset lv addr + n ≤ lv.line := by
  obtain ⟨k, hk⟩ := Dvd.dvd.trans hn h.four_dvd
  have hpos : 0 < lv.line := by have := h.word; omega
  have hlt : addr % lv.line < lv.line := Nat.mod_lt _ hpos
  obtain ⟨q, hq⟩ : n ∣ addr % lv.line :=
    (Nat.dvd_mod_iff ⟨k, hk⟩).2 (Nat.dvd_of_mod_eq_zero ha)
  simp only [lineOffset]
  rw [hq] at hlt ⊢
  rw [hk] at hlt ⊢
  have : q < k := Nat.lt_of_mul_lt_mul_left hlt
  calc n * q + n = n * (q + 1) := by ring
    _ ≤ n * k := Nat.mul_le_mul_left _ this

/-! ### One level -/

theorem hitLine_some (lv : Level) (cache : Cache) (addr : Nat) (ln : Line)
    (h : hitLine lv cache addr = some ln) :
    cache[lineIndex lv addr]? = some ln ∧ ln.valid = true ∧ ln.tag = lineTag lv addr := by
  simp only [hitLine] at h
  split at h
  · split_ifs at h with hv
    simp only [Option.some.injEq] at h
    subst h
    simp only [Bool.and_eq_true, beq_iff_eq] at hv
    exact ⟨by assumption, hv.1, hv.2⟩
  · simp at h

/-- In a coherent level a hit line holds the enclosing line of memory. -/
theorem hitLine_data (m : Mem) (lv : Level) (cache : Cache) (addr : Nat) (ln : Line)
    (hc : levelCoherent m lv cache) (h : hitLine lv cache addr = some ln) :
    ln.data = readBytes m (lineBase lv addr) lv.line := by
  obtain ⟨hln, hv, ht⟩ := hitLine_some lv cache addr ln h
  rw [hc _ _ hln hv, ht, lineTag_index, lineBase_eq]

theorem lineValue_hit (m : Mem) (lv : Level) (cache : Cache) (addr n : Nat) (ln : Line)
    (hc : levelCoherent m lv cache) (h : hitLine lv cache addr = some ln)
    (hn : lineOffset lv addr + n ≤ lv.line) :
    lineValue lv ln addr n = leValue (readBytes m addr n) := by
  rw [lineValue, hitLine_data m lv cache addr ln hc h, readBytes_sub _ _ _ _ _ hn,
    lineBase_add_offset]

theorem levelFits_set (lv : Level) (cache : Cache) (i : Nat) (ln : Line) (h : levelFits lv cache)
    (hd : ln.data.length = lv.line) : levelFits lv (cache.set i ln) := by
  refine ⟨by simpa using h.1, fun l hl => ?_⟩
  rcases List.mem_or_eq_of_mem_set hl with hl | rfl
  · exact h.2 l hl
  · exact hd

theorem fillLevel_fits (m : Mem) (addr : Nat) (lv : Level) (cache : Cache)
    (h : levelFits lv cache) : levelFits lv (fillLevel m addr lv cache) :=
  levelFits_set _ _ _ _ h (by simp)

theorem fillLevel_coherent (m : Mem) (addr : Nat) (lv : Level) (cache : Cache)
    (h : levelCoherent m lv cache) : levelCoherent m lv (fillLevel m addr lv cache) := by
  intro j ln hj hv
  simp only [fillLevel, List.getElem?_set] at hj
  split_ifs at hj with h1 h2
  · subst h1
    simp only [Option.some.injEq] at hj
    subst hj
    simp only [lineTag_index, lineBase_eq]
  · exact h j ln hj hv

theorem overlay_length (data : List Byte) (off : Nat) (bs : List Byte)
    (h : off + bs.length ≤ data.length) : (overlay data off bs).length = data.length := by
  simp only [overlay, List.length_append, List.length_take, List.length_drop]
  omega

theorem writeLevel_fits (addr : Nat) (bs : List Byte) (lv : Level) (cache : Cache)
    (h : levelFits lv cache) (hn : lineOffset lv addr + bs.length ≤ lv.line) :
    levelFits lv (writeLevel addr bs lv cache) := by
  simp only [writeLevel]
  split
  · rename_i ln hln
    have hd := h.2 ln (List.mem_of_getElem? (hitLine_some lv cache addr ln hln).1)
    exact levelFits_set _ _ _ _ h (by simp only; rw [overlay_length _ _ _ (by omega), hd])
  · exact h

/-- A line of memory after a write inside it is the overlay of the old line. -/
theorem readBytes_writeBytes_overlay (m : Mem) (base len off : Nat) (bs : List Byte)
    (hm : Memory.wf m = true) (h : off + bs.length ≤ len) :
    readBytes (writeBytes m (base + off) bs) base len = overlay (readBytes m base len) off bs := by
  apply List.ext_getElem
  · rw [overlay_length _ _ _ (by simpa using h)]; simp
  · intro i h1 h2
    have hi : i < len := by simpa using h1
    rw [readBytes_getElem]
    simp only [overlay, List.append_assoc]
    by_cases ha : i < off
    · rw [List.getElem_append_left (by simp; omega)]
      rw [readByte_writeBytes_outside _ _ _ _ hm (by omega), List.getElem_take, readBytes_getElem]
    · rw [List.getElem_append_right (by simp; omega)]
      by_cases hb : i < off + bs.length
      · have hlen : i - (List.take off (readBytes m base len)).length < bs.length := by simp; omega
        rw [List.getElem_append_left hlen]
        have hidx : i - (List.take off (readBytes m base len)).length = i - off := by simp; omega
        have := readByte_writeBytes_inside m (base + off) bs (i - off) hm (by omega)
        rw [show base + off + (i - off) = base + i by omega] at this
        rw [this]
        congr 1
        exact hidx.symm
      · rw [List.getElem_append_right (by simp; omega)]
        rw [readByte_writeBytes_outside _ _ _ _ hm (by omega), List.getElem_drop, readBytes_getElem]
        congr 1
        simp
        omega

/-- A line other than the written one is unchanged in memory. -/
theorem readBytes_writeBytes_other_line (m : Mem) (k line addr : Nat) (bs : List Byte)
    (hm : Memory.wf m = true) (hn : addr % line + bs.length ≤ line)
    (hk : k ≠ addr / line) :
    readBytes (writeBytes m addr bs) (k * line) line = readBytes m (k * line) line := by
  apply readBytes_congr
  intro a h1 h2
  apply readByte_writeBytes_outside _ _ _ _ hm
  have hdiv := Nat.div_add_mod' addr line
  rcases Nat.lt_or_gt_of_ne hk with hlt | hgt
  · left
    have : (k + 1) * line ≤ addr / line * line := Nat.mul_le_mul_right _ hlt
    rw [Nat.add_mul] at this
    omega
  · right
    have : (addr / line + 1) * line ≤ k * line := Nat.mul_le_mul_right _ hgt
    rw [Nat.add_mul] at this
    omega

theorem hitLine_none_of (lv : Level) (cache : Cache) (addr : Nat) (ln : Line)
    (h : hitLine lv cache addr = none) (hj : cache[lineIndex lv addr]? = some ln)
    (hv : ln.valid = true) : ln.tag ≠ lineTag lv addr := by
  intro ht
  simp [hitLine, hj, hv, ht] at h

/-- Index and tag of a line, from its number. -/
theorem tag_index_of_number (lv : Level) (t j addr : Nat) (hj : j < lv.nlines)
    (h : t * lv.nlines + j = addr / lv.line) : j = lineIndex lv addr ∧ t = lineTag lv addr := by
  have h1 := lineTag_index lv addr
  have h2 : lineIndex lv addr < lv.nlines := Nat.mod_lt _ (by omega)
  have h3 : (t * lv.nlines + j) % lv.nlines = j := by
    rw [Nat.mul_add_mod', Nat.mod_eq_of_lt hj]
  have h4 : (lineTag lv addr * lv.nlines + lineIndex lv addr) % lv.nlines = lineIndex lv addr := by
    rw [Nat.mul_add_mod', Nat.mod_eq_of_lt h2]
  have hidx : j = lineIndex lv addr := by rw [← h3, h, ← h1, h4]
  refine ⟨hidx, ?_⟩
  have hmul : t * lv.nlines = lineTag lv addr * lv.nlines := by omega
  exact Nat.eq_of_mul_eq_mul_right (by omega) hmul

theorem writeLevel_coherent (m : Mem) (addr : Nat) (bs : List Byte) (lv : Level) (cache : Cache)
    (hm : Memory.wf m = true) (hf : levelFits lv cache)
    (h : levelCoherent m lv cache) (hn : lineOffset lv addr + bs.length ≤ lv.line) :
    levelCoherent (writeBytes m addr bs) lv (writeLevel addr bs lv cache) := by
  have other : ∀ j ln, cache[j]? = some ln → ln.valid = true →
      ¬(j = lineIndex lv addr ∧ ln.tag = lineTag lv addr) →
      ln.data =
        readBytes (writeBytes m addr bs) ((ln.tag * lv.nlines + j) * lv.line) lv.line := by
    intro j ln hj hv hne
    have hjlt : j < lv.nlines := by
      rw [← hf.1]; exact (List.getElem?_eq_some_iff.1 hj).1
    rw [readBytes_writeBytes_other_line _ _ _ _ _ hm hn]
    · exact h j ln hj hv
    · intro he
      exact hne (tag_index_of_number lv ln.tag j addr hjlt he)
  intro j ln hj hv
  simp only [writeLevel] at hj
  split at hj
  · rename_i old hold
    obtain ⟨hget, hvalid, htag⟩ := hitLine_some lv cache addr old hold
    rw [List.getElem?_set] at hj
    split_ifs at hj with h1 h2
    · subst h1
      simp only [Option.some.injEq] at hj
      subst hj
      simp only
      rw [htag, lineTag_index, ← lineBase_eq, hitLine_data m lv cache addr old h hold,
        ← readBytes_writeBytes_overlay m (lineBase lv addr) lv.line (lineOffset lv addr) bs hm hn,
        lineBase_add_offset]
    · exact other j ln hj hv (fun e => h1 e.1.symm)
  · rename_i hmiss
    refine other j ln hj hv fun e => ?_
    obtain ⟨rfl, ht⟩ := e
    exact hitLine_none_of lv cache addr ln hmiss hj hv ht

/-! ### The hierarchy -/

/-- A zip of a list with one related to it, entry by entry. -/
theorem forall₂_zipWith {R S : Level → Cache → Prop} (f : Level → Cache → Cache)
    {levels : List Level} {caches : List Cache} (h : List.Forall₂ R levels caches)
    (hf : ∀ lv ∈ levels, ∀ cache, R lv cache → S lv (f lv cache)) :
    List.Forall₂ S levels (List.zipWith f levels caches) := by
  induction h with
  | nil => exact .nil
  | cons hr _ ih =>
    exact .cons (hf _ (by simp) _ hr) (ih fun lv hl => hf lv (by simp [hl]))

theorem forall₂_and {R S : Level → Cache → Prop} {levels : List Level} {caches : List Cache}
    (h1 : List.Forall₂ R levels caches) (h2 : List.Forall₂ S levels caches) :
    List.Forall₂ (fun lv cache => R lv cache ∧ S lv cache) levels caches := by
  induction h1 with
  | nil => exact .nil
  | cons hr _ ih =>
    cases h2 with
    | cons hs ht => exact .cons ⟨hr, hs⟩ (ih ht)

theorem probe_value (m : Mem) (levels : List Level) (caches : List Cache) (addr n : Nat)
    (hok : ∀ lv ∈ levels, lv.Ok) (hn : n ∣ 4) (ha : addr % n = 0)
    (hc : List.Forall₂ (levelCoherent m) levels caches) (v lat : Nat)
    (h : probe levels caches addr n = some (v, lat)) : v = leValue (readBytes m addr n) := by
  induction hc generalizing v lat with
  | nil => simp [probe] at h
  | @cons lv cache levels caches hl _ ih =>
    simp only [probe] at h
    split at h
    · rename_i ln hln
      simp only [Option.some.injEq, Prod.mk.injEq] at h
      rw [← h.1]
      exact lineValue_hit m lv cache addr n ln hl hln
        (lineOffset_add_le lv addr n (hok lv (by simp)) hn ha)
    · split at h
      · rename_i w lat' hp
        simp only [Option.some.injEq, Prod.mk.injEq] at h
        rw [← h.1]
        exact ih (fun l hl => hok l (by simp [hl])) w lat' hp
      · simp at h

/-- `HierRead` returns the value of memory (R72: the caches change latency only). -/
theorem hierRead_value (cfg : Config) (m : Mem) (caches : List Cache) (addr n : Nat)
    (hcfg : cfg.wf = true) (hn : n ∣ 4) (ha : addr % n = 0)
    (hc : List.Forall₂ (levelCoherent m) cfg.levels caches) :
    (hierRead cfg m caches addr n).value = leValue (readBytes m addr n) := by
  simp only [hierRead]
  split
  · rename_i v lat hp
    exact probe_value m cfg.levels caches addr n (Config.ok_of_wf cfg hcfg).level hn ha hc v lat hp
  · rfl

theorem hierRead_fits (cfg : Config) (m : Mem) (caches : List Cache) (addr n : Nat)
    (hf : List.Forall₂ levelFits cfg.levels caches) :
    List.Forall₂ levelFits cfg.levels (hierRead cfg m caches addr n).caches := by
  simp only [hierRead]
  split
  · exact hf
  · exact forall₂_zipWith _ hf fun lv _ cache h => fillLevel_fits m addr lv cache h

theorem hierRead_coherent (cfg : Config) (m : Mem) (caches : List Cache) (addr n : Nat)
    (hc : List.Forall₂ (levelCoherent m) cfg.levels caches) :
    List.Forall₂ (levelCoherent m) cfg.levels (hierRead cfg m caches addr n).caches := by
  simp only [hierRead]
  split
  · exact hc
  · exact forall₂_zipWith _ hc fun lv _ cache h => fillLevel_coherent m addr lv cache h

theorem hierWrite_fits (cfg : Config) (m : Mem) (caches : List Cache) (addr n v : Nat)
    (hcfg : cfg.wf = true) (hn : n ∣ 4) (ha : addr % n = 0)
    (hf : List.Forall₂ levelFits cfg.levels caches) :
    List.Forall₂ levelFits cfg.levels (hierWrite cfg m caches addr n v).caches :=
  forall₂_zipWith _ hf fun lv hl cache h =>
    writeLevel_fits addr (leBytes n v) lv cache h
      (by simpa using lineOffset_add_le lv addr n ((Config.ok_of_wf cfg hcfg).level lv hl) hn ha)

theorem hierWrite_coherent (cfg : Config) (m : Mem) (caches : List Cache) (addr n v : Nat)
    (hcfg : cfg.wf = true) (hn : n ∣ 4) (ha : addr % n = 0) (hm : Memory.wf m = true)
    (hf : List.Forall₂ levelFits cfg.levels caches)
    (hc : List.Forall₂ (levelCoherent m) cfg.levels caches) :
    List.Forall₂ (levelCoherent (hierWrite cfg m caches addr n v).mem) cfg.levels
      (hierWrite cfg m caches addr n v).caches :=
  forall₂_zipWith _ (forall₂_and hf hc) fun lv hl cache h =>
    writeLevel_coherent m addr (leBytes n v) lv cache hm h.1 h.2
      (by simpa using lineOffset_add_le lv addr n ((Config.ok_of_wf cfg hcfg).level lv hl) hn ha)

end Sys2Proof.Machine
end

