-- ==== Sys2Proof/Laws/Exec.lean ====
section
/-! SUPPORT. What the shared operations of the meanings, and exec as a whole, can do: one inversion lemma
each. -/

namespace Sys2Proof.Machine

/-! ### Data accesses -/

/-- A performed read was aligned, in bounds, and is `HierRead`. -/
theorem dataRead_done (s : State) (ea : Word) (r : ReadResult) (h : dataRead s ea = .done r) :
    ea.toNat % 4 = 0 ∧ ea.toNat + 4 ≤ s.cfg.memSize ∧
      r = hierRead s.cfg s.mem s.caches ea.toNat 4 := by
  simp only [dataRead] at h
  split_ifs at h with h1 h2
  simp only [Access.done.injEq] at h
  simp only [isAligned, inBounds, Bool.not_eq_true', beq_eq_false_iff_ne, ne_eq, not_not,
    decide_eq_false_iff_not] at h1 h2
  exact ⟨h1, h2, h.symm⟩

/-- An aligned read in bounds is performed. -/
theorem dataRead_of_aligned (s : State) (ea : Word) (h1 : ea.toNat % 4 = 0)
    (h2 : ea.toNat + 4 ≤ s.cfg.memSize) :
    dataRead s ea = .done (hierRead s.cfg s.mem s.caches ea.toNat 4) := by
  simp [dataRead, isAligned, inBounds, h1, h2]

theorem dataRead_outOfBounds (s : State) (ea : Word) :
    dataRead s ea = .outOfBounds ↔ ea.toNat % 4 = 0 ∧ s.cfg.memSize < ea.toNat + 4 := by
  by_cases h1 : ea.toNat % 4 = 0 <;> by_cases h2 : ea.toNat + 4 ≤ s.cfg.memSize <;>
    (simp [dataRead, isAligned, inBounds, h1, h2]; try omega)

theorem dataRead_misaligned (s : State) (ea : Word) :
    dataRead s ea = .misaligned ↔ ea.toNat % 4 ≠ 0 := by
  by_cases h1 : ea.toNat % 4 = 0 <;> by_cases h2 : ea.toNat + 4 ≤ s.cfg.memSize <;>
    simp [dataRead, isAligned, inBounds, h1, h2]

/-- A performed write was aligned, in bounds, and is `HierWrite`. -/
theorem dataWrite_done (s : State) (ea v : Word) (r : WriteResult)
    (h : dataWrite s ea v = .done r) :
    ea.toNat % 4 = 0 ∧ ea.toNat + 4 ≤ s.cfg.memSize ∧
      r = hierWrite s.cfg s.mem s.caches ea.toNat 4 v.toNat := by
  simp only [dataWrite] at h
  split_ifs at h with h1 h2
  simp only [Access.done.injEq] at h
  simp only [isAligned, inBounds, Bool.not_eq_true', beq_eq_false_iff_ne, ne_eq, not_not,
    decide_eq_false_iff_not] at h1 h2
  exact ⟨h1, h2, h.symm⟩

/-- An aligned write in bounds is performed. -/
theorem dataWrite_of_aligned (s : State) (ea v : Word) (h1 : ea.toNat % 4 = 0)
    (h2 : ea.toNat + 4 ≤ s.cfg.memSize) :
    dataWrite s ea v = .done (hierWrite s.cfg s.mem s.caches ea.toNat 4 v.toNat) := by
  simp [dataWrite, isAligned, inBounds, h1, h2]

theorem dataWrite_outOfBounds (s : State) (ea v : Word) :
    dataWrite s ea v = .outOfBounds ↔ ea.toNat % 4 = 0 ∧ s.cfg.memSize < ea.toNat + 4 := by
  by_cases h1 : ea.toNat % 4 = 0 <;> by_cases h2 : ea.toNat + 4 ≤ s.cfg.memSize <;>
    (simp [dataWrite, isAligned, inBounds, h1, h2]; try omega)

theorem dataWrite_misaligned (s : State) (ea v : Word) :
    dataWrite s ea v = .misaligned ↔ ea.toNat % 4 ≠ 0 := by
  by_cases h1 : ea.toNat % 4 = 0 <;> by_cases h2 : ea.toNat + 4 ≤ s.cfg.memSize <;>
    simp [dataWrite, isAligned, inBounds, h1, h2]

/-! ### The shared operations of the meanings -/

theorem eq_of_next {a b : State} (h : (.next a : Host.Outcome State Fault Refusal) = .next b) :
    b = a := by
  injection h with h
  exact h.symm

theorem loadWord_next (ra : Reg) (ea : Word) (s t : State) (h : loadWord ra ea s = .next t) :
    (∃ r, dataRead s ea = .done r ∧
      t = ((s.afterRead r).writeReg ra (BitVec.ofNat 32 r.value)).advance) ∨
    (dataRead s ea = .outOfBounds ∧ t = s.raise .outOfBoundsAccess s.pc (some ea)) := by
  simp only [loadWord] at h
  split at h
  · rename_i r hr
    exact .inl ⟨r, hr, by simpa using h.symm⟩
  · rename_i hr
    exact .inr ⟨hr, by simpa using h.symm⟩
  · simp at h

theorem storeWord_next (v ea : Word) (s t : State) (h : storeWord v ea s = .next t) :
    (∃ r, dataWrite s ea v = .done r ∧ t = (s.afterWrite ea r).advance) ∨
    (dataWrite s ea v = .outOfBounds ∧ t = s.raise .outOfBoundsAccess s.pc (some ea)) := by
  simp only [storeWord] at h
  split at h
  · rename_i r hr
    exact .inl ⟨r, hr, by simpa using h.symm⟩
  · rename_i hr
    exact .inr ⟨hr, by simpa using h.symm⟩
  · simp at h

theorem execCall_next (target : Word) (s t : State) (h : execCall target s = .next t) :
    (s.sp = s.cfg.stackDepth ∧ t = s.raise .stackOverflow s.pc none) ∨
    (s.sp ≠ s.cfg.stackDepth ∧ t = (s.pushRas (nextWordAddress s.pc)).setPc target) := by
  by_cases hf : s.sp = s.cfg.stackDepth
  · simp only [execCall, State.rasFull, hf, beq_self_eq_true, if_true] at h
    exact .inl ⟨hf, eq_of_next h⟩
  · simp only [execCall, State.rasFull, beq_eq_false_iff_ne.2 hf, Bool.false_eq_true, if_false] at h
    exact .inr ⟨hf, eq_of_next h⟩

theorem execRet_next (s t : State) (h : execRet s = .next t) :
    (s.sp = 0 ∧ t = s.raise .stackUnderflow s.pc none) ∨
    (s.sp ≠ 0 ∧ t = s.popRas.setPc s.rasTop) := by
  by_cases hf : s.sp = 0
  · simp only [execRet, State.rasEmpty, hf, beq_self_eq_true, if_true] at h
    exact .inl ⟨hf, eq_of_next h⟩
  · simp only [execRet, State.rasEmpty, beq_eq_false_iff_ne.2 hf, Bool.false_eq_true, if_false] at h
    exact .inr ⟨hf, eq_of_next h⟩

/-! ### Everything an instruction can do -/

/-- The ways a next state of exec comes about, by the class of the instruction. -/
inductive Effect (i : Instr) (s t : State) : Prop where
  /-- An ALU instruction writes its destination. -/
  | register (ra : Reg) (v : Word) (hd : dstOf i = some ra) (hl : isLoadOp i.op = false)
      (ht : t = (s.writeReg ra v).advance)
  /-- `CMP32` writes the flags. -/
  | flags (rb rc : Reg) (hi : i = .cmp32 rb rc)
      (ht : t = (s.setFlags (compareFlags (s.readReg rb) (s.readReg rc))).advance)
  /-- A load. -/
  | load (ra : Reg) (ea : Word) (r : ReadResult) (hd : dstOf i = some ra)
      (hl : isLoadOp i.op = true) (he : effectiveAddress s.readReg i = some ea)
      (hr : dataRead s ea = .done r)
      (ht : t = ((s.afterRead r).writeReg ra (BitVec.ofNat 32 r.value)).advance)
  /-- A store. -/
  | store (ra : Reg) (ea : Word) (r : WriteResult) (hs : isStoreOp i.op = true)
      (he : effectiveAddress s.readReg i = some ea)
      (hr : dataWrite s ea (s.readReg ra) = .done r) (ht : t = (s.afterWrite ea r).advance)
  /-- A taken jump. -/
  | taken (target : Word) (hi : targetOf i = some target) (ht : t = s.setPc target)
  /-- A jump not taken. -/
  | notTaken (hr : readsFlagsOp i.op = true) (ht : t = s.advance)
  /-- `CALL`. -/
  | call (target : Word) (hi : i = .call target) (hf : s.sp ≠ s.cfg.stackDepth)
      (ht : t = (s.pushRas (nextWordAddress s.pc)).setPc target)
  /-- `RET`. -/
  | ret (hi : i = .ret) (he : s.sp ≠ 0) (ht : t = s.popRas.setPc s.rasTop)
  /-- `HALT`. -/
  | halt (hi : i = .halt) (ht : t = s.advance.halt)
  /-- A fault is taken. -/
  | fault (kind : FaultKind) (info : Option Word) (hk : kind ≠ .invalidOpcode)
      (ht : t = s.raise kind s.pc info)

theorem effect_of_jumpIf (i : Instr) (taken : Bool) (target : Word) (s t : State)
    (hi : targetOf i = some target) (hr : readsFlagsOp i.op = true)
    (h : jumpIf taken target s = .next t) : Effect i s t := by
  simp only [jumpIf, Host.Outcome.next.injEq] at h
  cases taken
  · exact .notTaken hr h.symm
  · exact .taken target hi h.symm

theorem effect_of_loadWord (i : Instr) (ra : Reg) (ea : Word) (s t : State)
    (hd : dstOf i = some ra) (hl : isLoadOp i.op = true)
    (he : effectiveAddress s.readReg i = some ea) (h : loadWord ra ea s = .next t) :
    Effect i s t := by
  rcases loadWord_next ra ea s t h with ⟨r, hr, rfl⟩ | ⟨-, rfl⟩
  · exact .load ra ea r hd hl he hr rfl
  · exact .fault _ _ (by simp) rfl

theorem effect_of_storeWord (i : Instr) (ra : Reg) (ea : Word) (s t : State)
    (hs : isStoreOp i.op = true) (he : effectiveAddress s.readReg i = some ea)
    (h : storeWord (s.readReg ra) ea s = .next t) : Effect i s t := by
  rcases storeWord_next _ ea s t h with ⟨r, hr, rfl⟩ | ⟨-, rfl⟩
  · exact .store ra ea r hs he hr rfl
  · exact .fault _ _ (by simp) rfl

/-- The inversion lemma of exec. -/
theorem exec_next (i : Instr) (s t : State) (h : exec i s = .next t) : Effect i s t := by
  cases i with
  | addi ra rb rc => exact .register ra _ rfl rfl (eq_of_next h)
  | subi ra rb rc => exact .register ra _ rfl rfl (eq_of_next h)
  | andi ra rb rc => exact .register ra _ rfl rfl (eq_of_next h)
  | ori ra rb rc => exact .register ra _ rfl rfl (eq_of_next h)
  | xori ra rb rc => exact .register ra _ rfl rfl (eq_of_next h)
  | shli ra rb rc => exact .register ra _ rfl rfl (eq_of_next h)
  | shri ra rb rc => exact .register ra _ rfl rfl (eq_of_next h)
  | addu ra rb rc => exact .register ra _ rfl rfl (eq_of_next h)
  | subu ra rb rc => exact .register ra _ rfl rfl (eq_of_next h)
  | shru ra rb rc => exact .register ra _ rfl rfl (eq_of_next h)
  | addim ra imm => exact .register ra _ rfl rfl (eq_of_next h)
  | cmp32 rb rc => exact .flags rb rc rfl (eq_of_next h)
  | ld32 ra addr => exact effect_of_loadWord _ ra _ s t rfl rfl rfl h
  | ldin32 ra rb => exact effect_of_loadWord _ ra _ s t rfl rfl rfl h
  | st32 ra addr => exact effect_of_storeWord _ ra _ s t rfl rfl h
  | stin32 ra rb => exact effect_of_storeWord _ ra _ s t rfl rfl h
  | jmp target => exact .taken target rfl (eq_of_next h)
  | je target => exact effect_of_jumpIf _ _ target s t rfl rfl h
  | jne target => exact effect_of_jumpIf _ _ target s t rfl rfl h
  | jlt target => exact effect_of_jumpIf _ _ target s t rfl rfl h
  | jle target => exact effect_of_jumpIf _ _ target s t rfl rfl h
  | jgt target => exact effect_of_jumpIf _ _ target s t rfl rfl h
  | jge target => exact effect_of_jumpIf _ _ target s t rfl rfl h
  | call target =>
    rcases execCall_next target s t h with ⟨-, rfl⟩ | ⟨hf, rfl⟩
    · exact .fault _ _ (by simp) rfl
    · exact .call target rfl hf rfl
  | ret =>
    rcases execRet_next s t h with ⟨-, rfl⟩ | ⟨he, rfl⟩
    · exact .fault _ _ (by simp) rfl
    · exact .ret rfl he rfl
  | halt => exact .halt rfl (eq_of_next h)

/-! ### One step -/

theorem fetchAt_some (s : State) (pc w : Word) (h : s.fetchAt pc = some w) :
    pc.toNat + 4 ≤ s.cfg.memSize ∧ w = memWord s.mem pc.toNat := by
  by_cases hb : pc.toNat + 4 ≤ s.cfg.memSize
  · simp only [State.fetchAt, inBounds, hb, decide_true, if_true, Option.some.injEq] at h
    exact ⟨hb, h.symm⟩
  · simp [State.fetchAt, inBounds, hb] at h

/-- Everything a step can do. -/
theorem step_next (s t : State) (h : step s = .next t) :
    s.cfg.wf = true ∧
    ((s.status ≠ .running ∧ t = s) ∨
     (s.status = .running ∧
      ((s.fetchAt s.pc = none ∧ t = s.raise .outOfBoundsAccess s.pc (some s.pc)) ∨
       ∃ w, s.fetchAt s.pc = some w ∧ storedOver s.stored s.pc = false ∧
        ((∃ i, decode w = .ok i ∧ exec i s = .next t) ∨
         ((∀ i, decode w ≠ .ok i) ∧ t = s.raise .invalidOpcode s.pc (some w)))))) := by
  simp only [step] at h
  split_ifs at h with hc
  refine ⟨hc, ?_⟩
  split at h
  · rename_i hrun
    refine .inr ⟨hrun, ?_⟩
    simp only [runInstruction] at h
    split at h
    · rename_i hf
      exact .inl ⟨hf, by simpa using h.symm⟩
    · rename_i w hf
      split_ifs at h with hst
      refine .inr ⟨w, hf, by simpa using hst, ?_⟩
      split at h
      · rename_i i hi
        exact .inl ⟨i, hi, h⟩
      · rename_i e he
        exact .inr ⟨fun i hi => (by rw [he] at hi; cases hi), eq_of_next h⟩
  · rename_i hs
    exact .inl ⟨by simp [hs], by simpa using h.symm⟩
  · rename_i f hs
    exact .inl ⟨by simp [hs], by simpa using h.symm⟩

/-! ### The memory system under one access -/

/-- A performed read keeps the memory system legal. -/
theorem memorySystemOk_afterRead (s : State) (ea : Word) (r : ReadResult)
    (hs : s.memorySystemOk) (h : dataRead s ea = .done r) :
    (s.afterRead r).memorySystemOk := by
  obtain ⟨-, -, rfl⟩ := dataRead_done s ea r h
  exact ⟨hs.config, hs.memory, hierRead_fits _ _ _ _ _ hs.fit, hierRead_coherent _ _ _ _ _ hs.coherent⟩

/-- A performed write keeps the memory system legal. -/
theorem memorySystemOk_afterWrite (s : State) (ea v : Word) (r : WriteResult)
    (hs : s.memorySystemOk) (h : dataWrite s ea v = .done r) :
    (s.afterWrite ea r).memorySystemOk := by
  obtain ⟨ha, hb, rfl⟩ := dataWrite_done s ea v r h
  have hmem : (s.afterWrite ea (hierWrite s.cfg s.mem s.caches ea.toNat 4 v.toNat)).memoryOk := by
    refine ⟨Memory.wf_writeBytes s.mem _ _ hs.memory.1, fun c hc => ?_⟩
    rcases mem_writeBytes s.mem _ _ c hc with hc | ⟨-, hc⟩
    · exact hs.memory.2 c hc
    · simp only [leBytes_length, State.afterWrite_cfg] at hc ⊢
      omega
  exact ⟨hs.config, hmem,
    hierWrite_fits s.cfg s.mem s.caches ea.toNat 4 v.toNat hs.config (by decide) ha hs.fit,
    hierWrite_coherent s.cfg s.mem s.caches ea.toNat 4 v.toNat hs.config (by decide) ha
      hs.memory.1 hs.fit hs.coherent⟩

/-- The memory system's legality rests on the configuration, the memory and the caches alone. -/
theorem memorySystemOk_congr (s t : State) (hs : s.memorySystemOk) (h1 : t.cfg = s.cfg)
    (h2 : t.mem = s.mem) (h3 : t.caches = s.caches) : t.memorySystemOk := by
  refine ⟨h1 ▸ hs.config, ?_, ?_, ?_⟩
  · simpa only [State.memoryOk, h1, h2] using hs.memory
  · simpa only [State.cachesFit, h1, h3] using hs.fit
  · simpa only [State.coherent, h1, h2, h3] using hs.coherent

end Sys2Proof.Machine
end

