-- ==== Sys2Proof/Laws/Pipeline.lean ====
section
/-! SUPPORT. What each pipeline stage, and a whole cycle, can do: one inversion lemma each. -/

namespace Sys2Proof.Machine

/-! ### Writeback -/

theorem commitReg_none (x : Vector Word 16) : commitReg x none = x := rfl

@[simp] theorem stageW_halted (s : State) :
    (stageW s).halted = true ↔ ∃ w, s.mw = some w ∧ w.op = .halt := by
  simp only [stageW]
  split
  · rename_i h; simp [h]
  · rename_i w h; simp [h]

/-- The register result that reaches Writeback. -/
theorem stageW_x (s : State) :
    (stageW s).x = commitReg s.x (s.mw.bind MemoryLatch.regResult) := by
  simp only [stageW]
  split <;> rename_i h <;> simp [h, commitReg]

/-- A committed result, register by register. -/
theorem commitReg_get (x : Vector Word 16) (o : Option (Reg × Word)) (q : Reg) :
    (commitReg x o)[q.val] =
      match o with
      | some (r, v) => if r = q then v else x[q.val]
      | none => x[q.val] := by
  cases o with
  | none => rfl
  | some p =>
    obtain ⟨r, v⟩ := p
    by_cases hr : r = q
    · subst hr; simp [commitReg]
    · have hv : r.val ≠ q.val := fun e => hr (Fin.ext e)
      simp [commitReg, hr, hv]

/-- The registers after Writeback, one by one (R204). -/
theorem stageW_reg (s : State) (q : Reg) :
    (s.afterW (stageW s)).readReg q =
      match s.mw with
      | some w => if w.dst = some q then w.val else s.readReg q
      | none => s.readReg q := by
  simp only [State.readReg, State.afterW_x, stageW_x, commitReg_get]
  cases s.mw with
  | none => rfl
  | some w => cases hd : w.dst <;> simp [MemoryLatch.regResult, hd]

/-! ### Memory -/

/-- The ways the Memory stage completes its cycle (R205 to R207). -/
inductive MemoryCase (s : State) (o : MemoryOut) : Prop where
  /-- No instruction. -/
  | bubble (he : s.em = none)
      (ho : o = { mem := s.mem, caches := s.caches, stored := s.stored, mbusy := s.mbusy
                  mdata := s.mdata, mw := none, stall := false })
  /-- An instruction that is no access passes through. -/
  | pass (m : ExecuteLatch) (he : s.em = some m) (hl : isLoadOp m.op = false)
      (hst : isStoreOp m.op = false)
      (ho : o = { mem := s.mem, caches := s.caches, stored := s.stored, mbusy := s.mbusy
                  mdata := s.mdata, mw := some (passLatch m), stall := false })
  /-- A later cycle of an access. -/
  | count (m : ExecuteLatch) (he : s.em = some m)
      (hop : (isLoadOp m.op || isStoreOp m.op) = true) (hb : s.mbusy ≠ 0)
      (ho : o = accessCycle m s.mem s.caches s.stored s.mdata (s.mbusy - 1))
  /-- The first cycle of a load. -/
  | load (m : ExecuteLatch) (r : ReadResult) (he : s.em = some m) (hop : isLoadOp m.op = true)
      (hb : s.mbusy = 0) (hr : dataRead s m.res = .done r)
      (ho : o = accessCycle m s.mem r.caches s.stored (BitVec.ofNat 32 r.value)
        (remainingCycles r.latency))
  /-- The first cycle of a store. -/
  | store (m : ExecuteLatch) (r : WriteResult) (he : s.em = some m) (hl : isLoadOp m.op = false)
      (hop : isStoreOp m.op = true) (hb : s.mbusy = 0) (hr : dataWrite s m.res m.sdata = .done r)
      (ho : o = accessCycle m r.mem r.caches (insertSorted m.res.toNat s.stored) s.mdata
        (remainingCycles r.latency))

theorem issueLoad_ok (s : State) (m : ExecuteLatch) (o : MemoryOut) (h : issueLoad s m = .ok o) :
    ∃ r, dataRead s m.res = .done r ∧
      o = accessCycle m s.mem r.caches s.stored (BitVec.ofNat 32 r.value)
        (remainingCycles r.latency) := by
  simp only [issueLoad] at h
  split at h
  · rename_i r hr
    injection h with h
    exact ⟨r, hr, h.symm⟩
  · cases h
  · cases h

theorem issueStore_ok (s : State) (m : ExecuteLatch) (o : MemoryOut) (h : issueStore s m = .ok o) :
    ∃ r, dataWrite s m.res m.sdata = .done r ∧
      o = accessCycle m r.mem r.caches (insertSorted m.res.toNat s.stored) s.mdata
        (remainingCycles r.latency) := by
  simp only [issueStore] at h
  split at h
  · rename_i r hr
    injection h with h
    exact ⟨r, hr, h.symm⟩
  · cases h
  · cases h

/-- The inversion lemma of the Memory stage. -/
theorem stageM_ok (s : State) (o : MemoryOut) (h : stageM s = .ok o) : MemoryCase s o := by
  simp only [stageM] at h
  split at h
  · rename_i he
    injection h with h
    exact .bubble he h.symm
  · rename_i m he
    cases hl : isLoadOp m.op
    · cases hst : isStoreOp m.op
      · simp only [hl, hst, Bool.or_self, Bool.false_eq_true, if_false] at h
        injection h with h
        exact .pass m he hl hst h.symm
      · simp only [hl, hst, Bool.or_true, if_true, Bool.false_eq_true, if_false] at h
        by_cases hb : s.mbusy = 0
        · simp only [hb, if_true] at h
          obtain ⟨r, hr, ho⟩ := issueStore_ok s m o h
          exact .store m r he hl hst hb hr ho
        · simp only [hb, if_false] at h
          injection h with h
          exact .count m he (by simp [hst]) hb h.symm
    · simp only [hl, Bool.true_or, if_true] at h
      by_cases hb : s.mbusy = 0
      · simp only [hb, if_true] at h
        obtain ⟨r, hr, ho⟩ := issueLoad_ok s m o h
        exact .load m r he hl hb hr ho
      · simp only [hb, if_false] at h
        injection h with h
        exact .count m he (by simp [hl]) hb h.symm

/-- The Memory stage faults only on an out-of-bounds address in the first cycle of an access
(R206). -/
theorem stageM_fault (s : State) (f : FaultRecord) (h : stageM s = .error (.fault f)) :
    ∃ m, s.em = some m ∧ s.mbusy = 0 ∧ (isLoadOp m.op || isStoreOp m.op) = true ∧
      m.res.toNat % 4 = 0 ∧ s.cfg.memSize < m.res.toNat + 4 ∧
      f = { kind := .outOfBoundsAccess, faultPc := m.pc, info := some m.res } := by
  simp only [stageM] at h
  split at h
  · cases h
  · rename_i m he
    by_cases hop : (isLoadOp m.op || isStoreOp m.op) = true
    · simp only [hop, if_true] at h
      by_cases hb : s.mbusy = 0
      · simp only [hb, if_true] at h
        refine ⟨m, he, hb, hop, ?_⟩
        by_cases hl : isLoadOp m.op = true
        · simp only [hl, if_true, issueLoad] at h
          split at h
          · cases h
          · rename_i hd
            injection h with h
            injection h with h
            have := (dataRead_outOfBounds s m.res).1 hd
            exact ⟨this.1, this.2, h.symm⟩
          · cases h
        · simp only [hl, if_false, issueStore, Bool.false_eq_true] at h
          split at h
          · cases h
          · rename_i hd
            injection h with h
            injection h with h
            have := (dataWrite_outOfBounds s m.res m.sdata).1 hd
            exact ⟨this.1, this.2, h.symm⟩
          · cases h
      · simp only [hb, if_false] at h
        cases h
    · simp only [hop, if_false, Bool.false_eq_true] at h
      cases h

/-! ### Execute -/

/-- The result an ALU instruction computes in Execute (R210). -/
def aluResult (e : DecodeLatch) : Option Word :=
  match e.op with
  | .addi => some (addWord e.a e.b)
  | .subi => some (subWord e.a e.b)
  | .andi => some (andWord e.a e.b)
  | .ori => some (orWord e.a e.b)
  | .xori => some (xorWord e.a e.b)
  | .shli => some (shiftLeftWord e.a e.b)
  | .shri => some (shiftRightSignedWord e.a e.b)
  | .addu => some (addWord e.a e.b)
  | .subu => some (subWord e.a e.b)
  | .shru => some (shiftRightUnsignedWord e.a e.b)
  | .addim => some (addWord e.a e.b)
  | .cmp32 | .ld32 | .ldin32 | .st32 | .stin32 | .jmp | .je | .jne | .jlt | .jle | .jgt | .jge
  | .call | .ret | .halt => none

/-- The ways Execute completes its cycle (R210 to R216). -/
inductive ExecuteCase (s : State) (o : ExecuteOut) : Prop where
  /-- No instruction. -/
  | bubble (hd : s.de = none)
      (ho : o = { em := none, ras := s.ras, sp := s.sp, redirect := none, fwdReg := none
                  fwdFl := none })
  /-- An ALU instruction. -/
  | alu (e : DecodeLatch) (res : Word) (hd : s.de = some e) (hr : aluResult e = some res)
      (ho : o = executeAlu s e res)
  /-- `CMP32`. -/
  | compare (e : DecodeLatch) (hd : s.de = some e) (hop : e.op = .cmp32)
      (ho : o = executeCompare s e (compareFlags e.a e.b))
  /-- A load or store. -/
  | access (e : DecodeLatch) (sdata : Word) (hd : s.de = some e)
      (hop : (isLoadOp e.op || isStoreOp e.op) = true)
      (hs : isStoreOp e.op = true → sdata = e.b) (ho : o = executeAccess s e sdata)
  /-- A jump, taken or not, or `HALT` (not taken). -/
  | jump (e : DecodeLatch) (taken : Bool) (hd : s.de = some e)
      (hop : e.op = .jmp ∧ taken = true ∨ readsFlagsOp e.op = true ∨ e.op = .halt ∧ taken = false)
      (ho : o = executeJump s e taken)
  /-- `CALL`. -/
  | call (e : DecodeLatch) (hd : s.de = some e) (hop : e.op = .call)
      (hf : s.sp ≠ s.cfg.stackDepth)
      (ho : o = { em := some (executeLatch e 0 0 none), ras := s.ras.set s.sp (nextWordAddress e.pc)
                  sp := s.sp + 1, redirect := some e.target, fwdReg := none, fwdFl := none })
  /-- `RET`. -/
  | ret (e : DecodeLatch) (hd : s.de = some e) (hop : e.op = .ret) (hf : s.sp ≠ 0)
      (ho : o = { em := some (executeLatch e 0 0 none), ras := s.ras, sp := s.sp - 1
                  redirect := some s.rasTop, fwdReg := none, fwdFl := none })

theorem ok_inj {α : Type} {a b : α} (h : (.ok a : Except StageStop α) = .ok b) : b = a := by
  injection h with h
  exact h.symm

/-- Execute that completes: a bubble, or an instruction that is not stored over. -/
theorem stageE_inv (s : State) (stored : List Nat) (o : ExecuteOut) (h : stageE s stored = .ok o) :
    (s.de = none ∧ o = { em := none, ras := s.ras, sp := s.sp, redirect := none, fwdReg := none
                         fwdFl := none }) ∨
    ∃ e, s.de = some e ∧ storedOver stored e.pc = false ∧ executeOp s e = .ok o := by
  simp only [stageE] at h
  split at h
  · rename_i hd
    exact .inl ⟨hd, ok_inj h⟩
  · rename_i e hd
    cases hs : storedOver stored e.pc
    · simp only [hs, Bool.false_eq_true, if_false] at h
      exact .inr ⟨e, hd, hs, h⟩
    · simp only [hs, if_true] at h
      cases h

/-- The inversion lemma of the Execute stage. -/
theorem stageE_ok (s : State) (stored : List Nat) (o : ExecuteOut) (h : stageE s stored = .ok o) :
    ExecuteCase s o := by
  rcases stageE_inv s stored o h with ⟨hd, ho⟩ | ⟨e, hd, -, h⟩
  · exact .bubble hd ho
  · obtain ⟨pc, op, dst, a, b, flIn, target⟩ := e
    cases op with
    | addi => exact .alu _ _ hd rfl (ok_inj h)
    | subi => exact .alu _ _ hd rfl (ok_inj h)
    | andi => exact .alu _ _ hd rfl (ok_inj h)
    | ori => exact .alu _ _ hd rfl (ok_inj h)
    | xori => exact .alu _ _ hd rfl (ok_inj h)
    | shli => exact .alu _ _ hd rfl (ok_inj h)
    | shri => exact .alu _ _ hd rfl (ok_inj h)
    | addu => exact .alu _ _ hd rfl (ok_inj h)
    | subu => exact .alu _ _ hd rfl (ok_inj h)
    | shru => exact .alu _ _ hd rfl (ok_inj h)
    | addim => exact .alu _ _ hd rfl (ok_inj h)
    | cmp32 => exact .compare _ hd rfl (ok_inj h)
    | ld32 => exact .access _ 0 hd rfl (by simp [isStoreOp]) (ok_inj h)
    | ldin32 => exact .access _ 0 hd rfl (by simp [isStoreOp]) (ok_inj h)
    | st32 => exact .access _ b hd rfl (fun _ => rfl) (ok_inj h)
    | stin32 => exact .access _ b hd rfl (fun _ => rfl) (ok_inj h)
    | jmp => exact .jump _ true hd (.inl ⟨rfl, rfl⟩) (ok_inj h)
    | je => exact .jump _ _ hd (.inr (.inl rfl)) (ok_inj h)
    | jne => exact .jump _ _ hd (.inr (.inl rfl)) (ok_inj h)
    | jlt => exact .jump _ _ hd (.inr (.inl rfl)) (ok_inj h)
    | jle => exact .jump _ _ hd (.inr (.inl rfl)) (ok_inj h)
    | jgt => exact .jump _ _ hd (.inr (.inl rfl)) (ok_inj h)
    | jge => exact .jump _ _ hd (.inr (.inl rfl)) (ok_inj h)
    | call =>
      by_cases hf : s.sp = s.cfg.stackDepth
      · simp [executeOp, executeCall, State.rasFull, hf] at h
      · simp only [executeOp, executeCall, State.rasFull, beq_eq_false_iff_ne.2 hf,
          Bool.false_eq_true, if_false] at h
        exact .call _ hd rfl hf (ok_inj h)
    | ret =>
      by_cases hf : s.sp = 0
      · simp [executeOp, executeRet, State.rasEmpty, hf] at h
      · simp only [executeOp, executeRet, State.rasEmpty, beq_eq_false_iff_ne.2 hf,
          Bool.false_eq_true, if_false] at h
        exact .ret _ hd rfl hf (ok_inj h)
    | halt => exact .jump _ false hd (.inr (.inr ⟨rfl, rfl⟩)) (ok_inj h)

/-- Execute stops a cycle only with the two faults of the return-address stack (R214, R215), or with the
refusal of an instruction that is stored over (R79). -/
theorem stageE_error (s : State) (stored : List Nat) (stop : StageStop)
    (h : stageE s stored = .error stop) :
    ∃ e, s.de = some e ∧
      ((storedOver stored e.pc = true ∧ stop = .refuse (.selfModifiedCode e.pc)) ∨
       storedOver stored e.pc = false ∧
       ((e.op = .call ∧ s.sp = s.cfg.stackDepth ∧
          stop = .fault { kind := .stackOverflow, faultPc := e.pc, info := none }) ∨
       (e.op = .ret ∧ s.sp = 0 ∧
          stop = .fault { kind := .stackUnderflow, faultPc := e.pc, info := none }))) := by
  simp only [stageE] at h
  split at h
  · cases h
  · rename_i e hd
    refine ⟨e, hd, ?_⟩
    cases hs : storedOver stored e.pc
    swap
    · simp only [hs, if_true] at h
      injection h with h
      exact .inl ⟨rfl, h.symm⟩
    simp only [hs, Bool.false_eq_true, if_false] at h
    refine .inr ⟨rfl, ?_⟩
    clear hs
    obtain ⟨pc, op, dst, a, b, flIn, target⟩ := e
    cases op with
    | call =>
      left
      by_cases hf : s.sp = s.cfg.stackDepth
      · simp only [executeOp, executeCall, State.rasFull, hf, beq_self_eq_true, if_true] at h
        injection h with h
        exact ⟨rfl, hf, h.symm⟩
      · simp [executeOp, executeCall, State.rasFull, hf] at h
    | ret =>
      right
      by_cases hf : s.sp = 0
      · simp only [executeOp, executeRet, State.rasEmpty, hf, beq_self_eq_true, if_true] at h
        injection h with h
        exact ⟨rfl, hf, h.symm⟩
      · simp [executeOp, executeRet, State.rasEmpty, hf] at h
    | addi | subi | andi | ori | xori | shli | shri | addu | subu | shru | addim | cmp32 | ld32
    | ldin32 | st32 | stin32 | jmp | je | jne | jlt | jle | jgt | jge | halt => cases h

/-! ### Decode -/

/-- The ways Decode completes its cycle (R217, R218, R222). -/
inductive DecodeCase (s : State) (fw : Forwards) (redirect : Option Word) (o : DecodeOut) : Prop where
  /-- Squashed, or no instruction. -/
  | nothing (h : redirect ≠ none ∨ s.fd = none) (ho : o = { de := none, stall := false })
  /-- The load-use stall. -/
  | stalled (d : FetchLatch) (i : Instr) (hr : redirect = none) (hd : s.fd = some d)
      (hi : decode d.word = .ok i) (hu : loadUse s i = true)
      (ho : o = { de := none, stall := true })
  /-- Decoded. -/
  | decoded (d : FetchLatch) (i : Instr) (hr : redirect = none) (hd : s.fd = some d)
      (hi : decode d.word = .ok i) (hu : loadUse s i = false)
      (ho : o = { de := some (decodeLatch s fw d.pc i), stall := false })

/-- The inversion lemma of the Decode stage. -/
theorem stageD_ok (s : State) (fw : Forwards) (redirect : Option Word) (o : DecodeOut)
    (h : stageD s fw redirect = .ok o) : DecodeCase s fw redirect o := by
  cases hr : redirect with
  | some t =>
    rw [hr] at h
    exact .nothing (.inl (by simp)) (ok_inj h)
  | none =>
    rw [hr] at h
    cases hd : s.fd with
    | none =>
      simp only [stageD, hd] at h
      exact .nothing (.inr hd) (ok_inj h)
    | some d =>
      simp only [stageD, hd, decodeWord] at h
      split at h
      · cases h
      · rename_i i hi
        cases hu : loadUse s i
        · simp only [hu, Bool.false_eq_true, if_false] at h
          exact .decoded d i rfl hd hi hu (ok_inj h)
        · simp only [hu, if_true] at h
          exact .stalled d i rfl hd hi hu (ok_inj h)

/-- Decode stops a cycle only with a fault, on an unassigned opcode, and only when not squashed
(R218). -/
theorem stageD_error (s : State) (fw : Forwards) (redirect : Option Word) (stop : StageStop)
    (h : stageD s fw redirect = .error stop) :
    redirect = none ∧ ∃ d, s.fd = some d ∧ (∀ i, decode d.word ≠ .ok i) ∧
      stop = .fault { kind := .invalidOpcode, faultPc := d.pc, info := some d.word } := by
  cases hr : redirect with
  | some t => rw [hr] at h; cases h
  | none =>
    rw [hr] at h
    refine ⟨rfl, ?_⟩
    cases hd : s.fd with
    | none => simp only [stageD, hd] at h; cases h
    | some d =>
      simp only [stageD, hd, decodeWord] at h
      split at h
      · rename_i e he
        injection h with h
        exact ⟨d, rfl, fun i hi => (by rw [he] at hi; cases hi), h.symm⟩
      · split_ifs at h

/-! ### Fetch -/

/-- The ways Fetch completes its cycle (R223). -/
inductive FetchCase (s : State) (redirect : Option Word) (lustall : Bool) (o : FetchOut) :
    Prop where
  /-- Held by the load-use stall. -/
  | held (hl : lustall = true) (ho : o = { fd := s.fd, pc := s.pc })
  /-- Redirected. -/
  | redirected (t : Word) (hl : lustall = false) (hr : redirect = some t)
      (ho : o = { fd := none, pc := t })
  /-- Stopped behind a `HALT`. -/
  | stopped (hl : lustall = false) (hr : redirect = none) (hs : fetchStop s = true)
      (ho : o = { fd := none, pc := s.pc })
  /-- A word is fetched. -/
  | fetched (hl : lustall = false) (hr : redirect = none) (hs : fetchStop s = false)
      (hb : s.pc.toNat + 4 ≤ s.cfg.memSize) (hst : storedOver s.stored s.pc = false)
      (ho : o = { fd := some { pc := s.pc, word := memWord s.mem s.pc.toNat }
                  pc := nextWordAddress s.pc })

/-- The inversion lemma of the Fetch stage. -/
theorem stageF_ok (s : State) (redirect : Option Word) (lustall : Bool) (o : FetchOut)
    (h : stageF s redirect lustall = .ok o) : FetchCase s redirect lustall o := by
  cases hl : lustall
  · simp only [stageF, hl, Bool.false_eq_true, if_false] at h
    cases hr : redirect with
    | some t =>
      simp only [hr] at h
      exact .redirected t rfl rfl (ok_inj h)
    | none =>
      simp only [hr] at h
      cases hs : fetchStop s
      · simp only [hs, Bool.false_eq_true, if_false] at h
        split at h
        · cases h
        · rename_i w hw
          obtain ⟨hb, rfl⟩ := fetchAt_some s s.pc w hw
          cases hst : storedOver s.stored s.pc
          · simp only [hst, Bool.false_eq_true, if_false] at h
            exact .fetched rfl rfl hs hb hst (ok_inj h)
          · simp only [hst, if_true] at h
            cases h
      · simp only [hs, if_true] at h
        exact .stopped rfl rfl hs (ok_inj h)
  · simp only [stageF, hl, if_true] at h
    exact .held rfl (ok_inj h)

/-- Fetch stops a cycle only when it works: with a fault on an address outside memory (R223), with a
refusal on an address stored over (R79). -/
theorem stageF_error (s : State) (redirect : Option Word) (lustall : Bool) (stop : StageStop)
    (h : stageF s redirect lustall = .error stop) :
    lustall = false ∧ redirect = none ∧ fetchStop s = false ∧
      (s.cfg.memSize < s.pc.toNat + 4 ∧
          stop = .fault { kind := .outOfBoundsAccess, faultPc := s.pc, info := some s.pc } ∨
        s.pc.toNat + 4 ≤ s.cfg.memSize ∧ storedOver s.stored s.pc = true ∧
          stop = .refuse (.selfModifiedCode s.pc)) := by
  cases hl : lustall
  · simp only [stageF, hl, Bool.false_eq_true, if_false] at h
    cases hr : redirect with
    | some t => simp only [hr] at h; cases h
    | none =>
      simp only [hr] at h
      cases hs : fetchStop s
      · simp only [hs, Bool.false_eq_true, if_false] at h
        split at h
        · rename_i hw
          injection h with h
          refine ⟨rfl, rfl, rfl, .inl ⟨?_, h.symm⟩⟩
          by_contra hb
          simp [State.fetchAt, inBounds, show s.pc.toNat + 4 ≤ s.cfg.memSize by omega] at hw
        · rename_i w hw
          cases hst : storedOver s.stored s.pc
          · simp only [hst, Bool.false_eq_true, if_false] at h
            cases h
          · simp only [hst, if_true] at h
            injection h with h
            exact ⟨rfl, rfl, rfl, .inr ⟨(fetchAt_some s s.pc w hw).1, rfl, h.symm⟩⟩
      · simp only [hs, if_true] at h
        cases h
  · simp only [stageF, hl, if_true] at h
    cases h

/-! ### The whole cycle -/

/-- The ways a cycle ends in a next state (R227, R231). -/
inductive CycleCase (s t : State) : Prop where
  /-- Memory stalls the rest (R208). -/
  | stalled (m : MemoryOut) (hm : stageM s = .ok m) (hs : m.stall = true)
      (ht : t = ((s.afterW (stageW s)).afterM m).endStalled (stageW s) m)
  /-- The pipe moves. -/
  | moved (m : MemoryOut) (e : ExecuteOut) (d : DecodeOut) (f : FetchOut)
      (hm : stageM s = .ok m) (hs : m.stall = false) (he : stageE s m.stored = .ok e)
      (hd : stageD s (forwardsOf (stageW s) m e) e.redirect = .ok d)
      (hf : stageF s e.redirect d.stall = .ok f)
      (ht : t = (((s.afterW (stageW s)).afterM m).afterE e).endMoved (stageW s) m e d f)
  /-- A fault in Memory. -/
  | faultM (r : FaultRecord) (hm : stageM s = .error (.fault r))
      (ht : t = (s.afterW (stageW s)).raise r.kind r.faultPc r.info)
  /-- A fault in Execute. -/
  | faultE (m : MemoryOut) (r : FaultRecord) (hm : stageM s = .ok m) (hs : m.stall = false)
      (he : stageE s m.stored = .error (.fault r))
      (ht : t = ((s.afterW (stageW s)).afterM m).raise r.kind r.faultPc r.info)
  /-- A fault in Decode. -/
  | faultD (m : MemoryOut) (e : ExecuteOut) (r : FaultRecord) (hm : stageM s = .ok m)
      (hs : m.stall = false) (he : stageE s m.stored = .ok e)
      (hd : stageD s (forwardsOf (stageW s) m e) e.redirect = .error (.fault r))
      (ht : t = (((s.afterW (stageW s)).afterM m).afterE e).raise r.kind r.faultPc r.info)
  /-- A fault in Fetch. -/
  | faultF (m : MemoryOut) (e : ExecuteOut) (d : DecodeOut) (r : FaultRecord)
      (hm : stageM s = .ok m) (hs : m.stall = false) (he : stageE s m.stored = .ok e)
      (hd : stageD s (forwardsOf (stageW s) m e) e.redirect = .ok d)
      (hf : stageF s e.redirect d.stall = .error (.fault r))
      (ht : t = (((s.afterW (stageW s)).afterM m).afterE e).raise r.kind r.faultPc r.info)

theorem stopCycle_next (s t : State) (stop : StageStop) (h : stopCycle s stop = .next t) :
    ∃ r, stop = .fault r ∧ t = s.raise r.kind r.faultPc r.info := by
  cases stop with
  | fault r => exact ⟨r, rfl, eq_of_next h⟩
  | refuse r => cases h

theorem runCycle_next (s t : State) (h : runCycle s = .next t) : CycleCase s t := by
  simp only [runCycle] at h
  split at h
  · rename_i stop hm
    obtain ⟨r, rfl, ht⟩ := stopCycle_next _ _ _ h
    exact .faultM r hm ht
  · rename_i m hm
    cases hs : m.stall
    · simp only [hs, Bool.false_eq_true, if_false] at h
      split at h
      · rename_i stop he
        obtain ⟨r, rfl, ht⟩ := stopCycle_next _ _ _ h
        exact .faultE m r hm hs he ht
      · rename_i e he
        split at h
        · rename_i stop hd
          obtain ⟨r, rfl, ht⟩ := stopCycle_next _ _ _ h
          exact .faultD m e r hm hs he hd ht
        · rename_i d hd
          split at h
          · rename_i stop hf
            obtain ⟨r, rfl, ht⟩ := stopCycle_next _ _ _ h
            exact .faultF m e d r hm hs he hd hf ht
          · rename_i f hf
            exact .moved m e d f hm hs he hd hf (eq_of_next h)
    · simp only [hs, if_true] at h
      exact .stalled m hm hs (eq_of_next h)

/-- The inversion lemma of a cycle. -/
theorem cycle_next (s t : State) (h : cycle s = .next t) :
    s.cfg.wf = true ∧ s.status = .running ∧ CycleCase s t := by
  simp only [cycle] at h
  split_ifs at h with hc
  split at h
  · rename_i hr
    exact ⟨hc, hr, runCycle_next s t h⟩
  · cases h
  · cases h

/-- A cycle of a Running engine of a sound configuration is `runCycle`. -/
theorem cycle_running (s : State) (hc : s.cfg.wf = true) (hr : s.status = .running) :
    cycle s = runCycle s := by
  simp [cycle, hc, hr]

end Sys2Proof.Machine
end

