-- ==== Sys2Proof/Laws/Agreement.lean ====
section
/-! SUPPORT. Lemmas for the agreement of the two views (R229): what is in flight in the pipe, the
invariants of the cycle view, and one cycle seen from the architectural view. -/

namespace Sys2Proof.Machine

/-! ### What an instruction in flight will still do -/

/-- The register result of an instruction in `EM`: for a load still to be issued the word of `mem`. -/
def flightReg (mem : Mem) (mbusy : Nat) (mdata : Word) (m : ExecuteLatch) : Option (Reg × Word) :=
  m.dst.map fun r =>
    (r, if isLoadOp m.op then (if mbusy = 0 then memWord mem m.res.toNat else mdata)
      else if isStoreOp m.op then 0 else m.res)

/-- The flags of an instruction in `EM`. -/
def flightFlags (m : ExecuteLatch) : Option Flags :=
  if isLoadOp m.op || isStoreOp m.op then none else m.flOut

/-- Memory after an instruction in `EM`. -/
def flightMem (mem : Mem) (mbusy : Nat) (m : ExecuteLatch) : Mem :=
  if isStoreOp m.op && mbusy == 0 then writeBytes mem m.res.toNat (leBytes 4 m.sdata.toNat) else mem

/-- The record of stores after an instruction in `EM`. -/
def flightStored (stored : List Nat) (mbusy : Nat) (m : ExecuteLatch) : List Nat :=
  if isStoreOp m.op && mbusy == 0 then insertSorted m.res.toNat stored else stored

/-- What the two views are compared on. -/
structure View where
  x : Vector Word 16
  flags : Flags
  mem : Mem
  stored : List Nat
  ras : List Word
  sp : Nat
  pc : Word
  halted : Bool

/-- One more instruction in `EM` completed. -/
def View.complete (v : View) (mbusy : Nat) (mdata : Word) (m : ExecuteLatch) : View :=
  { v with
    x := commitReg v.x (flightReg v.mem mbusy mdata m)
    flags := (flightFlags m).getD v.flags
    mem := flightMem v.mem mbusy m
    stored := flightStored v.stored mbusy m }

/-- An instruction to be decoded next. -/
def nextPc (s : State) : Word :=
  match s.fd with
  | some d => d.pc
  | none => s.pc

/-- A `HALT` has been decoded. -/
def haltSeen (s : State) : Bool :=
  s.status == .halted || s.de.map DecodeLatch.op == some .halt ||
    s.em.map ExecuteLatch.op == some .halt || s.mw.map MemoryLatch.op == some .halt

/-- The view after Writeback and Memory have completed what they hold. -/
def settled (s : State) : View :=
  let v : View :=
    { x := (stageW s).x, flags := (stageW s).flags, mem := s.mem, stored := s.stored, ras := s.ras
      sp := s.sp, pc := nextPc s, halted := haltSeen s }
  match s.em with
  | some m => v.complete s.mbusy s.mdata m
  | none => v

/-- The access of a latch, if it is one, can be performed. -/
def accessOk (cfg : Config) (m : ExecuteLatch) : Prop :=
  (isLoadOp m.op || isStoreOp m.op) = true → m.res.toNat % 4 = 0 ∧ m.res.toNat + 4 ≤ cfg.memSize

/-- The view once Execute's instruction has completed too. -/
def drainedView (s : State) (e : ExecuteOut) : View :=
  match e.em with
  | some m =>
    { ((settled s).complete 0 0 m) with
      ras := e.ras, sp := e.sp, pc := e.redirect.getD (nextPc s) }
  | none => { settled s with ras := e.ras, sp := e.sp, pc := e.redirect.getD (nextPc s) }

/-- `v` is the architectural state once everything decoded has completed. -/
def Drained (s : State) (v : View) : Prop :=
  ∃ m e, stageM s = .ok m ∧ stageE s m.stored = .ok e ∧ (∀ l, e.em = some l → accessOk s.cfg l) ∧
    v = drainedView s e

/-- The addresses of the instructions in flight, oldest first. -/
def inFlight (s : State) : List Word :=
  (s.mw.map MemoryLatch.pc).toList ++ (s.em.map ExecuteLatch.pc).toList ++
    (s.de.map DecodeLatch.pc).toList

/-- An architectural state that the view describes. -/
structure Shows (cfg : Config) (u : State) (v : View) : Prop where
  cfg_eq : u.cfg = cfg
  ok : u.memorySystemOk
  x : u.x = v.x
  flags : u.flags = v.flags
  mem : u.mem = v.mem
  stored : u.stored = v.stored
  ras : u.ras = v.ras
  sp : u.sp = v.sp
  pc : u.pc = v.pc
  status : u.status = if v.halted then .halted else .running

/-- The invariants of the cycle view that the agreement rests on. -/
structure State.pipeOk (s : State) : Prop where
  memory : s.memorySystemOk
  halt : s.haltOk
  bounds : ∀ d, s.fd = some d → d.pc.toNat + 4 ≤ s.cfg.memSize
  word : ∀ d, s.fd = some d → storedOver s.stored d.pc = false → d.word = memWord s.mem d.pc.toNat
  dst : ∀ e, s.de = some e → e.dst = none ∨ isLoadOp e.op = true ∨ (aluResult e).isSome = true

/-! ### stores and instruction words -/

theorem mem_insertSorted (a k : Nat) (l : List Nat) : k ∈ insertSorted a l ↔ k = a ∨ k ∈ l := by
  induction l with
  | nil => simp [insertSorted]
  | cons b l ih =>
    simp only [insertSorted]
    split_ifs with h1 h2
    · simp
    · subst h2; simp
    · simp only [List.mem_cons, ih]; tauto

theorem storedOver_insertSorted (a : Nat) (l : List Nat) (pc : Word) :
    storedOver (insertSorted a l) pc = (storedOver [a] pc || storedOver l pc) := by
  rw [Bool.eq_iff_iff]
  simp only [storedOver, List.any_eq_true, mem_insertSorted, Bool.or_eq_true, List.mem_singleton]
  constructor
  · rintro ⟨x, rfl | hx, h⟩
    · exact .inl ⟨_, rfl, h⟩
    · exact .inr ⟨x, hx, h⟩
  · rintro (⟨x, rfl, h⟩ | ⟨x, hx, h⟩)
    · exact ⟨_, .inl rfl, h⟩
    · exact ⟨x, .inr hx, h⟩

theorem memWord_writeBytes (m : Mem) (ea : Nat) (bs : List Byte) (pc : Word)
    (hm : Memory.wf m = true) (hb : bs.length = 4) (h : storedOver [ea] pc = false) :
    memWord (writeBytes m ea bs) pc.toNat = memWord m pc.toNat := by
  simp only [memWord]
  rw [readBytes_congr]
  intro k h1 h2
  apply readByte_writeBytes_outside _ _ _ _ hm
  simp [storedOver] at h
  omega

/-! ### the memory stage -/

theorem ofNat_hierRead (s : State) (hs : s.memorySystemOk) (ea : Nat) (h : ea % 4 = 0) :
    BitVec.ofNat 32 (hierRead s.cfg s.mem s.caches ea 4).value = memWord s.mem ea := by
  rw [hierRead_value _ _ _ _ _ hs.config (by decide) h hs.coherent]; rfl

/-- What Memory hands on in a cycle without a stall is what `settled` says. -/
theorem settled_of_stageM (s : State) (hs : s.pipeOk) (m : MemoryOut) (hm : stageM s = .ok m)
    (hst : m.stall = false) :
    (settled s).x = commitReg (stageW s).x m.fwdReg ∧
    (settled s).flags = m.fwdFl.getD (stageW s).flags ∧
    (settled s).mem = m.mem ∧ (settled s).stored = m.stored ∧ m.mbusy = 0 ∧
    m.mw.map MemoryLatch.pc = s.em.map ExecuteLatch.pc ∧
    m.mw.map MemoryLatch.op = s.em.map ExecuteLatch.op := by
  have hidle : ∀ m', s.em = some m' → isLoadOp m'.op = false → isStoreOp m'.op = false →
      s.mbusy = 0 := by
    intro m' he hl hst
    by_contra hb
    obtain ⟨m'', h1, h2⟩ := hs.halt.busy hb
    rw [he] at h1
    obtain rfl := Option.some.inj h1
    simp [hl, hst] at h2
  cases stageM_ok s m hm with
  | bubble he ho =>
    subst ho
    have hb : s.mbusy = 0 := by
      by_contra hb
      obtain ⟨m'', h1, -⟩ := hs.halt.busy hb
      rw [he] at h1; cases h1
    simp [settled, he, MemoryOut.fwdReg, MemoryOut.fwdFl, commitReg, hb]
  | pass m' he hl hst' ho =>
    subst ho
    simp [settled, he, MemoryOut.fwdReg, MemoryOut.fwdFl, View.complete, flightReg, flightFlags,
      flightMem, flightStored, hl, hst', passLatch, MemoryLatch.regResult, hidle m' he hl hst']
  | count m' he hop hb ho =>
    subst ho
    have hz : s.mbusy - 1 = 0 := by simpa [accessCycle] using hst
    have hb1 : s.mbusy = 1 := by omega
    cases hl : isLoadOp m'.op <;>
    simp_all [settled, MemoryOut.fwdReg, MemoryOut.fwdFl, View.complete, flightReg, flightFlags,
      flightMem, flightStored, accessCycle, accessLatch, MemoryLatch.regResult]
  | load m' r he hop hb hr ho =>
    subst ho
    have hz : remainingCycles r.latency = 0 := by simpa [accessCycle] using hst
    obtain ⟨ha, -, rfl⟩ := dataRead_done s m'.res r hr
    have hv := ofNat_hierRead s hs.memory m'.res.toNat ha
    have hns : isStoreOp m'.op = false := by revert hop; cases m'.op <;> simp [isLoadOp, isStoreOp]
    simp [settled, he, MemoryOut.fwdReg, MemoryOut.fwdFl, View.complete, flightReg, flightFlags,
      flightMem, flightStored, accessCycle, accessLatch, MemoryLatch.regResult, hz, hop, hb, hv, hns]
  | store m' r he hl hop hb hr ho =>
    subst ho
    have hz : remainingCycles r.latency = 0 := by simpa [accessCycle] using hst
    obtain ⟨ha, -, hreq⟩ := dataWrite_done s m'.res m'.sdata r hr
    have hmem : r.mem = writeBytes s.mem m'.res.toNat (leBytes 4 m'.sdata.toNat) := by
      rw [hreq]; rfl
    simp [hmem, settled, he, MemoryOut.fwdReg, MemoryOut.fwdFl, View.complete, flightReg, flightFlags,
      flightMem, flightStored, accessCycle, accessLatch, MemoryLatch.regResult, hz, hop, hb, hl]

/-- A stalled cycle changes nothing that is still to come. -/
theorem settled_of_stall (s : State) (hs : s.pipeOk) (m : MemoryOut) (hm : stageM s = .ok m)
    (hst : m.stall = true) (hr : s.status = .running) :
    settled (((s.afterW (stageW s)).afterM m).endStalled (stageW s) m) = settled s ∧ m.mw = none ∧
      ∃ l, s.em = some l ∧ (isLoadOp l.op || isStoreOp l.op) = true := by
  have hnotmw : ∀ l, s.em = some l → (stageW s).halted = false := by
    intro l hl
    by_contra h
    have h : (stageW s).halted = true := by simpa using h
    rw [stageW_halted] at h
    obtain ⟨w, hw, ho⟩ := h
    have := (hs.halt.inMw w hw ho).1
    rw [hl] at this; cases this
  have hmwnot : ∀ l, s.em = some l → (s.mw.map MemoryLatch.op == some .halt) = false := by
    intro l hl
    have h1 := hnotmw l hl
    cases hmw : s.mw with
    | none => rfl
    | some w =>
      simp [stageW, hmw] at h1 ⊢
      exact h1
  have key : ∀ l, s.em = some l → m.mw = none →
      (stageW ((((s.afterW (stageW s)).afterM m).endStalled (stageW s) m))).x = (stageW s).x ∧
      (stageW ((((s.afterW (stageW s)).afterM m).endStalled (stageW s) m))).flags = (stageW s).flags ∧
      haltSeen ((((s.afterW (stageW s)).afterM m).endStalled (stageW s) m)) = haltSeen s := by
    intro l hl hw
    have hh := hnotmw l hl
    have h2 := hmwnot l hl
    refine ⟨by simp [stageW, State.endStalled, hw, State.afterM, State.afterW],
      by simp [stageW, State.endStalled, hw, State.afterM, State.afterW], ?_⟩
    simp only [haltSeen, h2]
    simp [State.endStalled, hw, State.afterM, State.afterW, hh, endStatus, hr]
  cases stageM_ok s m hm with
  | bubble he ho => subst ho; cases hst
  | pass m' he hl hst' ho => subst ho; cases hst
  | count m' he hop hb ho =>
    have hz : s.mbusy - 1 ≠ 0 := by subst ho; simpa [accessCycle] using hst
    have hmw : m.mw = none := by subst ho; simp [accessCycle, hz]
    obtain ⟨k1, k2, k3⟩ := key m' he hmw
    refine ⟨?_, hmw, m', he, hop⟩
    simp only [settled, k1, k2, k3]
    subst ho
    cases hl : isLoadOp m'.op <;> cases hst2 : isStoreOp m'.op <;> simp [hl, hst2] at hop <;>
    simp [State.endStalled, State.afterM, State.afterW, he, View.complete, flightReg, flightFlags,
      flightMem, flightStored, accessCycle, nextPc, hz, hb, hl, hst2]
  | load m' r he hop hb hrd ho =>
    have hz : remainingCycles r.latency ≠ 0 := by subst ho; simpa [accessCycle] using hst
    have hmw : m.mw = none := by subst ho; simp [accessCycle, hz]
    obtain ⟨k1, k2, k3⟩ := key m' he hmw
    refine ⟨?_, hmw, m', he, by simp [hop]⟩
    simp only [settled, k1, k2, k3]
    subst ho
    obtain ⟨ha, -, rfl⟩ := dataRead_done s m'.res r hrd
    have hv := ofNat_hierRead s hs.memory m'.res.toNat ha
    have hns : isStoreOp m'.op = false := by revert hop; cases m'.op <;> simp [isLoadOp, isStoreOp]
    simp [State.endStalled, State.afterM, State.afterW, he, View.complete, flightReg, flightFlags,
      flightMem, flightStored, accessCycle, nextPc, hz, hb, hop, hv, hns]
  | store m' r he hl hop hb hrd ho =>
    have hz : remainingCycles r.latency ≠ 0 := by subst ho; simpa [accessCycle] using hst
    have hmw : m.mw = none := by subst ho; simp [accessCycle, hz]
    obtain ⟨k1, k2, k3⟩ := key m' he hmw
    refine ⟨?_, hmw, m', he, by simp [hop]⟩
    simp only [settled, k1, k2, k3]
    subst ho
    obtain ⟨ha, -, hreq⟩ := dataWrite_done s m'.res m'.sdata r hrd
    have hmem : r.mem = writeBytes s.mem m'.res.toNat (leBytes 4 m'.sdata.toNat) := by
      rw [hreq]; rfl
    simp [hmem, State.endStalled, State.afterM, State.afterW, he, View.complete, flightReg, flightFlags,
      flightMem, flightStored, accessCycle, nextPc, hz, hb, hop, hl]

/-! ### One instruction, in both views -/

/-- The latch that Decode would make of an instruction in an architectural state. -/
def latchOf (u : State) (i : Instr) : DecodeLatch :=
  { pc := u.pc, op := i.op, dst := dstOf i
    a := (operandsOf u.readReg i).1, b := (operandsOf u.readReg i).2
    flIn := if readsFlagsOp i.op then u.flags else { eq := false, lt := false, le := false }
    target := (targetOf i).getD 0 }

/-- `t` is what an instruction makes of `u`, given what Execute makes of its latch. -/
structure Completes (u t : State) (o : ExecuteOut) (m : ExecuteLatch) : Prop where
  cfg : t.cfg = u.cfg
  x : t.x = commitReg u.x (flightReg u.mem 0 0 m)
  flags : t.flags = (flightFlags m).getD u.flags
  mem : t.mem = flightMem u.mem 0 m
  stored : t.stored = flightStored u.stored 0 m
  ras : t.ras = o.ras
  sp : t.sp = o.sp
  pc : t.pc = o.redirect.getD (nextWordAddress u.pc)
  status : t.status = if m.op == .halt then .halted else u.status

theorem loadWord_completes (u : State) (ra : Reg) (ea : Word) (m : ExecuteLatch)
    (hs : u.memorySystemOk) (hm : m.dst = some ra) (hop : isLoadOp m.op = true) (hr : m.res = ea)
    (ha : accessOk u.cfg m) (o : ExecuteOut) (h1 : o.ras = u.ras) (h2 : o.sp = u.sp)
    (h3 : o.redirect = none) :
    ∃ t, loadWord ra ea u = .next t ∧ Completes u t o m := by
  subst hr
  obtain ⟨ha1, ha2⟩ := ha (by simp [hop])
  refine ⟨_, by rw [loadWord, dataRead_of_aligned u m.res ha1 ha2], ?_⟩
  have hv := ofNat_hierRead u hs m.res.toNat ha1
  have hns : isStoreOp m.op = false := by revert hop; cases m.op <;> simp [isLoadOp, isStoreOp]
  have hnh : (m.op == .halt) = false := by
    revert hop; cases m.op <;> simp [isLoadOp]
  constructor <;>
    simp [flightReg, flightFlags, flightMem, flightStored, hm, hop, hns, hnh, hv, commitReg, h1, h2, h3,
      State.advance]

theorem storeWord_completes (u : State) (v ea : Word) (m : ExecuteLatch)
    (hm : m.dst = none) (hop : isStoreOp m.op = true) (hr : m.res = ea) (hv : m.sdata = v)
    (ha : accessOk u.cfg m) (o : ExecuteOut) (h1 : o.ras = u.ras) (h2 : o.sp = u.sp)
    (h3 : o.redirect = none) :
    ∃ t, storeWord v ea u = .next t ∧ Completes u t o m := by
  subst hr hv
  obtain ⟨ha1, ha2⟩ := ha (by simp [hop])
  refine ⟨_, by rw [storeWord, dataWrite_of_aligned u m.res _ ha1 ha2], ?_⟩
  have hnh : (m.op == .halt) = false := by
    revert hop; cases m.op <;> simp [isStoreOp]
  constructor <;>
    simp [flightReg, flightFlags, flightMem, flightStored, hm, hop, hnh, commitReg, h1, h2, h3,
      State.advance, hierWrite]

theorem aluRegisters_completes (u : State) (f : Word → Word → Word) (ra rb rc : Reg) (o : ExecuteOut)
    (m : ExecuteLatch) (hm : m.dst = some ra) (hr : m.res = f (u.readReg rb) (u.readReg rc))
    (hop : (isLoadOp m.op || isStoreOp m.op) = false) (hf : m.flOut = none)
    (hnh : (m.op == .halt) = false)
    (h1 : o.ras = u.ras) (h2 : o.sp = u.sp) (h3 : o.redirect = none) :
    ∃ t, aluRegisters f ra rb rc u = .next t ∧ Completes u t o m := by
  simp only [Bool.or_eq_false_iff] at hop
  refine ⟨_, rfl, ?_⟩
  constructor <;>
    simp [flightReg, flightFlags, flightMem, flightStored, hm, hop, hnh, hr, hf, commitReg, h1, h2, h3,
      State.advance]

theorem exec_completes (u : State) (i : Instr) (o : ExecuteOut) (m : ExecuteLatch)
    (hs : u.memorySystemOk) (h : executeOp u (latchOf u i) = .ok o) (hm : o.em = some m)
    (ha : accessOk u.cfg m) : ∃ t, exec i u = .next t ∧ Completes u t o m := by
  have hjump : ∀ (taken : Bool) (target : Word) (l : DecodeLatch),
      executeJump u l taken = o → l.target = target → l.dst = none → isLoadOp l.op = false →
      isStoreOp l.op = false → l.op ≠ .halt →
      ∃ t, jumpIf taken target u = .next t ∧ Completes u t o m := by
    intro taken target l ho ht hd h1 h2 h3
    subst ho
    simp only [executeJump, Option.some.injEq] at hm
    subst hm
    refine ⟨_, rfl, ?_⟩
    cases taken <;> constructor <;>
      simp [flightReg, flightFlags, flightMem, flightStored, executeLatch, executeJump, hd, h1, h2, h3,
        commitReg, State.advance, ht]
  cases i with
  | addi ra rb rc =>
    obtain rfl := ok_inj h
    obtain rfl := Option.some.inj hm
    exact aluRegisters_completes u _ ra rb rc _ _ rfl rfl rfl rfl rfl rfl rfl rfl
  | subi ra rb rc =>
    obtain rfl := ok_inj h
    obtain rfl := Option.some.inj hm
    exact aluRegisters_completes u _ ra rb rc _ _ rfl rfl rfl rfl rfl rfl rfl rfl
  | andi ra rb rc =>
    obtain rfl := ok_inj h
    obtain rfl := Option.some.inj hm
    exact aluRegisters_completes u _ ra rb rc _ _ rfl rfl rfl rfl rfl rfl rfl rfl
  | ori ra rb rc =>
    obtain rfl := ok_inj h
    obtain rfl := Option.some.inj hm
    exact aluRegisters_completes u _ ra rb rc _ _ rfl rfl rfl rfl rfl rfl rfl rfl
  | xori ra rb rc =>
    obtain rfl := ok_inj h
    obtain rfl := Option.some.inj hm
    exact aluRegisters_completes u _ ra rb rc _ _ rfl rfl rfl rfl rfl rfl rfl rfl
  | shli ra rb rc =>
    obtain rfl := ok_inj h
    obtain rfl := Option.some.inj hm
    exact aluRegisters_completes u _ ra rb rc _ _ rfl rfl rfl rfl rfl rfl rfl rfl
  | shri ra rb rc =>
    obtain rfl := ok_inj h
    obtain rfl := Option.some.inj hm
    exact aluRegisters_completes u _ ra rb rc _ _ rfl rfl rfl rfl rfl rfl rfl rfl
  | addu ra rb rc =>
    obtain rfl := ok_inj h
    obtain rfl := Option.some.inj hm
    exact aluRegisters_completes u _ ra rb rc _ _ rfl rfl rfl rfl rfl rfl rfl rfl
  | subu ra rb rc =>
    obtain rfl := ok_inj h
    obtain rfl := Option.some.inj hm
    exact aluRegisters_completes u _ ra rb rc _ _ rfl rfl rfl rfl rfl rfl rfl rfl
  | shru ra rb rc =>
    obtain rfl := ok_inj h
    obtain rfl := Option.some.inj hm
    exact aluRegisters_completes u _ ra rb rc _ _ rfl rfl rfl rfl rfl rfl rfl rfl
  | addim ra imm =>
    obtain rfl := ok_inj h
    obtain rfl := Option.some.inj hm
    refine ⟨_, rfl, ?_⟩
    constructor <;> rfl
  | cmp32 rb rc =>
    obtain rfl := ok_inj h
    obtain rfl := Option.some.inj hm
    refine ⟨_, rfl, ?_⟩
    constructor <;> rfl
  | ld32 ra addr =>
    obtain rfl := ok_inj h
    obtain rfl := Option.some.inj hm
    exact loadWord_completes u ra _ _ hs rfl rfl rfl ha _ rfl rfl rfl
  | ldin32 ra rb =>
    obtain rfl := ok_inj h
    obtain rfl := Option.some.inj hm
    exact loadWord_completes u ra _ _ hs rfl rfl rfl ha _ rfl rfl rfl
  | st32 ra addr =>
    obtain rfl := ok_inj h
    obtain rfl := Option.some.inj hm
    exact storeWord_completes u _ _ _ rfl rfl rfl rfl ha _ rfl rfl rfl
  | stin32 ra rb =>
    obtain rfl := ok_inj h
    obtain rfl := Option.some.inj hm
    exact storeWord_completes u _ _ _ rfl rfl rfl rfl ha _ rfl rfl rfl
  | jmp target =>
    exact hjump true target _ (ok_inj h).symm rfl rfl rfl rfl (by simp [latchOf, Instr.op])
  | je target =>
    exact hjump _ target _ (ok_inj h).symm rfl rfl rfl rfl (by simp [latchOf, Instr.op])
  | jne target =>
    exact hjump _ target _ (ok_inj h).symm rfl rfl rfl rfl (by simp [latchOf, Instr.op])
  | jlt target =>
    exact hjump _ target _ (ok_inj h).symm rfl rfl rfl rfl (by simp [latchOf, Instr.op])
  | jle target =>
    exact hjump _ target _ (ok_inj h).symm rfl rfl rfl rfl (by simp [latchOf, Instr.op])
  | jgt target =>
    exact hjump _ target _ (ok_inj h).symm rfl rfl rfl rfl (by simp [latchOf, Instr.op])
  | jge target =>
    exact hjump _ target _ (ok_inj h).symm rfl rfl rfl rfl (by simp [latchOf, Instr.op])
  | call target =>
    change executeCall u _ = .ok o at h
    simp only [executeCall] at h
    split_ifs at h with hf
    obtain rfl := ok_inj h
    obtain rfl := Option.some.inj hm
    refine ⟨_, by simp only [exec, execCall, hf]; rfl, ?_⟩
    constructor <;> rfl
  | ret =>
    change executeRet u _ = .ok o at h
    simp only [executeRet] at h
    split_ifs at h with hf
    obtain rfl := ok_inj h
    obtain rfl := Option.some.inj hm
    refine ⟨_, by simp only [exec, execRet, hf]; rfl, ?_⟩
    constructor <;> rfl
  | halt =>
    obtain rfl := ok_inj h
    obtain rfl := Option.some.inj hm
    refine ⟨_, rfl, ?_⟩
    constructor <;> rfl

/-- An instruction keeps the memory system legal. -/
theorem effect_memorySystemOk (i : Instr) (s t : State) (hs : s.memorySystemOk) (h : Effect i s t) :
    t.memorySystemOk := by
  cases h with
  | load ra ea r hd hl he hr ht =>
    subst ht
    exact memorySystemOk_congr _ _ (memorySystemOk_afterRead s ea r hs hr) rfl rfl rfl
  | store ra ea r hst he hr ht =>
    subst ht
    exact memorySystemOk_congr _ _ (memorySystemOk_afterWrite s ea _ r hs hr) rfl rfl rfl
  | register | flags | taken | notTaken | call | ret | halt | fault =>
    subst_vars; exact memorySystemOk_congr _ _ hs rfl rfl rfl

/-! ### Decode reads what the architectural view holds -/

theorem operandsOf_congr (rd rd' : Reg → Word) (i : Instr) (h : ∀ r ∈ srcsOf i, rd r = rd' r) :
    operandsOf rd i = operandsOf rd' i := by
  cases i <;> simp_all [srcsOf, operandsOf, indirectAddress]

theorem executeOp_congr (s u : State) (e : DecodeLatch) (h1 : s.cfg = u.cfg) (h2 : s.ras = u.ras)
    (h3 : s.sp = u.sp) : executeOp s e = executeOp u e := by
  cases hop : e.op <;>
    simp [executeOp, hop, executeAlu, executeCompare, executeAccess, executeJump, executeCall,
      executeRet, State.rasFull, State.rasEmpty, State.rasTop, h1, h2, h3]

/-- What Execute makes of a latch: its `EM'`, and what it forwards. -/
structure Executed (s : State) (e : DecodeLatch) (o : ExecuteOut) (m : ExecuteLatch) : Prop where
  em : o.em = some m
  pc : m.pc = e.pc
  op : m.op = e.op
  dst : m.dst = e.dst
  /-- An instruction that is no load forwards its result, or has none. -/
  reg : isLoadOp e.op = false → (e.dst = none ∨ isLoadOp e.op = true ∨ (aluResult e).isSome = true) →
    o.fwdReg = flightReg [] 0 0 m
  fl : o.fwdFl = flightFlags m
  /-- Only a transfer redirects. -/
  halt : e.op = .halt → o.redirect = none

theorem executeOp_executed (s : State) (e : DecodeLatch) (o : ExecuteOut)
    (h : executeOp s e = .ok o) : ∃ m, Executed s e o m := by
  obtain ⟨pc, op, dst, a, b, flIn, target⟩ := e
  cases op with
  | call =>
    change executeCall s _ = .ok o at h
    simp only [executeCall] at h
    split_ifs at h with hf
    obtain rfl := ok_inj h
    refine ⟨_, rfl, rfl, rfl, rfl, ?_, rfl, by simp⟩
    intro _ hd
    simp [aluResult, isLoadOp] at hd
    simp [hd, flightReg, executeLatch]
  | ret =>
    change executeRet s _ = .ok o at h
    simp only [executeRet] at h
    split_ifs at h with hf
    obtain rfl := ok_inj h
    refine ⟨_, rfl, rfl, rfl, rfl, ?_, rfl, by simp⟩
    intro _ hd
    simp [aluResult, isLoadOp] at hd
    simp [hd, flightReg, executeLatch]
  | addi | subi | andi | ori | xori | shli | shri | addu | subu | shru | addim =>
    obtain rfl := ok_inj h
    exact ⟨_, rfl, rfl, rfl, rfl, fun _ _ => rfl, rfl, by simp⟩
  | cmp32 | ld32 | ldin32 | st32 | stin32 | jmp | je | jne | jlt | jle | jgt | jge | halt =>
    obtain rfl := ok_inj h
    refine ⟨_, rfl, rfl, rfl, rfl, ?_, rfl, by simp [executeJump]⟩
    intro h1 hd
    simp [aluResult, isLoadOp] at h1 hd
    try simp [hd, flightReg, executeLatch, executeCompare, executeAccess, executeJump]

theorem flightReg_notLoad (mem mem' : Mem) (b b' : Nat) (d d' : Word) (m : ExecuteLatch)
    (h : isLoadOp m.op = false) : flightReg mem b d m = flightReg mem' b' d' m := by
  simp [flightReg, h]

theorem flightReg_fst (mem : Mem) (b : Nat) (d : Word) (m : ExecuteLatch) :
    (flightReg mem b d m).map Prod.fst = m.dst := by
  cases hd : m.dst <;> simp [flightReg, hd]

theorem commitReg_get' (x : Vector Word 16) (o : Option (Reg × Word)) (q : Reg) :
    (commitReg x o)[q.val] = forwardedReg q x[q.val] [o] := by
  rw [commitReg_get]
  rcases o with _ | ⟨r, v⟩ <;> simp [forwardedReg]

theorem forwardedReg_append (q : Reg) (d : Word) (l l' : List (Option (Reg × Word))) :
    forwardedReg q d (l ++ l') = forwardedReg q (forwardedReg q d l') l := by
  induction l with
  | nil => rfl
  | cons o l ih =>
    rcases o with _ | ⟨r, v⟩
    · simpa [forwardedReg] using ih
    · simp only [List.cons_append, forwardedReg, ih]

/-- Without a stall and without a load-use hazard, Decode reads the value that the register will
hold once everything ahead has completed (R220). -/
theorem rd_eq (s : State) (hs : s.pipeOk) (m : MemoryOut) (o : ExecuteOut) (hm : stageM s = .ok m)
    (hst : m.stall = false) (he : stageE s m.stored = .ok o) (r : Reg)
    (hr : ∀ e, s.de = some e → isLoadOp e.op = true → e.dst ≠ some r) :
    (forwardsOf (stageW s) m o).rd s r =
      match o.em with
      | some m' => (commitReg (settled s).x (flightReg (settled s).mem 0 0 m'))[r.val]
      | none => (settled s).x[r.val] := by
  obtain ⟨hx, -, -, -, -, -, -⟩ := settled_of_stageM s hs m hm hst
  have hbase : forwardedReg r (s.readReg r) [m.fwdReg, (stageW s).fwdReg] = (settled s).x[r.val] := by
    rw [hx, commitReg_get', stageW_x]
    rw [commitReg_get']
    have : (stageW s).fwdReg = s.mw.bind MemoryLatch.regResult := by
      simp only [stageW]; split <;> rename_i h <;> simp [h]
    rw [this]
    exact forwardedReg_append r _ [_] [_]
  simp only [Forwards.rd, forwardsOf]
  rw [show [o.fwdReg, m.fwdReg, (stageW s).fwdReg] = [o.fwdReg] ++ [m.fwdReg, (stageW s).fwdReg] from rfl,
    forwardedReg_append, hbase]
  rcases stageE_inv s _ o he with ⟨-, rfl⟩ | ⟨e, hd, -, hex⟩
  · rfl
  · obtain ⟨m', hx'⟩ := executeOp_executed s e o hex
    rw [hx'.em]
    simp only
    rw [commitReg_get']
    by_cases hl : isLoadOp e.op = true
    · have h1 := hr e hd hl
      have : o.fwdReg = none := by
        cases stageE_ok s _ o he with
        | access e' sdata hd' hop hs' ho => subst ho; rfl
        | bubble hd' ho => subst ho; rfl
        | compare e' hd' hop ho => subst ho; rfl
        | jump e' t hd' hop ho => subst ho; rfl
        | call e' hd' hop hf ho => subst ho; rfl
        | ret e' hd' hop hf ho => subst ho; rfl
        | alu e' res hd' hres ho =>
          rw [hd] at hd'; obtain rfl := Option.some.inj hd'
          exfalso
          revert hl hres
          simp only [aluResult]
          cases e.op <;> simp [isLoadOp]
      rw [this]
      cases hdd : m'.dst with
      | none => simp [flightReg, hdd, forwardedReg]
      | some q =>
        have : q ≠ r := by rintro rfl; exact h1 (by rw [← hx'.dst, hdd])
        simp [flightReg, hdd, forwardedReg, this]
    · have hl : isLoadOp e.op = false := by simpa using hl
      rw [hx'.reg hl (hs.dst e hd), flightReg_notLoad [] (settled s).mem 0 0 0 0 m' (by rw [hx'.op, hl])]

/-- The same for the flags (R221). -/
theorem rdFlags_eq (s : State) (hs : s.pipeOk) (m : MemoryOut) (o : ExecuteOut) (hm : stageM s = .ok m)
    (hst : m.stall = false) (he : stageE s m.stored = .ok o) :
    (forwardsOf (stageW s) m o).rdFlags s =
      match o.em with
      | some m' => (flightFlags m').getD (settled s).flags
      | none => (settled s).flags := by
  obtain ⟨-, hf, -, -, -, -, -⟩ := settled_of_stageM s hs m hm hst
  have hbase : forwardedFlags s.flags [m.fwdFl, (stageW s).fwdFl] = (settled s).flags := by
    rw [hf]
    have : forwardedFlags s.flags [(stageW s).fwdFl] = (stageW s).flags := by
      simp only [stageW]; split
      · rfl
      · rename_i w h; cases w.flOut <;> simp [forwardedFlags]
    cases m.fwdFl <;> simp [forwardedFlags]
    exact this
  have hcons : ∀ o', forwardedFlags s.flags [o', m.fwdFl, (stageW s).fwdFl] = o'.getD (settled s).flags := by
    intro o'; rw [← hbase]; cases o' <;> rfl
  simp only [Forwards.rdFlags, forwardsOf]
  rw [hcons]
  rcases stageE_inv s _ o he with ⟨-, rfl⟩ | ⟨e, hd, -, hex⟩
  · rfl
  · obtain ⟨m', hx'⟩ := executeOp_executed s e o hex
    rw [hx'.em, hx'.fl]

/-! ### The invariants of the cycle view -/

theorem stageM_memory (s : State) (m : MemoryOut) (hs : s.memorySystemOk) (hm : stageM s = .ok m) :
    (s.afterM m).memorySystemOk ∧
      ∀ pc : Word, storedOver m.stored pc = false →
        storedOver s.stored pc = false ∧ memWord m.mem pc.toNat = memWord s.mem pc.toNat := by
  cases stageM_ok s m hm with
  | bubble he ho => subst ho; exact ⟨memorySystemOk_congr _ _ hs rfl rfl rfl, fun pc h => ⟨h, rfl⟩⟩
  | pass m' he hl hst ho =>
    subst ho; exact ⟨memorySystemOk_congr _ _ hs rfl rfl rfl, fun pc h => ⟨h, rfl⟩⟩
  | count m' he hop hb ho =>
    subst ho; exact ⟨memorySystemOk_congr _ _ hs rfl rfl rfl, fun pc h => ⟨h, rfl⟩⟩
  | load m' r he hop hb hr ho =>
    subst ho
    exact ⟨memorySystemOk_congr _ _ (memorySystemOk_afterRead s _ r hs hr) rfl rfl rfl,
      fun pc h => ⟨h, rfl⟩⟩
  | store m' r he hl hop hb hr ho =>
    subst ho
    refine ⟨memorySystemOk_congr _ _ (memorySystemOk_afterWrite s _ _ r hs hr) rfl rfl rfl,
      fun pc h => ?_⟩
    obtain ⟨-, -, hreq⟩ := dataWrite_done s m'.res m'.sdata r hr
    simp only [accessCycle, storedOver_insertSorted, Bool.or_eq_false_iff] at h ⊢
    refine ⟨h.2, ?_⟩
    rw [hreq]
    exact memWord_writeBytes s.mem _ _ pc hs.memory.1 (by simp) h.1

theorem memorySystemOk_stalled (s : State) (m : MemoryOut) (hs : s.memorySystemOk)
    (hm : stageM s = .ok m) :
    (((s.afterW (stageW s)).afterM m).endStalled (stageW s) m).memorySystemOk :=
  memorySystemOk_congr _ _ (stageM_memory s m hs hm).1 rfl rfl rfl

theorem memorySystemOk_moved (s : State) (m : MemoryOut) (e : ExecuteOut) (d : DecodeOut)
    (f : FetchOut) (hs : s.memorySystemOk) (hm : stageM s = .ok m) :
    ((((s.afterW (stageW s)).afterM m).afterE e).endMoved (stageW s) m e d f).memorySystemOk :=
  memorySystemOk_congr _ _ (stageM_memory s m hs hm).1 rfl rfl rfl

/-- A stalled cycle keeps the bookkeeping of `HALT`. -/
theorem haltOk_stalled (s : State) (m : MemoryOut) (hs : s.haltOk) (hm : stageM s = .ok m)
    (hst : m.stall = true) :
    (((s.afterW (stageW s)).afterM m).endStalled (stageW s) m).haltOk := by
  obtain ⟨l, hl, hop, hmw⟩ : ∃ l, s.em = some l ∧ (isLoadOp l.op || isStoreOp l.op) = true ∧
      m.mw = none := by
    cases stageM_ok s m hm with
    | bubble he ho => subst ho; cases hst
    | pass m' he hl hst' ho => subst ho; cases hst
    | count m' he hop hb ho =>
      subst ho; exact ⟨m', he, hop, by simp_all [accessCycle]⟩
    | load m' r he hop hb hr ho =>
      subst ho; exact ⟨m', he, by simp [hop], by simp_all [accessCycle]⟩
    | store m' r he hl hop hb hr ho =>
      subst ho; exact ⟨m', he, by simp [hop], by simp_all [accessCycle]⟩
  have hnh : (stageW s).halted = false := by
    by_contra h
    have h : (stageW s).halted = true := by simpa using h
    rw [stageW_halted] at h
    obtain ⟨w, hw, ho⟩ := h
    have := (hs.inMw w hw ho).1
    rw [hl] at this; cases this
  constructor
  · exact fun d hd => hs.fetched d hd
  · exact fun e he ho => hs.inDe e he ho
  · intro m' he ho
    have he : s.em = some m' := he
    rw [hl] at he; obtain rfl := Option.some.inj he
    simp [ho, isLoadOp, isStoreOp] at hop
  · intro w hw
    have hw : m.mw = some w := hw
    rw [hmw] at hw; cases hw
  · exact fun _ => ⟨l, hl, hop⟩
  · intro h
    have h : endStatus (stageW s).halted = .halted := h
    rw [hnh] at h; cases h

theorem op_halt_iff (w : Word) (i : Instr) (h : decode w = .ok i) :
    i.op = .halt ↔ opField w = Opcode.halt.byte := by
  obtain ⟨op, hop, rfl⟩ := decode_ok w i h
  rw [op_buildInstr, hop]
  exact ⟨fun e => by rw [e], fun e => Opcode.byte_injective _ _ e⟩

/-- A moving cycle keeps the bookkeeping of `HALT`. -/
theorem haltOk_moved (s : State) (m : MemoryOut) (e : ExecuteOut) (d : DecodeOut) (f : FetchOut)
    (hs : s.haltOk) (hm : stageM s = .ok m) (hst : m.stall = false) (he : stageE s m.stored = .ok e)
    (hd : stageD s (forwardsOf (stageW s) m e) e.redirect = .ok d)
    (hf : stageF s e.redirect d.stall = .ok f) :
    ((((s.afterW (stageW s)).afterM m).afterE e).endMoved (stageW s) m e d f).haltOk := by
  have hmw : m.mbusy = 0 ∧ m.mw.map MemoryLatch.op = s.em.map ExecuteLatch.op ∧
      m.mw.map MemoryLatch.pc = s.em.map ExecuteLatch.pc := by
    have hidle : ∀ m', s.em = some m' → (isLoadOp m'.op || isStoreOp m'.op) = false → s.mbusy = 0 := by
      intro m' he hl
      by_contra hb
      obtain ⟨m'', h1, h2⟩ := hs.busy hb
      rw [he] at h1
      obtain rfl := Option.some.inj h1
      simp [hl] at h2
    cases stageM_ok s m hm with
    | bubble hq ho =>
      subst ho
      refine ⟨?_, by simp [hq], by simp [hq]⟩
      by_contra hb
      obtain ⟨m'', h1, -⟩ := hs.busy hb
      rw [hq] at h1; cases h1
    | pass m' hq hl hst' ho =>
      subst ho; exact ⟨hidle m' hq (by simp [hl, hst']), by simp [hq, passLatch], by simp [hq, passLatch]⟩
    | count m' hq hop hb ho => subst ho; simp_all [accessCycle, accessLatch]
    | load m' r hq hop hb hr ho => subst ho; simp_all [accessCycle, accessLatch]
    | store m' r hq hl hop hb hr ho => subst ho; simp_all [accessCycle, accessLatch]
  have hem : e.em.map ExecuteLatch.op = s.de.map DecodeLatch.op ∧
      e.em.map ExecuteLatch.pc = s.de.map DecodeLatch.pc ∧
      ∀ l, s.de = some l → l.op = .halt → e.redirect = none := by
    rcases stageE_inv s _ e he with ⟨h, rfl⟩ | ⟨l, h, -, hex⟩
    · simp [h]
    · obtain ⟨m', hx⟩ := executeOp_executed s l e hex
      refine ⟨by simp [h, hx.em, hx.op], by simp [h, hx.em, hx.pc], fun l' hl' ho => ?_⟩
      rw [h] at hl'; obtain rfl := Option.some.inj hl'
      exact hx.halt ho
  -- behind a HALT in flight nothing is decoded and pc rests
  have hstop : s.fd = none → e.redirect = none → fetchStop s = true →
      d.de = none ∧ f.fd = none ∧ f.pc = s.pc := by
    intro h1 h2 h3
    cases stageD_ok s _ _ d hd with
    | nothing h ho =>
      subst ho
      refine ⟨rfl, ?_⟩
      cases stageF_ok s _ _ f hf with
      | held hl ho => cases hl
      | redirected t hl hr ho => rw [h2] at hr; cases hr
      | stopped hl hr hstp ho => subst ho; exact ⟨rfl, rfl⟩
      | fetched hl hr hstp hb _ ho => rw [h3] at hstp; cases hstp
    | stalled d' i hr hd' hi hu ho => rw [h1] at hd'; cases hd'
    | decoded d' i hr hd' hi hu ho => rw [h1] at hd'; cases hd'
  constructor
  · intro d' hd'
    have hd' : f.fd = some d' := hd'
    show f.pc = _
    cases stageF_ok s _ _ f hf with
    | held hl ho => subst ho; exact hs.fetched d' hd'
    | redirected t hl hr ho => subst ho; cases hd'
    | stopped hl hr hstp ho => subst ho; cases hd'
    | fetched hl hr hstp hb _ ho => subst ho; obtain rfl := Option.some.inj hd'; rfl
  · intro l hl ho
    have hl : d.de = some l := hl
    show f.fd = none ∧ f.pc = _
    cases stageD_ok s _ _ d hd with
    | nothing h ho' => subst ho'; cases hl
    | stalled d' i hr hd' hi hu ho' => subst ho'; cases hl
    | decoded d' i hr hd' hi hu ho' =>
      subst ho'
      obtain rfl := Option.some.inj hl
      have hop : opField d'.word = Opcode.halt.byte := (op_halt_iff _ i hi).1 ho
      have hstp : fetchStop s = true := by simp [fetchStop, hd', hop]
      have hpc := hs.fetched d' hd'
      cases stageF_ok s _ _ f hf with
      | held hl ho => cases hl
      | redirected t hl hr' ho => rw [hr] at hr'; cases hr'
      | stopped hl hr hstp ho => subst ho; exact ⟨rfl, hpc⟩
      | fetched hl hr hstp' hb _ ho => rw [hstp] at hstp'; cases hstp'
  · intro l hl ho
    have hl : e.em = some l := hl
    show d.de = none ∧ f.fd = none ∧ f.pc = _
    obtain ⟨h1, h2, h3⟩ := hem
    cases hde : s.de with
    | none => rw [hl, hde] at h1; cases h1
    | some l' =>
      rw [hl, hde] at h1 h2
      have h1 : l.op = l'.op := Option.some.inj h1
      have h2 : l.pc = l'.pc := Option.some.inj h2
      obtain ⟨a1, a2⟩ := hs.inDe l' hde (by rw [← h1, ho])
      obtain ⟨b1, b2, b3⟩ := hstop a1 (h3 l' hde (by rw [← h1, ho]))
        (by simp [fetchStop, hde, ← h1, ho])
      exact ⟨b1, b2, by rw [b3, a2, h2]⟩
  · intro w hw ho
    have hw : m.mw = some w := hw
    show e.em = none ∧ d.de = none ∧ f.fd = none ∧ f.pc = _
    obtain ⟨-, h1, h2⟩ := hmw
    cases hee : s.em with
    | none => rw [hw, hee] at h1; cases h1
    | some l =>
      rw [hw, hee] at h1 h2
      have h1 : w.op = l.op := Option.some.inj h1
      have h2 : w.pc = l.pc := Option.some.inj h2
      obtain ⟨a0, a1, a2⟩ := hs.inEm l hee (by rw [← h1, ho])
      have hr : e.redirect = none ∧ e.em = none := by
        simp only [stageE, a0] at he; obtain rfl := ok_inj he; exact ⟨rfl, rfl⟩
      obtain ⟨b1, b2, b3⟩ := hstop a1 hr.1 (by simp [fetchStop, hee, ← h1, ho])
      exact ⟨hr.2, b1, b2, by rw [b3, a2, h2]⟩
  · intro hb
    exact absurd hmw.1 hb
  · intro hh
    have hh : endStatus (stageW s).halted = .halted := hh
    have hh : (stageW s).halted = true := by
      cases hx : (stageW s).halted
      · rw [hx] at hh; cases hh
      · rfl
    rw [stageW_halted] at hh
    obtain ⟨w, hw, ho⟩ := hh
    obtain ⟨a0, a1, a2, a3⟩ := hs.inMw w hw ho
    have hr : e.redirect = none ∧ e.em = none := by
      simp only [stageE, a1] at he; obtain rfl := ok_inj he; exact ⟨rfl, rfl⟩
    obtain ⟨b1, b2, b3⟩ := hstop a2 hr.1 (by simp [fetchStop, hw, ho])
    refine ⟨b2, b1, hr.2, ?_, hmw.1⟩
    have := hmw.2.1
    rw [a0] at this
    show m.mw = none
    simpa using this

/-- A cycle that is no fault keeps the invariants. -/
theorem pipeOk_cycle (s t : State) (hs : s.pipeOk) (h : cycle s = .next t)
    (hf : ∀ f, t.status ≠ .faulted f) : t.pipeOk := by
  obtain ⟨hc, hr, hcase⟩ := cycle_next s t h
  cases hcase with
  | stalled m hm hst ht =>
    subst ht
    have hw := (stageM_memory s m hs.memory hm).2
    exact ⟨memorySystemOk_stalled s m hs.memory hm, haltOk_stalled s m hs.halt hm hst, hs.bounds,
      fun d hd hov => by rw [hs.word d hd (hw d.pc hov).1]; exact (hw d.pc hov).2.symm, hs.dst⟩
  | moved m e d f hm hst he hd hf' ht =>
    subst ht
    have hw := (stageM_memory s m hs.memory hm).2
    refine ⟨memorySystemOk_moved s m e d f hs.memory hm, haltOk_moved s m e d f hs.halt hm hst he hd hf',
      ?_, ?_, ?_⟩
    · intro d' hd'
      have hd' : f.fd = some d' := hd'
      cases stageF_ok s _ _ f hf' with
      | held hl ho => subst ho; exact hs.bounds d' hd'
      | redirected t hl hr ho => subst ho; cases hd'
      | stopped hl hr hstp ho => subst ho; cases hd'
      | fetched hl hr hstp hb _ ho => subst ho; obtain rfl := Option.some.inj hd'; exact hb
    · intro d' hd' hov
      have hd' : f.fd = some d' := hd'
      have hov : storedOver m.stored d'.pc = false := hov
      show d'.word = memWord m.mem _
      rw [(hw d'.pc hov).2]
      cases stageF_ok s _ _ f hf' with
      | held hl ho => subst ho; exact hs.word d' hd' (hw d'.pc hov).1
      | redirected t hl hr ho => subst ho; cases hd'
      | stopped hl hr hstp ho => subst ho; cases hd'
      | fetched hl hr hstp hb _ ho => subst ho; obtain rfl := Option.some.inj hd'; rfl
    · intro l hl
      have hl : d.de = some l := hl
      cases stageD_ok s _ _ d hd with
      | nothing h ho' => subst ho'; cases hl
      | stalled d' i hr hd' hi hu ho' => subst ho'; cases hl
      | decoded d' i hr hd' hi hu ho' =>
        subst ho'
        obtain rfl := Option.some.inj hl
        cases i <;> simp [decodeLatch, dstOf, Instr.op, isLoadOp, aluResult]
  | faultM r hm ht => subst ht; exact absurd rfl (hf _)
  | faultE m r hm hs he ht => subst ht; exact absurd rfl (hf _)
  | faultD m e r hm hs he hd ht => subst ht; exact absurd rfl (hf _)
  | faultF m e d r hm hs he hd hf ht => subst ht; exact absurd rfl (hf _)

/-! ### One cycle, seen from the architectural view -/

theorem accessOk_of_stageM (t : State) (m : MemoryOut) (l : ExecuteLatch) (h : stageM t = .ok m)
    (he : t.em = some l) (hb : t.mbusy = 0) : accessOk t.cfg l := by
  intro hop
  cases stageM_ok t m h with
  | bubble he' ho => rw [he] at he'; cases he'
  | pass m' he' hl hst ho => rw [he] at he'; obtain rfl := Option.some.inj he'; simp [hl, hst] at hop
  | count m' he' hop' hb' ho => exact absurd hb hb'
  | load m' r he' hop' hb' hr ho =>
    rw [he] at he'; obtain rfl := Option.some.inj he'
    obtain ⟨h1, h2, -⟩ := dataRead_done _ _ _ hr
    exact ⟨h1, h2⟩
  | store m' r he' hl hop' hb' hr ho =>
    rw [he] at he'; obtain rfl := Option.some.inj he'
    obtain ⟨h1, h2, -⟩ := dataWrite_done _ _ _ _ hr
    exact ⟨h1, h2⟩

/-- Memory and the record of stores after the Memory stage are what `settled` says, stalled or not. -/
theorem settled_memory (s : State) (m : MemoryOut) (hm : stageM s = .ok m) :
    (settled s).mem = m.mem ∧ (settled s).stored = m.stored := by
  cases stageM_ok s m hm with
  | bubble he ho => subst ho; simp [settled, he]
  | pass m' he hl hst ho =>
    subst ho; simp [settled, he, View.complete, flightMem, flightStored, hst]
  | count m' he hop hb ho =>
    subst ho; simp [settled, he, View.complete, flightMem, flightStored, accessCycle, hb]
  | load m' r he hop hb hr ho =>
    have hns : isStoreOp m'.op = false := by revert hop; cases m'.op <;> simp [isLoadOp, isStoreOp]
    subst ho; simp [settled, he, View.complete, flightMem, flightStored, accessCycle, hns]
  | store m' r he hl hop hb hr ho =>
    obtain ⟨-, -, hreq⟩ := dataWrite_done s m'.res m'.sdata r hr
    have hmem : r.mem = writeBytes s.mem m'.res.toNat (leBytes 4 m'.sdata.toNat) := by
      rw [hreq]; rfl
    subst ho
    simp [settled, he, View.complete, flightMem, flightStored, accessCycle, hop, hb, hmem]

/-- After a moving cycle, what Writeback and Memory hold has Execute's instruction completed. -/
theorem settled_moved (s : State) (hs : s.pipeOk) (m : MemoryOut) (e : ExecuteOut) (d : DecodeOut)
    (f : FetchOut) (hm : stageM s = .ok m) (hst : m.stall = false) (t : State)
    (ht : t = (((s.afterW (stageW s)).afterM m).afterE e).endMoved (stageW s) m e d f) :
    settled t = { drainedView s e with pc := nextPc t, halted := haltSeen t } := by
  obtain ⟨hx, hfl, hmem, hstd, hb, -, -⟩ := settled_of_stageM s hs m hm hst
  have hWx : (stageW t).x = (settled s).x := by
    rw [hx, stageW_x]; subst ht
    simp only [MemoryOut.fwdReg]
    show commitReg (stageW s).x (m.mw.bind _) = _
    cases m.mw <;> rfl
  have hWf : (stageW t).flags = (settled s).flags := by
    rw [hfl]; subst ht
    simp only [MemoryOut.fwdFl, stageW, State.endMoved, State.afterE, State.afterM, State.afterW]
    cases m.mw <;> rfl
  have h1 : t.mem = (settled s).mem := by rw [hmem]; subst ht; rfl
  have h2 : t.stored = (settled s).stored := by rw [hstd]; subst ht; rfl
  have h3 : t.ras = e.ras := by subst ht; rfl
  have h4 : t.sp = e.sp := by subst ht; rfl
  have h5 : t.em = e.em := by subst ht; rfl
  have h6 : t.mbusy = 0 := by subst ht; exact hb
  simp only [settled] at *
  rw [hWx, hWf, h1, h2, h3, h4, h5, h6]
  simp only [drainedView]
  cases e.em <;> simp [settled, View.complete, flightReg, flightMem, flightStored]

theorem stageE_em (s : State) (stored : List Nat) (e : ExecuteOut) (he : stageE s stored = .ok e) :
    (s.de = none ∧ e.em = none ∧ e.ras = s.ras ∧ e.sp = s.sp ∧ e.redirect = none) ∨
    ∃ l m, s.de = some l ∧ storedOver stored l.pc = false ∧ executeOp s l = .ok e ∧
      Executed s l e m := by
  rcases stageE_inv s stored e he with ⟨h, rfl⟩ | ⟨l, h, hso, hex⟩
  · exact .inl ⟨h, rfl, rfl, rfl, rfl⟩
  · obtain ⟨m', hx⟩ := executeOp_executed s l e hex
    exact .inr ⟨l, m', h, hso, hex, hx⟩

theorem haltSeen_moved (s : State) (hs : s.pipeOk) (m : MemoryOut) (e : ExecuteOut) (d : DecodeOut)
    (f : FetchOut) (hm : stageM s = .ok m) (hst : m.stall = false) (he : stageE s m.stored = .ok e)
    (hr : s.status = .running) (t : State)
    (ht : t = (((s.afterW (stageW s)).afterM m).afterE e).endMoved (stageW s) m e d f) :
    haltSeen t = (haltSeen s || d.de.map DecodeLatch.op == some .halt) := by
  obtain ⟨-, -, -, -, -, -, hop⟩ := settled_of_stageM s hs m hm hst
  have h1 : t.status = endStatus (stageW s).halted := by subst ht; rfl
  have h2 : t.de = d.de := by subst ht; rfl
  have h3 : t.em.map ExecuteLatch.op = s.de.map DecodeLatch.op := by
    rw [show t.em = e.em by subst ht; rfl]
    rcases stageE_em s _ e he with ⟨a, b, -⟩ | ⟨l, m', a, -, -, hx⟩
    · rw [a, b]; rfl
    · rw [a, hx.em]; simp [hx.op]
  have h4 : t.mw.map MemoryLatch.op = s.em.map ExecuteLatch.op := by
    rw [← hop, show t.mw = m.mw by subst ht; rfl]
  have hW : (endStatus (stageW s).halted == Status.halted) =
      (s.mw.map MemoryLatch.op == some .halt) := by
    simp only [stageW]; cases s.mw with
    | none => rfl
    | some w => cases h : (w.op == Opcode.halt) <;> simp_all [endStatus]
  have h5 : (Status.running == Status.halted) = false := rfl
  simp only [haltSeen, h1, h2, h3, h4, hW, hr, h5]
  cases (d.de.map DecodeLatch.op == some Opcode.halt) <;>
    cases (s.de.map DecodeLatch.op == some Opcode.halt) <;>
    cases (s.em.map ExecuteLatch.op == some Opcode.halt) <;>
    cases (s.mw.map MemoryLatch.op == some Opcode.halt) <;> rfl

/-- What a cycle does to the view: nothing, or one step of the architectural view. -/
inductive CycleView (s t : State) (v1 : View) : Prop where
  /-- Nothing new was decoded. -/
  | same (h : Drained s v1)
      (hp : inFlight s = (s.mw.map MemoryLatch.pc).toList ++ inFlight t)
  /-- One instruction was decoded. -/
  | one (v : View) (h : Drained s v) (hh : v.halted = false)
      (hp : inFlight s ++ [v.pc] = (s.mw.map MemoryLatch.pc).toList ++ inFlight t)
      (hu : ∀ u, Shows s.cfg u v → ∃ u1, step u = .next u1 ∧ Shows s.cfg u1 v1)

theorem drainedView_fields (s : State) (e : ExecuteOut) :
    (drainedView s e).ras = e.ras ∧ (drainedView s e).sp = e.sp ∧
      (drainedView s e).pc = e.redirect.getD (nextPc s) ∧ (drainedView s e).halted = haltSeen s ∧
      (∀ r : Reg, (drainedView s e).x[r.val] = match e.em with
        | some m' => (commitReg (settled s).x (flightReg (settled s).mem 0 0 m'))[r.val]
        | none => (settled s).x[r.val]) ∧
      ((drainedView s e).flags = match e.em with
        | some m' => (flightFlags m').getD (settled s).flags
        | none => (settled s).flags) := by
  have hset : (settled s).halted = haltSeen s := by
    simp only [settled]; cases s.em <;> rfl
  cases hem : e.em <;> simp [drainedView, hem, View.complete, hset]

theorem cycle_view (s t : State) (hs : s.pipeOk) (h : cycle s = .next t)
    (hf : ∀ f, t.status ≠ .faulted f) (v1 : View) (hv : Drained t v1) : CycleView s t v1 := by
  obtain ⟨hc, hr, hcase⟩ := cycle_next s t h
  obtain ⟨m1, e1, hm1, he1, hok1, rfl⟩ := hv
  cases hcase with
  | faultM r hm ht => subst ht; exact absurd rfl (hf _)
  | faultE m r hm hs he ht => subst ht; exact absurd rfl (hf _)
  | faultD m e r hm hs he hd ht => subst ht; exact absurd rfl (hf _)
  | faultF m e d r hm hs he hd hf ht => subst ht; exact absurd rfl (hf _)
  | stalled m hm hst ht =>
    obtain ⟨h1, hmw, -⟩ := settled_of_stall s hs m hm hst hr
    rw [← ht] at h1
    have hde : t.de = s.de := by subst ht; rfl
    have he : stageE s m.stored = .ok e1 := by
      have hsto : m1.stored = m.stored := by
        rw [← (settled_memory t m1 hm1).2, h1, (settled_memory s m hm).2]
      rw [← he1, hsto]; simp only [stageE, hde]
      cases s.de with
      | none => subst ht; rfl
      | some l =>
        simp only
        rw [executeOp_congr s t l (by subst ht; rfl) (by subst ht; rfl) (by subst ht; rfl)]
    have hpc : nextPc t = nextPc s := by subst ht; rfl
    refine .same ⟨m, e1, hm, he, ?_, ?_⟩ ?_
    · intro l hl
      have := hok1 l hl
      rwa [show t.cfg = s.cfg by subst ht; rfl] at this
    · simp only [drainedView, h1, hpc]
    · have a : t.mw = none := by subst ht; exact hmw
      have b : t.em = s.em := by subst ht; rfl
      simp [inFlight, a, b, hde]
  | moved m e d f hm hst he hd hf' ht =>
    obtain ⟨-, -, hmem2, hst2, hb, hpcs, -⟩ := settled_of_stageM s hs m hm hst
    have hset := settled_moved s hs m e d f hm hst t ht
    have hseen := haltSeen_moved s hs m e d f hm hst he hr t ht
    have hcfg : t.cfg = s.cfg := by subst ht; rfl
    have hem : t.em = e.em := by subst ht; rfl
    have hmb : t.mbusy = 0 := by subst ht; exact hb
    have hde : t.de = d.de := by subst ht; rfl
    have hfd : t.fd = f.fd := by subst ht; rfl
    have htpc : t.pc = f.pc := by subst ht; rfl
    have hok : ∀ l, e.em = some l → accessOk s.cfg l := by
      intro l hl
      rw [← hcfg]; exact accessOk_of_stageM t m1 l hm1 (by rw [hem, hl]) hmb
    have hempc : e.em.map ExecuteLatch.pc = s.de.map DecodeLatch.pc := by
      rcases stageE_em s _ e he with ⟨a, b, -⟩ | ⟨l, m', a, -, -, hx⟩
      · rw [a, b]; rfl
      · rw [a, hx.em]; simp [hx.pc]
    obtain ⟨f1, f2, f3, f4, f5, f6⟩ := drainedView_fields s e
    have hin : inFlight t = (s.em.map ExecuteLatch.pc).toList ++ (s.de.map DecodeLatch.pc).toList ++
        (d.de.map DecodeLatch.pc).toList := by
      simp only [inFlight, hde, hem, hempc, show t.mw = m.mw by subst ht; rfl, hpcs]
    -- nothing decoded
    have hnone : d.de = none → e.redirect.getD (nextPc s) = nextPc t → CycleView s t (drainedView t e1) := by
      intro h1 h2
      have hE : e1.em = none ∧ e1.ras = t.ras ∧ e1.sp = t.sp ∧ e1.redirect = none := by
        rcases stageE_em t _ e1 he1 with ⟨_, b, c, d', e'⟩ | ⟨l, m', a, -⟩
        · exact ⟨b, c, d', e'⟩
        · rw [hde, h1] at a; cases a
      refine .same ⟨m, e, hm, he, hok, ?_⟩ ?_
      · have hview : drainedView t e1 =
            { settled t with ras := t.ras, sp := t.sp, pc := nextPc t } := by
          simp only [drainedView, hE.1, hE.2.1, hE.2.2.1, hE.2.2.2, Option.getD_none]
        have a1 : t.ras = (drainedView s e).ras := by rw [f1]; subst ht; rfl
        have a2 : t.sp = (drainedView s e).sp := by rw [f2]; subst ht; rfl
        have a3 : nextPc t = (drainedView s e).pc := by rw [f3, h2]
        have a4 : haltSeen t = (drainedView s e).halted := by rw [f4, hseen, h1]; simp
        rw [hview, hset, a1, a2, a3, a4]
      · rw [hin, h1]; simp [inFlight]
    cases stageD_ok s _ _ d hd with
    | nothing hn ho =>
      subst ho
      apply hnone rfl
      simp only [nextPc, hfd, htpc]
      cases stageF_ok s _ _ f hf' with
      | held hl ho => cases hl
      | redirected tt hl hr' ho => subst ho; simp [hr']
      | stopped hl hr' hstp ho =>
        subst ho
        rcases hn with hn | hn
        · exact absurd hr' hn
        · simp [hr', hn]
      | fetched hl hr' hstp hbd _ ho =>
        subst ho
        rcases hn with hn | hn
        · exact absurd hr' hn
        · simp [hr', hn]
    | stalled d' i hr' hd' hi hu ho =>
      subst ho
      apply hnone rfl
      simp only [nextPc, hfd, htpc]
      cases stageF_ok s _ _ f hf' with
      | held hl ho => subst ho; simp [hr']
      | redirected tt hl _ ho => cases hl
      | stopped hl _ hstp ho => cases hl
      | fetched hl _ hstp hbd _ ho => cases hl
    | decoded d' i hr' hd' hi hu ho =>
      subst ho
      have hnotHalt : haltSeen s = false := by
        have a1 : ∀ l, s.de = some l → l.op ≠ .halt := by
          intro l hl ho; have := (hs.halt.inDe l hl ho).1; rw [hd'] at this; cases this
        have a2 : ∀ l, s.em = some l → l.op ≠ .halt := by
          intro l hl ho; have := (hs.halt.inEm l hl ho).2.1; rw [hd'] at this; cases this
        have a3 : ∀ l, s.mw = some l → l.op ≠ .halt := by
          intro l hl ho; have := (hs.halt.inMw l hl ho).2.2.1; rw [hd'] at this; cases this
        have h5 : (Status.running == Status.halted) = false := rfl
        simp only [haltSeen, hr, h5, Bool.or_eq_false_iff, beq_eq_false_iff_ne, ne_eq,
          Option.map_eq_some_iff, not_exists, not_and, true_and]
        exact ⟨⟨a1, a2⟩, a3⟩
      have hvpc : (drainedView s e).pc = d'.pc := by rw [f3, hr']; simp [nextPc, hd']
      have hnextpc : nextPc t = nextWordAddress d'.pc := by
        simp only [nextPc, hfd, htpc]
        cases stageF_ok s _ _ f hf' with
        | held hl ho => cases hl
        | redirected tt hl hr'' ho => rw [hr'] at hr''; cases hr''
        | stopped hl hr'' hstp ho => subst ho; exact hs.halt.fetched d' hd'
        | fetched hl hr'' hstp hbd _ ho => subst ho; exact hs.halt.fetched d' hd'
      refine .one (drainedView s e) ⟨m, e, hm, he, hok, rfl⟩ (by rw [f4, hnotHalt]) ?_ ?_
      · rw [hin, hvpc]; simp [inFlight, decodeLatch]
      · intro u hu'
        have hux : ∀ r : Reg, u.readReg r = (drainedView s e).x[r.val] := by
          intro r; simp only [State.readReg, hu'.x]
        -- the latch is the one of the architectural state
        have hlatch : decodeLatch s (forwardsOf (stageW s) m e) d'.pc i = latchOf u i := by
          have hops : operandsOf ((forwardsOf (stageW s) m e).rd s) i = operandsOf u.readReg i := by
            apply operandsOf_congr
            intro r hrs
            rw [hux, f5 r]
            apply rd_eq s hs m e hm hst he
            intro l hl hload hdst
            simp [loadUse, hl, hload, hdst, hrs] at hu
          have hfl : (forwardsOf (stageW s) m e).rdFlags s = u.flags := by
            rw [hu'.flags, f6]; exact rdFlags_eq s hs m e hm hst he
          simp only [decodeLatch, latchOf, hops, hfl, hu'.pc, hvpc]
        have hde' : t.de = some (latchOf u i) := by rw [hde, ← hlatch]
        obtain ⟨l, m', hl, hso, hex, hx⟩ : ∃ l m', t.de = some l ∧
            storedOver m1.stored l.pc = false ∧ executeOp t l = .ok e1 ∧ Executed t l e1 m' := by
          rcases stageE_em t _ e1 he1 with ⟨a, -⟩ | h
          · rw [hde'] at a; cases a
          · exact h
        rw [hde'] at hl; obtain rfl := Option.some.inj hl
        have hexu : executeOp u (latchOf u i) = .ok e1 := by
          rw [← hex]
          refine (executeOp_congr _ _ _ (by rw [hcfg, hu'.cfg_eq]) ?_ ?_).symm
          · rw [hu'.ras, f1]; subst ht; rfl
          · rw [hu'.sp, f2]; subst ht; rfl
        obtain ⟨u1, hexec, hcomp⟩ := exec_completes u i e1 m' hu'.ok hexu hx.em
          (by rw [hu'.cfg_eq, ← hcfg]; exact hok1 m' hx.em)
        -- the word that the architectural view fetches
        rw [show (latchOf u i).pc = d'.pc by rw [← hlatch]; rfl] at hso
        have hword : memWord u.mem d'.pc.toNat = d'.word ∧ storedOver u.stored d'.pc = false := by
          have hview : u.mem = m1.mem ∧ u.stored = m1.stored := by
            rw [hu'.mem, hu'.stored, ← (settled_memory t m1 hm1).1, ← (settled_memory t m1 hm1).2,
              hset]
            exact ⟨rfl, rfl⟩
          have htm : t.mem = m.mem ∧ t.stored = m.stored := by subst ht; exact ⟨rfl, rfl⟩
          have htok : t.memorySystemOk := by
            subst ht; exact memorySystemOk_moved s m e _ f hs.memory hm
          obtain ⟨g1, g2⟩ := (stageM_memory t m1 htok hm1).2 d'.pc hso
          rw [htm.2] at g1
          obtain ⟨g3, g4⟩ := (stageM_memory s m hs.memory hm).2 d'.pc g1
          rw [hview.1, hview.2, g2, htm.1, g4]
          exact ⟨(hs.word d' hd' g3).symm, hso⟩
        have hustat : u.status = .running := by rw [hu'.status, f4, hnotHalt]; rfl
        have hstep : step u = .next u1 := by
          rw [← hexec]
          have hb' : d'.pc.toNat + 4 ≤ u.cfg.memSize := by rw [hu'.cfg_eq]; exact hs.bounds d' hd'
          simp only [step, hu'.ok.config, if_true, hustat, runInstruction]
          rw [hu'.pc, hvpc]
          simp only [State.fetchAt, inBounds, hb', decide_true, if_true, hword.1, hword.2, hi,
            Bool.false_eq_true, if_false]
        refine ⟨u1, hstep, ?_⟩
        obtain ⟨g1, g2, g3, g4, g5, g6⟩ := drainedView_fields t e1
        have hsx : (settled t).x = u.x ∧ (settled t).flags = u.flags ∧ (settled t).mem = u.mem ∧
            (settled t).stored = u.stored := by
          rw [hset, hu'.x, hu'.flags, hu'.mem, hu'.stored]; exact ⟨rfl, rfl, rfl, rfl⟩
        have hview : drainedView t e1 = { ((settled t).complete 0 0 m') with
            ras := e1.ras, sp := e1.sp, pc := e1.redirect.getD (nextPc t) } := by
          simp only [drainedView, hx.em]
        refine ⟨by rw [hcomp.cfg, hu'.cfg_eq], effect_memorySystemOk i u u1 hu'.ok (exec_next i u u1 hexec),
          ?_, ?_, ?_, ?_, ?_, ?_, ?_, ?_⟩
        · rw [hview, hcomp.x]; simp only [View.complete, hsx]
        · rw [hview, hcomp.flags]; simp only [View.complete, hsx]
        · rw [hview, hcomp.mem]; simp only [View.complete, hsx]
        · rw [hview, hcomp.stored]; simp only [View.complete, hsx]
        · rw [hview, hcomp.ras]
        · rw [hview, hcomp.sp]
        · rw [hview, hcomp.pc]; simp only [hnextpc, hu'.pc, hvpc]
        · rw [hcomp.status, g4, hseen, hnotHalt, hx.op, hustat]
          simp only [Bool.false_or, Option.map_some, hlatch]
          cases (latchOf u i).op <;> rfl

/-! ### Whole runs -/

/-- With nothing in flight the state shows itself. -/
theorem shows_self (s : State) (v : View) (hs : s.memorySystemOk) (h1 : s.fd = none) (h2 : s.de = none)
    (h3 : s.em = none) (h4 : s.mw = none) (h5 : ∀ f, s.status ≠ .faulted f) (hv : Drained s v) :
    Shows s.cfg s v := by
  obtain ⟨m, e, -, he, -, rfl⟩ := hv
  simp only [stageE, h2] at he
  obtain rfl := ok_inj he
  have hset : settled s = { x := s.x, flags := s.flags, mem := s.mem, stored := s.stored, ras := s.ras
                            sp := s.sp, pc := s.pc, halted := s.status == .halted } := by
    simp [settled, h3, stageW, h4, nextPc, h1, haltSeen, h2]
  simp only [drainedView, hset]
  refine ⟨rfl, hs, rfl, rfl, rfl, rfl, rfl, rfl, by simp [nextPc, h1], ?_⟩
  cases hst : s.status with
  | running => rfl
  | halted => rfl
  | faulted f => exact absurd hst (h5 f)

theorem cycles_succ (n : Nat) (s t : State) (h : cycles (n + 1) s = .next t) :
    ∃ s1, cycle s = .next s1 ∧ cycles n s1 = .next t := by
  simp only [cycles] at h
  split at h
  · rename_i s1 h1; exact ⟨s1, h1, h⟩
  · cases h
  · cases h

/-- A run of the cycle view that halts is a run of the architectural view. -/
theorem cycles_agree (n : Nat) (s t : State) (hs : s.pipeOk) (h : cycles n s = .next t)
    (ht : t.status = .halted) :
    ∃ v, Drained s v ∧ ∀ u, Shows s.cfg u v →
      ∃ k u', Sys2Proof.core.run k u = .next u' ∧ u'.status = .halted ∧
        inFlight s ++ executedPcs k u = retiredPcs n s ∧
        u'.x = t.x ∧ u'.flags = t.flags ∧ u'.mem = t.mem ∧ u'.ras = t.ras ∧ u'.sp = t.sp ∧
        u'.pc = t.pc := by
  induction n generalizing s with
  | zero =>
    obtain rfl : t = s := eq_of_next h
    obtain ⟨a1, a2, a3, a4, a5⟩ := hs.halt.halted ht
    have hv : Drained t (drainedView t { em := none, ras := t.ras, sp := t.sp, redirect := none
                                         fwdReg := none, fwdFl := none }) :=
      ⟨_, _, by simp only [stageM, a3]; rfl, by simp only [stageE, a2], by simp, rfl⟩
    refine ⟨_, hv, fun u hu => ?_⟩
    have hself := shows_self t _ hs.memory a1 a2 a3 a4 (by simp [ht]) hv
    refine ⟨0, u, rfl, by rw [hu.status, ← hself.status, ht], ?_, hu.x.trans hself.x.symm,
      hu.flags.trans hself.flags.symm, hu.mem.trans hself.mem.symm, hu.ras.trans hself.ras.symm,
      hu.sp.trans hself.sp.symm, hu.pc.trans hself.pc.symm⟩
    simp [inFlight, a2, a3, a4, executedPcs, retiredPcs]
  | succ n ih =>
    obtain ⟨s1, h1, h2⟩ := cycles_succ n s t h
    have hnf : ∀ f, s1.status ≠ .faulted f := by
      intro f hf
      cases n with
      | zero => obtain rfl : t = s1 := eq_of_next h2; rw [hf] at ht; cases ht
      | succ n =>
        obtain ⟨s2, h3, -⟩ := cycles_succ n s1 t h2
        have := (cycle_next s1 s2 h3).2.1
        rw [hf] at this; cases this
    have hcfg : s1.cfg = s.cfg := by
      obtain ⟨-, -, hcase⟩ := cycle_next s s1 h1
      cases hcase <;> rename_i ht' <;> subst ht' <;> rfl
    have hret : retiredPcs (n + 1) s = (s.mw.map MemoryLatch.pc).toList ++ retiredPcs n s1 := by
      simp only [retiredPcs, h1]; cases s.mw <;> rfl
    obtain ⟨v1, hd1, hall⟩ := ih s1 (pipeOk_cycle s s1 hs h1 hnf) h2
    cases cycle_view s s1 hs h1 hnf v1 hd1 with
    | same hd hp =>
      refine ⟨v1, hd, fun u hu => ?_⟩
      obtain ⟨k, u', a1, a2, a3, a4⟩ := hall u (by rw [hcfg]; exact hu)
      exact ⟨k, u', a1, a2, by rw [hret, hp, List.append_assoc, a3], a4⟩
    | one v hd hh hp hu =>
      refine ⟨v, hd, fun u hsu => ?_⟩
      obtain ⟨u1, hstep, hs1⟩ := hu u hsu
      obtain ⟨k, u', a1, a2, a3, a4⟩ := hall u1 (by rw [hcfg]; exact hs1)
      have hrun : u.status = .running := by rw [hsu.status, hh]; rfl
      refine ⟨k + 1, u', ?_, a2, ?_, a4⟩
      · have hstep' : Sys2Proof.core.step u = .next u1 := hstep
        simp only [Host.Core.run, hstep']
        exact a1
      · rw [hret, ← a3, ← List.append_assoc, ← hp]
        simp only [executedPcs, hrun, hstep, hsu.pc]
        simp

end Sys2Proof.Machine
end

