-- ==== Sys2Proof/Laws/PerInstr.lean ====
section
/-! SUPPORT. Statements made once per constructor of Instr. -/

namespace Sys2Proof.Laws

/-- The opcode field of an instruction's word is the byte of its mnemonic in the opcode map (R100). -/
def OpcodeField.Statement (i : Instr) : Prop := opField (encode i) = i.op.byte

theorem OpcodeField.addi (ra rb rc : Reg) :
    OpcodeField.Statement (.addi ra rb rc) := opField_encodeR _ _ _ _

theorem OpcodeField.subi (ra rb rc : Reg) :
    OpcodeField.Statement (.subi ra rb rc) := opField_encodeR _ _ _ _

theorem OpcodeField.andi (ra rb rc : Reg) :
    OpcodeField.Statement (.andi ra rb rc) := opField_encodeR _ _ _ _

theorem OpcodeField.ori (ra rb rc : Reg) :
    OpcodeField.Statement (.ori ra rb rc) := opField_encodeR _ _ _ _

theorem OpcodeField.xori (ra rb rc : Reg) :
    OpcodeField.Statement (.xori ra rb rc) := opField_encodeR _ _ _ _

theorem OpcodeField.shli (ra rb rc : Reg) :
    OpcodeField.Statement (.shli ra rb rc) := opField_encodeR _ _ _ _

theorem OpcodeField.shri (ra rb rc : Reg) :
    OpcodeField.Statement (.shri ra rb rc) := opField_encodeR _ _ _ _

theorem OpcodeField.addu (ra rb rc : Reg) :
    OpcodeField.Statement (.addu ra rb rc) := opField_encodeR _ _ _ _

theorem OpcodeField.subu (ra rb rc : Reg) :
    OpcodeField.Statement (.subu ra rb rc) := opField_encodeR _ _ _ _

theorem OpcodeField.shru (ra rb rc : Reg) :
    OpcodeField.Statement (.shru ra rb rc) := opField_encodeR _ _ _ _

theorem OpcodeField.addim (ra : Reg) (v : Word) :
    OpcodeField.Statement (.addim ra v) := opField_encodeI _ _ _

theorem OpcodeField.cmp32 (r q : Reg) :
    OpcodeField.Statement (.cmp32 r q) := opField_encodeR _ _ _ _

theorem OpcodeField.ld32 (ra : Reg) (v : Word) :
    OpcodeField.Statement (.ld32 ra v) := opField_encodeI _ _ _

theorem OpcodeField.ldin32 (r q : Reg) :
    OpcodeField.Statement (.ldin32 r q) := opField_encodeR _ _ _ _

theorem OpcodeField.st32 (ra : Reg) (v : Word) :
    OpcodeField.Statement (.st32 ra v) := opField_encodeI _ _ _

theorem OpcodeField.stin32 (r q : Reg) :
    OpcodeField.Statement (.stin32 r q) := opField_encodeR _ _ _ _

theorem OpcodeField.jmp (target : Word) :
    OpcodeField.Statement (.jmp target) := opField_encodeJ _ _

theorem OpcodeField.je (target : Word) :
    OpcodeField.Statement (.je target) := opField_encodeJ _ _

theorem OpcodeField.jne (target : Word) :
    OpcodeField.Statement (.jne target) := opField_encodeJ _ _

theorem OpcodeField.jlt (target : Word) :
    OpcodeField.Statement (.jlt target) := opField_encodeJ _ _

theorem OpcodeField.jle (target : Word) :
    OpcodeField.Statement (.jle target) := opField_encodeJ _ _

theorem OpcodeField.jgt (target : Word) :
    OpcodeField.Statement (.jgt target) := opField_encodeJ _ _

theorem OpcodeField.jge (target : Word) :
    OpcodeField.Statement (.jge target) := opField_encodeJ _ _

theorem OpcodeField.call (target : Word) :
    OpcodeField.Statement (.call target) := opField_encodeJ _ _

theorem OpcodeField.ret :
    OpcodeField.Statement (.ret) := opField_encodeZ _

theorem OpcodeField.halt :
    OpcodeField.Statement (.halt) := opField_encodeZ _

end Sys2Proof.Laws
end

