-- ==== Sys2Proof/Tests/Slice0.lean ====
section
/-! SUPPORT. The model's own tests. Expected results are the vectors `V<n>` of
`95_test_vectors.md` or hand calculation from the rules. The second half
shows, for every obligation with hypotheses, states and operands that meet them. -/

namespace Sys2Proof.Machine.Tests

open Sys2Proof Sys2Proof.Machine

/-! ### Helpers -/

/-- Reset with `x[1] = a` and `x[2] = b`. -/
def twoRegs (a b : Word) : State := (State.reset.writeReg 1 a).writeReg 2 b

/-- Reset with `pc = a`. -/
def atPc (a : Word) : State := State.reset.setPc a

/-- Reset with flags. -/
def withFlags (eq lt le : Bool) : State := State.reset.setFlags { eq := eq, lt := lt, le := le }

/-- Reset with the return-address stack `ras` and its pointer. -/
def withRas (ras : List Word) (sp : Nat) : State := { State.reset with ras := ras, sp := sp }

/-- Reset with four bytes placed at `a`. -/
def withWord (a : Nat) (w : Word) : State :=
  { State.reset with mem := writeBytes [] a (wordBytes w) }

/-- The next state, if there is one. -/
def nextOf (o : Host.Outcome State Fault Refusal) : Option State :=
  match o with
  | .next t => some t
  | .fault _ => none
  | .refused _ => none

/-- The refusal, if there is one. -/
def refusalOf (o : Host.Outcome State Fault Refusal) : Option Refusal :=
  match o with
  | .next _ => none
  | .fault _ => none
  | .refused r => some r

/-- A register after an outcome. -/
def regAfter (o : Host.Outcome State Fault Refusal) (r : Reg) : Option Word :=
  (nextOf o).map fun t => t.readReg r

/-- `pc` after an outcome. -/
def pcAfter (o : Host.Outcome State Fault Refusal) : Option Word := (nextOf o).map State.pc

/-- The status after an outcome. -/
def statusAfter (o : Host.Outcome State Fault Refusal) : Option Status :=
  (nextOf o).map State.status

/-- The configuration CFG1 with an image of words. -/
def imaged (ws : List Word) : Config :=
  { Config.cfg1 with image := (ws.map wordBytes).flatten }

/-- Reset of that configuration. -/
def loaded (ws : List Word) : State := State.init (imaged ws) []

/-! ### Configuration (V10) -/

/-- CFG1 with another first level. -/
def cfgLevel (cap line : Nat) : Config :=
  { Config.cfg1 with levels := [{ cap := cap, line := line, lat := 1 }] }

theorem test_config_line_24 : (cfgLevel 48 24).check = some .lineNotPowerOfTwo := by decide
theorem test_config_cap_40 : (cfgLevel 40 16).check = some .capacityNotMultipleOfLine := by decide
theorem test_config_no_level :
    ({ Config.cfg1 with levels := [] } : Config).check = some .noCacheLevel := by decide
theorem test_config_three_lines : (cfgLevel 48 16).check = none := by decide
theorem test_config_line_2 : (cfgLevel 64 2).check = some .lineShorterThanWord := by decide
theorem test_config_memory_40 :
    ({ Config.cfg1 with memSize := 40 } : Config).check = some .memoryNotMultipleOfLine := by decide
theorem test_config_no_stack :
    ({ Config.cfg1 with stackDepth := 0 } : Config).check = some .noStack := by decide
theorem test_config_entry_2 :
    ({ Config.cfg1 with entry := 2 } : Config).check = some .badEntry := by decide
/-- `ENTRY` defaults to `LOAD_BASE`, `LOAD_BASE` to 0 (R9, D22). -/
theorem test_config_defaults :
    (({ levels := [], memLat := 0, memSize := 64, stackDepth := 1, image := [] } : Config).entry,
      ({ levels := [], memLat := 0, memSize := 64, stackDepth := 1, image := [] } :
        Config).loadBase) = (0, 0) ∧
    ({ levels := [], memLat := 0, memSize := 64, stackDepth := 1, image := []
       loadBase := 8 } : Config).entry = 8 := by decide
theorem test_config_load_base :
    ({ Config.cfg1 with loadBase := 4096, image := [1] } : Config).check = some .badImage := by
  decide

/-! ### Well-formedness: one ill-formed term for each check (R97, R98, R99) -/

theorem test_wf_refuses_addim_above : Instr.wf (.addim 0 0x80000) = false := by decide
theorem test_wf_refuses_addim_below : Instr.wf (.addim 0 0xFFF7FFFF) = false := by decide
theorem test_wf_refuses_ld32_far : Instr.wf (.ld32 0 0x100000) = false := by decide
theorem test_wf_refuses_st32_far : Instr.wf (.st32 0 0xFFFFFFFC) = false := by decide
theorem test_wf_refuses_jmp_odd : Instr.wf (.jmp 2) = false := by decide
theorem test_wf_refuses_jmp_far : Instr.wf (.jmp 0x4000000) = false := by decide
theorem test_wf_refuses_je_odd : Instr.wf (.je 1) = false := by decide
theorem test_wf_refuses_jne_far : Instr.wf (.jne 0x4000000) = false := by decide
theorem test_wf_refuses_jlt_odd : Instr.wf (.jlt 3) = false := by decide
theorem test_wf_refuses_jle_far : Instr.wf (.jle 0x4000000) = false := by decide
theorem test_wf_refuses_jgt_odd : Instr.wf (.jgt 6) = false := by decide
theorem test_wf_refuses_jge_far : Instr.wf (.jge 0xFFFFFFFC) = false := by decide
theorem test_wf_refuses_call_odd : Instr.wf (.call 5) = false := by decide

/-! ### Decoding: words written out from the spec's encodings (V11) -/

theorem test_decode_addi : decode 0x10312000 = .ok (.addi 3 1 2) := by decide
theorem test_decode_subi : decode 0x11312000 = .ok (.subi 3 1 2) := by decide
theorem test_decode_andi : decode 0x12312000 = .ok (.andi 3 1 2) := by decide
theorem test_decode_ori : decode 0x13312000 = .ok (.ori 3 1 2) := by decide
theorem test_decode_xori : decode 0x14312000 = .ok (.xori 3 1 2) := by decide
theorem test_decode_shli : decode 0x15312000 = .ok (.shli 3 1 2) := by decide
theorem test_decode_shri : decode 0x16312000 = .ok (.shri 3 1 2) := by decide
theorem test_decode_addu : decode 0x18001000 = .ok (.addu 0 0 1) := by decide
theorem test_decode_subu : decode 0x19312000 = .ok (.subu 3 1 2) := by decide
theorem test_decode_shru : decode 0x1EFED000 = .ok (.shru 15 14 13) := by decide
theorem test_decode_addim : decode 0x20000007 = .ok (.addim 0 7) := by decide
theorem test_decode_addim_negative : decode 0x202FFFFE = .ok (.addim 2 0xFFFFFFFE) := by decide
theorem test_decode_cmp32 : decode 0x280F0000 = .ok (.cmp32 15 0) := by decide
theorem test_decode_ld32 : decode 0x30FFFFFC = .ok (.ld32 15 0xFFFFC) := by decide
theorem test_decode_ldin32 : decode 0x31310000 = .ok (.ldin32 3 1) := by decide
theorem test_decode_st32 : decode 0x38400104 = .ok (.st32 4 0x104) := by decide
theorem test_decode_stin32 : decode 0x39FE0000 = .ok (.stin32 15 14) := by decide
theorem test_decode_jmp : decode 0x40FFFFFF = .ok (.jmp 0x3FFFFFC) := by decide
theorem test_decode_je : decode 0x41000008 = .ok (.je 0x20) := by decide
theorem test_decode_jne : decode 0x42000002 = .ok (.jne 8) := by decide
theorem test_decode_jlt : decode 0x43000004 = .ok (.jlt 0x10) := by decide
theorem test_decode_jle : decode 0x44000040 = .ok (.jle 0x100) := by decide
theorem test_decode_jgt : decode 0x45000000 = .ok (.jgt 0) := by decide
theorem test_decode_jge : decode 0x46000010 = .ok (.jge 0x40) := by decide
theorem test_decode_call : decode 0x48000004 = .ok (.call 0x10) := by decide
theorem test_decode_ret : decode 0x49000000 = .ok (.ret) := by decide
theorem test_decode_halt : decode 0x50000000 = .ok (.halt) := by decide

/-- One word bit by bit: `ADDI R3,R1,R2` is `00010000 0011 0001 0010 000000000000` (R92). -/
theorem test_decode_bits :
    decode 0b00010000001100010010000000000000 = .ok (.addi 3 1 2) := by decide

/-- Ignored bits (V12). -/
theorem test_decode_ignored :
    decode 0x50FFFFFF = .ok .halt ∧ decode 0x49ABCDEF = .ok .ret ∧
      decode 0x28F12FFF = .ok (.cmp32 1 2) ∧ decode 0x31310FFF = .ok (.ldin32 3 1) ∧
      decode 0x39210FFF = .ok (.stin32 2 1) ∧ decode 0x14000ABC = .ok (.xori 0 0 0) := by decide

/-- Words that do not decode: the neighbours of the assigned blocks (V13). -/
theorem test_decode_invalid_low :
    decode 0x00000000 = .error (.invalidOpcode 0x00000000) ∧
      decode 0x0F000000 = .error (.invalidOpcode 0x0F000000) ∧
      decode 0x17000000 = .error (.invalidOpcode 0x17000000) ∧
      decode 0x1F000000 = .error (.invalidOpcode 0x1F000000) ∧
      decode 0x21000000 = .error (.invalidOpcode 0x21000000) ∧
      decode 0x29000000 = .error (.invalidOpcode 0x29000000) := by decide
theorem test_decode_invalid_high :
    decode 0x32000000 = .error (.invalidOpcode 0x32000000) ∧
      decode 0x3A000000 = .error (.invalidOpcode 0x3A000000) ∧
      decode 0x47000000 = .error (.invalidOpcode 0x47000000) ∧
      decode 0x4A000000 = .error (.invalidOpcode 0x4A000000) ∧
      decode 0x51000000 = .error (.invalidOpcode 0x51000000) ∧
      decode 0xFFFFFFFF = .error (.invalidOpcode 0xFFFFFFFF) := by decide

theorem test_decode_truncated : decodeBytes [0x00, 0x20, 0x31] = .error .truncated := by decide

/-- The byte order of a word in memory (R54). -/
theorem test_decode_bytes :
    decodeBytes [0x00, 0x20, 0x31, 0x10, 0xFF] = .ok (.addi 3 1 2, [0xFF]) := by decide

/-- The encoder on V11's rows. -/
theorem test_encode :
    encode (.addi 3 1 2) = 0x10312000 ∧ encode (.addim 2 0xFFFFFFFE) = 0x202FFFFE ∧
      encode (.cmp32 1 2) = 0x28012000 ∧ encode (.st32 4 0x104) = 0x38400104 ∧
      encode (.stin32 2 1) = 0x39210000 ∧ encode (.jmp 0x3FFFFFC) = 0x40FFFFFF ∧
      encode .ret = 0x49000000 ∧ encode .halt = 0x50000000 := by decide

theorem test_table_word :
    decodeTableWord 32 0x38400104 = some (.st32 4 0x104) ∧ decodeTableWord 32 0 = none := by
  decide

/-- A word placed after reset is the one that the next step runs. -/
theorem test_placed_word :
    step (State.reset.withFetchWord 32 0x20000007) =
      exec (.addim 0 7) (State.reset.withFetchWord 32 0x20000007) := rfl

theorem test_placed_word_runs :
    regAfter (step (State.reset.withFetchWord 32 0x20000007)) 0 = some 7 := by decide

/-- From reset with nothing placed the first word is zero, which does not decode (log 4). -/
theorem test_reset_empty_memory :
    statusAfter (step State.reset) = some (.faulted ⟨.invalidOpcode, 0, some 0⟩) := by decide

/-! ### ALU (V15, V16, V17) -/

theorem test_addi_wraps : regAfter (exec (.addi 3 1 2) (twoRegs 0xFFFFFFFF 2)) 3 =
    some 1 := by decide
theorem test_subi_wraps : regAfter (exec (.subi 3 1 2) (twoRegs 5 7)) 3 =
    some 0xFFFFFFFE := by decide
theorem test_andi : regAfter (exec (.andi 3 1 2) (twoRegs 0xF0F0F0F0 0x0FF00FF0)) 3 =
    some 0x00F000F0 := by decide
theorem test_ori : regAfter (exec (.ori 3 1 2) (twoRegs 0xF0F0F0F0 0x0FF00FF0)) 3 =
    some 0xFFF0FFF0 := by decide
theorem test_xori : regAfter (exec (.xori 3 1 2) (twoRegs 0xFF00FF00 0x0FF00FF0)) 3 =
    some 0xF0F0F0F0 := by decide
theorem test_shli_top_bit_lost : regAfter (exec (.shli 3 1 2) (twoRegs 0x80000001 4)) 3 =
    some 0x10 := by decide
theorem test_shli_by_33 : regAfter (exec (.shli 3 1 2) (twoRegs 1 0x21)) 3 =
    some 2 := by decide
theorem test_shri_sign_fills : regAfter (exec (.shri 3 1 2) (twoRegs 0x80000000 4)) 3 =
    some 0xF8000000 := by decide
theorem test_shri_by_32 : regAfter (exec (.shri 3 1 2) (twoRegs 0x80000000 0x20)) 3 =
    some 0x80000000 := by decide
theorem test_shru_zero_fills : regAfter (exec (.shru 3 1 2) (twoRegs 0x80000000 4)) 3 =
    some 0x08000000 := by decide
theorem test_shru_by_63 : regAfter (exec (.shru 3 1 2) (twoRegs 0x80000000 0x3F)) 3 =
    some 1 := by decide
theorem test_addu_no_carry : regAfter (exec (.addu 3 1 2) (twoRegs 0xFFFFFFFF 1)) 3 =
    some 0 := by decide
theorem test_subu_borrow : regAfter (exec (.subu 3 1 2) (twoRegs 0 1)) 3 =
    some 0xFFFFFFFF := by decide
theorem test_addi_same_register :
    regAfter (exec (.addi 1 1 1) (twoRegs 3 0)) 1 = some 6 := by decide
theorem test_subu_same_register :
    regAfter (exec (.subu 1 1 1) (twoRegs 3 0)) 1 = some 0 := by decide
theorem test_addim_word :
    regAfter (step ((twoRegs 0 0x80000).withFetchWord 32 0x20280000)) 2 = some 0 := by decide
theorem test_addim_minus_one :
    regAfter (exec (.addim 1 0xFFFFFFFF) (twoRegs 0 0)) 1 = some 0xFFFFFFFF := by decide

/-! ### Compare and jumps (V18) -/

theorem test_cmp32_less :
    (nextOf (exec (.cmp32 1 2) (twoRegs 0x7FFFFFFF 0x80000000))).map State.flags =
      some ⟨false, true, true⟩ := by decide
theorem test_cmp32_equal :
    (nextOf (exec (.cmp32 1 2) (twoRegs 5 5))).map State.flags = some ⟨true, false, true⟩ := by
  decide
theorem test_jmp : pcAfter (exec (.jmp 0x40) (atPc 8)) = some 0x40 := by decide
theorem test_je :
    pcAfter (exec (.je 0x40) (withFlags true false true)) = some 0x40 ∧
      pcAfter (exec (.je 0x40) (withFlags false true true)) = some 4 := by decide
theorem test_jne :
    pcAfter (exec (.jne 0x40) (withFlags false false false)) = some 0x40 ∧
      pcAfter (exec (.jne 0x40) (withFlags true false true)) = some 4 := by decide
theorem test_jlt :
    pcAfter (exec (.jlt 0x40) (withFlags false true true)) = some 0x40 ∧
      pcAfter (exec (.jlt 0x40) (withFlags true false true)) = some 4 := by decide
theorem test_jle :
    pcAfter (exec (.jle 0x40) (withFlags true false true)) = some 0x40 ∧
      pcAfter (exec (.jle 0x40) (withFlags false false false)) = some 4 := by decide
theorem test_jgt :
    pcAfter (exec (.jgt 0x40) (withFlags false false false)) = some 0x40 ∧
      pcAfter (exec (.jgt 0x40) (withFlags true false true)) = some 4 := by decide
theorem test_jge :
    pcAfter (exec (.jge 0x40) (withFlags true false true)) = some 0x40 ∧
      pcAfter (exec (.jge 0x40) (withFlags false true true)) = some 4 := by decide

/-! ### Loads and stores (V20, V22, V46, V60, V62) -/

theorem test_ld32 :
    regAfter (exec (.ld32 3 0x100) (withWord 0x100 0xAABBCCDD)) 3 = some 0xAABBCCDD := by
  decide
theorem test_ld32_last_word :
    regAfter (exec (.ld32 3 0xFFC) State.reset) 3 = some 0 ∧
      statusAfter (exec (.ld32 3 0x1000) State.reset) =
        some (.faulted ⟨.outOfBoundsAccess, 0, some 0x1000⟩) := by decide
theorem test_ldin32_same_register :
    regAfter (exec (.ldin32 1 1) ((withWord 0x100 0x104).writeReg 1 0x100)) 1 = some 0x104 := by
  decide
theorem test_ldin32_misaligned :
    refusalOf (exec (.ldin32 1 2) (twoRegs 0 0x1002)) = some (.misalignedAccess 0 0x1002) := by
  decide
theorem test_st32_bytes :
    (nextOf (exec (.st32 1 0x200) (twoRegs 0x12345678 0))).map (fun t => readBytes t.mem 0x200 4) =
      some [0x78, 0x56, 0x34, 0x12] := by decide
theorem test_stin32_top_of_addresses :
    statusAfter (exec (.stin32 1 2) (twoRegs 7 0xFFFFFFFC)) =
      some (.faulted ⟨.outOfBoundsAccess, 0, some 0xFFFFFFFC⟩) := by decide
theorem test_stin32_own_address :
    (nextOf (exec (.stin32 1 1) (twoRegs 0x104 0))).map (fun t => readBytes t.mem 0x104 2) =
      some [0x04, 0x01] := by decide

/-! ### CALL, RET, HALT (V64, V65) -/

theorem test_call :
    (nextOf (exec (.call 0x40) (atPc 8))).map (fun t => (t.pc, t.sp, t.ras)) =
      some (0x40, 1, [12, 0, 0, 0]) := by decide
theorem test_call_full :
    statusAfter (exec (.call 0x40) (withRas [4, 8, 12, 16] 4)) =
      some (.faulted ⟨.stackOverflow, 0, none⟩) := by decide
theorem test_ret :
    (nextOf (exec .ret (withRas [4, 8, 12, 16] 3))).map (fun t => (t.pc, t.sp)) = some (12, 2) := by
  decide
theorem test_ret_empty :
    statusAfter (exec .ret (atPc 8)) = some (.faulted ⟨.stackUnderflow, 8, none⟩) := by decide
theorem test_halt :
    (nextOf (exec .halt (atPc 8))).map (fun t => (t.pc, t.status)) = some (12, .halted) := by decide

/-! ### The hierarchy (V23 to V25, first steps) -/

/-- CFG2 of `95_test_vectors.md`. -/
def cfg2 : Config :=
  { Config.cfg1 with
    levels := [⟨32, 16, 1⟩, ⟨128, 32, 2⟩]
    memLat := 10 }

/-- Memory of V23. -/
def mem23 : Mem :=
  writeBytes (writeBytes (writeBytes [] 0x100 [0xDD, 0xCC, 0xBB, 0xAA]) 0x110
    [0x88, 0x77, 0x66, 0x55]) 0x120 [4, 3, 2, 1]

/-- Caches of CFG2 after the first read of V23. -/
def caches23 : List Cache :=
  (hierRead cfg2 mem23 (cfg2.levels.map emptyCache) 0x100 4).caches

theorem test_read_miss :
    (hierRead cfg2 mem23 (cfg2.levels.map emptyCache) 0x100 4).value = 0xAABBCCDD ∧
      (hierRead cfg2 mem23 (cfg2.levels.map emptyCache) 0x100 4).latency = 13 := by decide
theorem test_read_hit :
    (hierRead cfg2 mem23 caches23 0x104 4).latency = 1 ∧
      (hierRead cfg2 mem23 caches23 0x110 4).latency = 3 ∧
      (hierRead cfg2 mem23 caches23 0x110 4).caches = caches23 := by decide
theorem test_write_no_allocate :
    (hierWrite cfg2 mem23 caches23 0x200 4 0x12345678).caches = caches23 ∧
      (hierWrite cfg2 mem23 caches23 0x200 4 0x12345678).latency = 13 := by decide

/-! ### The cycle view (V40, V51, V54, V57, V64, V66) -/

/-- The result of `n` cycles of a program in CFG1. -/
def runOf (n : Nat) (ws : List Word) : Option State := nextOf (cycles n (loaded ws))

/-- V1's program: 4 instructions take 8 cycles (R230). -/
theorem test_cycles_forwarding :
    (runOf 8 [0x14000000, 0x20000005, 0x20000007, 0x50000000]).map
      (fun t => (t.readReg 0, t.status)) = some (12, .halted) ∧
    (runOf 7 [0x14000000, 0x20000005, 0x20000007, 0x50000000]).map State.status =
      some .running := by decide
/-- V43: V40's program in CFG1 takes 11 cycles. -/
theorem test_cycles_load_use :
    (runOf 10 [0x30100100, 0x10211000, 0x50000000]).map State.status = some .running ∧
      (runOf 11 [0x30100100, 0x10211000, 0x50000000]).map State.status = some .halted := by decide
/-- V64: a stack underflow is imprecise. -/
theorem test_cycle_underflow :
    (runOf 4 [0x20000001, 0x49000000, 0x20000002, 0x50000000]).map
      (fun t => (t.status, t.readReg 0)) =
      some (.faulted ⟨.stackUnderflow, 4, none⟩, 0) := by decide
/-- V67: the all-zero word. -/
theorem test_cycle_zero_word :
    (runOf 3 [0x20000001, 0]).map State.status =
      some (.faulted ⟨.invalidOpcode, 4, some 0⟩) := by decide
/-- A stopped engine makes no cycle; `step()` leaves it as it is (V70). -/
theorem test_terminal :
    cycle { State.reset with status := .halted } = .fault .engineNotRunning ∧
      controllerStep { State.reset with status := .halted } =
        .next ({ State.reset with status := .halted }, ⟨.halted, false⟩) := ⟨rfl, rfl⟩
/-- V54: the fetch-ahead of R300 faults although the program halts. -/
theorem test_fetch_ahead :
    statusAfter (cycles 2 (State.init { imaged [] with
      memSize := 32, entry := 0x1C, loadBase := 0x1C, image := wordBytes 0x40000000 } [])) =
      some (.faulted ⟨.outOfBoundsAccess, 0x20, some 0x20⟩) := by decide
/-- Where Memory's fault ends the cycle, Execute's transfer squashes nothing (R203, R227). -/
theorem test_stage_states_of_a_fault :
    [Stage.fetch, .decode, .execute, .memory, .writeback].map
      (stageState { State.reset with
        em := some ⟨0x3C, .st32, none, 0x1000, 0, none⟩
        de := some ⟨0x40, .jmp, none, 0, 0, ⟨false, false, false⟩, 0x80⟩
        fd := some ⟨0x44, 0x50000000⟩ }) = [.idle, .busy, .busy, .busy, .idle] := by decide
/-- A stored-over word that is fetched on a wrong path is refused (R79, R306): the taken jump at 0 is
still in Decode when the word behind it is fetched. -/
theorem test_wrong_path_fetch :
    refusalOf (cycles 2 { loaded [0x40000010] with stored := [4] }) =
      some (.selfModifiedCode 4) := by decide
/-- A store at 0 into the word at 8, already in `FD` when the store's access is issued. The load between
them faults, so neither view fetches the word after the store: Faulted in cycle 8 (R79, R229, R231). -/
theorem test_store_over_never_fetched_again :
    (runOf 8 [0x38100008, 0x30301000, 0x20400009, 0x50000000]).map State.status =
      some (.faulted ⟨.outOfBoundsAccess, 4, some 0x1000⟩) ∧
    (runOf 7 [0x38100008, 0x30301000, 0x20400009, 0x50000000]).map State.status =
      some .running := by decide
/-- The same store with nothing that faults in between: the word at 8 is refused in Execute, where the
architectural view refuses it too (R79, log 7). -/
theorem test_store_over_executed :
    refusalOf (cycles 20 (loaded [0x38100008, 0x20300001, 0x20400009, 0x50000000])) =
      some (.selfModifiedCode 8) ∧
    refusalOf (Sys2Proof.core.run 3 (loaded [0x38100008, 0x20300001, 0x20400009, 0x50000000])) =
      some (.selfModifiedCode 8) := by decide
theorem test_breakpoint :
    (setBreakpoint 8 (setBreakpoint 4 State.reset)).breakpoints = [4, 8] ∧
      (clearBreakpoint 4 (setBreakpoint 8 (setBreakpoint 4 State.reset))).breakpoints = [8] := by
  decide
theorem test_read_memory :
    readMemory 4095 1 State.reset = .value 0 ∧ readMemory 4096 4 State.reset = .outOfBounds ∧
      readMemory 4095 2 State.reset = .refused (.badMemoryRead 4095 2) ∧
      readRegister 16 State.reset = .refused (.noSuchRegister 16) := by decide
theorem test_listing :
    listingLine (.addim 2 0xFFFFFFFE) = "ADDIM R2,-2" ∧ listingLine .ret = "RET" := by decide
/-! ### Witnesses: states and operands that meet the hypotheses of each obligation -/

theorem reset_memoryOk : State.reset.memoryOk := ⟨rfl, by simp [State.reset]⟩

theorem reset_cachesFit : State.reset.cachesFit := by
  refine .cons ⟨rfl, fun ln h => ?_⟩ .nil
  rw [List.eq_of_mem_replicate h]
  rfl

theorem reset_coherent : State.reset.coherent := by
  refine .cons (fun j ln h hv => ?_) .nil
  rw [List.eq_of_mem_replicate (List.mem_of_getElem? h)] at hv
  cases hv

theorem reset_memorySystemOk : State.reset.memorySystemOk :=
  ⟨by decide, reset_memoryOk, reset_cachesFit, reset_coherent⟩

theorem reset_rasOk : State.reset.rasOk := by simp [State.rasOk, State.reset, Config.cfg1]

theorem reset_pcOk : State.reset.pcOk := by simp [State.pcOk, State.reset, wordAligned]

theorem reset_latchesAligned : State.reset.latchesAligned := by
  simp [State.latchesAligned, State.reset]

theorem reset_haltOk : State.reset.haltOk := by
  constructor <;> simp [State.reset]

/-- CFG1 with the image of one `HALT` at address 8. -/
def cfgImage : Config :=
  { Config.cfg1 with loadBase := 8, image := wordBytes 0x50000000 }

theorem witness_ResetLeavesTheTable :
    ({ State.reset with cfg := cfgImage, sp := 3 } : State).cfg.wf = true ∧
      cfgImage.image[0]? = some 0 ∧ cfgImage.image[3]? = some 0x50 ∧
      7 < cfgImage.loadBase ∧ cfgImage.loadBase + cfgImage.image.length ≤ 12 := by decide

theorem witness_ResetStateIsLegal :
    Config.cfg1.wf = true ∧ cfgImage.wf = true ∧ cfg2.wf = true := by decide

theorem witness_DecodeOfEncodeIsTheInstruction :
    Instr.wf (.addim 15 0xFFF80000) = true ∧ Instr.wf (.addim 0 0x7FFFF) = true ∧
      Instr.wf (.ld32 0 0) = true ∧ Instr.wf (.st32 15 0xFFFFF) = true ∧
      Instr.wf (.jmp 0) = true ∧ Instr.wf (.call 0x3FFFFFC) = true ∧
      Instr.wf (.shru 15 15 15) = true ∧ Instr.wf .ret = true := by decide

theorem witness_DecodeIgnoresExactlyTheUnusedBits :
    decode 0x28F12FFF = .ok (.cmp32 1 2) ∧
      (0x28012000 : Word) &&& usedBits (Instr.cmp32 1 2).op =
        0x28F12FFF &&& usedBits (Instr.cmp32 1 2).op := by decide

theorem witness_DecodeFollowsTheOpcodeMap :
    (0x10312000 : Word).extractLsb' 24 8 = 0x10 ∧ (0x2028_0000 : Word).extractLsb' 24 8 = 0x20 ∧
      (0x30FFFFFC : Word).extractLsb' 24 8 = 0x30 ∧ (0x48FFFFFF : Word).extractLsb' 24 8 = 0x48 ∧
      (0x50FFFFFF : Word).extractLsb' 24 8 = 0x50 ∧
      ((0x0FFFFFFF : Word).extractLsb' 24 8).toNat ∉ assignedOpcodes ∧
      ((0xFF000000 : Word).extractLsb' 24 8).toNat ∉ assignedOpcodes := by decide

/-- An instruction in the last word of memory. -/
def lastWord (w : Word) : State := { (withWord 4092 w) with pc := 4092 }

theorem witness_StepRunsTheDecodedInstruction :
    (lastWord 0x10312000).cfg.wf = true ∧ (lastWord 0x10312000).status = .running ∧
      (lastWord 0x10312000).pc.toNat + 4 ≤ (lastWord 0x10312000).cfg.memSize ∧
      storedOver (lastWord 0x10312000).stored (lastWord 0x10312000).pc = false ∧
      decodeBytes (readBytes (lastWord 0x10312000).mem (lastWord 0x10312000).pc.toNat 4) =
        .ok (.addi 3 1 2, []) := by decide

/-- A program that has stored into its first word. -/
def storedFirst : State := { (withWord 0 0x50000000) with stored := [0] }

theorem witness_StepWithoutAnInstruction_outside :
    (atPc 4096).cfg.wf = true ∧ (atPc 4096).status = .running ∧
      (atPc 4096).cfg.memSize < (atPc 4096).pc.toNat + 4 := by decide
theorem witness_StepWithoutAnInstruction_stored :
    storedFirst.cfg.wf = true ∧ storedFirst.status = .running ∧
      storedFirst.pc.toNat + 4 ≤ storedFirst.cfg.memSize ∧
      storedOver storedFirst.stored storedFirst.pc = true := by decide
theorem witness_StepWithoutAnInstruction_undecodable :
    (lastWord 0xFF000000).pc.toNat + 4 ≤ (lastWord 0xFF000000).cfg.memSize ∧
      storedOver (lastWord 0xFF000000).stored (lastWord 0xFF000000).pc = false ∧
      ∀ i rest, decodeBytes (readBytes (lastWord 0xFF000000).mem
        (lastWord 0xFF000000).pc.toNat 4) ≠ .ok (i, rest) := by
  refine ⟨by decide, by decide, fun i rest h => ?_⟩
  rw [show decodeBytes (readBytes (lastWord 0xFF000000).mem (lastWord 0xFF000000).pc.toNat 4) =
    .error (.invalidOpcode 0xFF000000) by decide] at h
  cases h
theorem witness_StepWithoutAnInstruction_stopped :
    State.reset.cfg.wf = true ∧ ({ State.reset with status := .halted } : State).status ≠ .running ∧
      ({ State.reset with cfg := { Config.cfg1 with levels := [] } } : State).cfg.wf = false := by
  decide

theorem witness_PlacedWordIsExecuted :
    (atPc 4092).cfg.wf = true ∧ (atPc 4092).status = .running ∧ (atPc 4092).memoryOk ∧
      (atPc 4092).pc.toNat + 4 ≤ (atPc 4092).cfg.memSize ∧ 0x50FFFFFF < 2 ^ 32 ∧
      decodeTableWord 32 0x50FFFFFF = some .halt :=
  ⟨by decide, rfl, reset_memoryOk, by decide, by decide, by decide⟩

theorem witness_AddImmediateSignExtends :
    decode 0x2037FFFF = .ok (.addim 3 0x7FFFF) ∧ decode 0x20380000 = .ok (.addim 3 0xFFF80000) := by
  decide

theorem witness_LoadsReadTheWord_direct :
    effectiveAddress State.reset.readReg (.ld32 3 0xFFC) = some 0xFFC ∧
      State.reset.memorySystemOk ∧ (0xFFC : Word).toNat % 4 = 0 ∧
      (0xFFC : Word).toNat + 4 ≤ State.reset.cfg.memSize :=
  ⟨rfl, reset_memorySystemOk, by decide, by decide⟩
theorem witness_LoadsReadTheWord_indirect :
    effectiveAddress State.reset.readReg (.ldin32 0 0) = some 0 ∧ State.reset.memorySystemOk ∧
      (0 : Word).toNat % 4 = 0 ∧ (0 : Word).toNat + 4 ≤ State.reset.cfg.memSize :=
  ⟨by decide, reset_memorySystemOk, by decide, by decide⟩

theorem witness_StoresWriteTheWord :
    effectiveAddress (twoRegs 7 0xFFC).readReg (.stin32 1 2) = some 0xFFC ∧
      effectiveAddress (twoRegs 7 0xFFC).readReg (.st32 1 0) = some 0 ∧
      (twoRegs 7 0xFFC).memoryOk ∧ (0xFFC : Word).toNat % 4 = 0 ∧
      (0xFFC : Word).toNat + 4 ≤ (twoRegs 7 0xFFC).cfg.memSize :=
  ⟨by decide, rfl, reset_memoryOk, by decide, by decide⟩

theorem witness_AccessOutsideMemoryFaults :
    effectiveAddress (twoRegs 7 0xFFFFFFFC).readReg (.ldin32 1 2) = some 0xFFFFFFFC ∧
      (0xFFFFFFFC : Word).toNat % 4 = 0 ∧
      (twoRegs 7 0xFFFFFFFC).cfg.memSize < (0xFFFFFFFC : Word).toNat + 4 ∧
      effectiveAddress State.reset.readReg (.st32 0 0x1000) = some 0x1000 ∧
      State.reset.cfg.memSize < (0x1000 : Word).toNat + 4 ∧
      effectiveAddress State.reset.readReg (.ld32 0 0x1001) = some 0x1001 ∧
      (0x1001 : Word).toNat % 4 ≠ 0 := by decide

theorem witness_JumpsFollowTheConditionTable :
    ∃ t, exec (.cmp32 1 2) (twoRegs 0x80000000 0x7FFFFFFF) = .next t ∧ t.flags.le = false :=
  ⟨_, rfl, by decide⟩

theorem withRas_rasOk (a b c d : Word) (k : Nat) (hk : k ≤ 4) : (withRas [a, b, c, d] k).rasOk :=
  ⟨rfl, hk⟩

theorem witness_CallPushesTheReturnAddress :
    ((withRas [4, 8, 12, 16] 0).rasOk ∧
      (withRas [4, 8, 12, 16] 0).sp < (withRas [4, 8, 12, 16] 0).cfg.stackDepth) ∧
    ((withRas [4, 8, 12, 16] 3).rasOk ∧
      (withRas [4, 8, 12, 16] 3).sp < (withRas [4, 8, 12, 16] 3).cfg.stackDepth) ∧
    ((withRas [4, 8, 12, 16] 4).rasOk ∧
      (withRas [4, 8, 12, 16] 4).sp = (withRas [4, 8, 12, 16] 4).cfg.stackDepth) :=
  ⟨⟨withRas_rasOk _ _ _ _ _ (by decide), by decide⟩,
    ⟨withRas_rasOk _ _ _ _ _ (by decide), by decide⟩,
    ⟨withRas_rasOk _ _ _ _ _ (by decide), by decide⟩⟩

theorem witness_RetPopsIntoPc :
    ((withRas [4, 8, 12, 16] 1).rasOk ∧ 0 < (withRas [4, 8, 12, 16] 1).sp) ∧
    ((withRas [4, 8, 12, 16] 4).rasOk ∧ 0 < (withRas [4, 8, 12, 16] 4).sp) ∧
    ((withRas [4, 8, 12, 16] 0).rasOk ∧ (withRas [4, 8, 12, 16] 0).sp = 0) :=
  ⟨⟨withRas_rasOk _ _ _ _ _ (by decide), by decide⟩,
    ⟨withRas_rasOk _ _ _ _ _ (by decide), by decide⟩,
    ⟨withRas_rasOk _ _ _ _ _ (by decide), by decide⟩⟩

theorem witness_HaltStopsTheEngine :
    State.reset.cfg.wf = true ∧ ∃ t, exec .halt State.reset = .next t ∧ t.status = .halted :=
  ⟨by decide, _, rfl, rfl⟩

theorem witness_CallThenRetComesBack :
    (withRas [4, 8, 12, 16] 3).rasOk ∧
      (withRas [4, 8, 12, 16] 3).sp < (withRas [4, 8, 12, 16] 3).cfg.stackDepth :=
  ⟨withRas_rasOk _ _ _ _ _ (by decide), by decide⟩

theorem witness_EachKindOfStateHasItsWriters :
    (∃ t, exec (.st32 1 0x200) (twoRegs 7 0) = .next t ∧ t.mem ≠ (twoRegs 7 0).mem) ∧
      (∃ t, exec (.cmp32 1 1) State.reset = .next t ∧ t.flags ≠ State.reset.flags) ∧
      (∃ t, exec (.ld32 1 0x100) State.reset = .next t ∧ t.caches ≠ State.reset.caches) ∧
      (∃ t, exec (.call 8) State.reset = .next t ∧ t.sp ≠ State.reset.sp) ∧
      (∃ t, exec .ret State.reset = .next t ∧ t.status ≠ State.reset.status) :=
  ⟨⟨_, rfl, by decide⟩, ⟨_, rfl, by decide⟩, ⟨_, rfl, by decide⟩, ⟨_, rfl, by decide⟩,
    ⟨_, rfl, by decide⟩⟩

theorem witness_OnlyListedSourcesAreRead :
    (3 : Reg) ∉ srcsOf (.addi 3 1 2) ∧ dstOf (.addi 3 1 2) = some 3 ∧
      (∃ t, exec (.addi 3 1 2) State.reset = .next t ∧ t.status = .running) ∧
      (∃ t, exec (.ld32 1 0x1000) State.reset = .next t ∧ t.status ≠ .running) ∧
      (0 : Reg) ∉ srcsOf (.ld32 1 0x1001) ∧
      exec (.ld32 1 0x1001) State.reset = .refused (.misalignedAccess 0 0x1001) ∧
      readsFlagsOp (Instr.cmp32 1 2).op = false ∧
      (∃ t, exec (.cmp32 1 2) State.reset = .next t) :=
  ⟨by decide, rfl, ⟨_, rfl, rfl⟩, ⟨_, rfl, by decide⟩, by decide, rfl, rfl, ⟨_, rfl⟩⟩

theorem witness_OnlyMisalignedAccessesAreRefused :
    exec (.ld32 1 0x1001) State.reset = .refused (.misalignedAccess 0 0x1001) ∧
      ∀ ea, effectiveAddress State.reset.readReg (.ld32 1 0x1000) = some ea → ea.toNat % 4 = 0 :=
  ⟨rfl, fun ea h => by
    rw [show ea = 0x1000 by simpa [effectiveAddress, directAddress] using h.symm]
    decide⟩

theorem witness_StepKeepsTheMemorySystem :
    State.reset.memorySystemOk ∧ ∃ t, step State.reset = .next t := ⟨reset_memorySystemOk, _, rfl⟩

/-- A load of the word at `ea` in the latch `EM`, in its first cycle. -/
def loading (ea : Word) : State :=
  { State.reset with em := some ⟨0x40, .ld32, some 3, ea, 0, none⟩ }

theorem witness_CycleKeepsTheMemorySystem :
    (loading 0x100).memorySystemOk ∧ (∃ t, cycle (loading 0x100) = .next t ∧ t.mbusy = 3) ∧
      (∃ t, cycle (loading 0x1000) = .next t ∧ t.status ≠ .running) :=
  ⟨memorySystemOk_congr _ _ reset_memorySystemOk rfl rfl rfl, ⟨_, rfl, by decide⟩,
    ⟨_, rfl, by decide⟩⟩

theorem witness_CachesNeverChangeAValue :
    Config.cfg1.wf = true ∧ Memory.wf State.reset.mem = true ∧
      List.Forall₂ levelFits Config.cfg1.levels State.reset.caches ∧
      List.Forall₂ (levelCoherent State.reset.mem) Config.cfg1.levels State.reset.caches ∧
      1 ∈ [1, 2, 4] ∧ 4095 % 1 = 0 ∧ 4 ∈ [1, 2, 4] ∧ 4092 % 4 = 0 :=
  ⟨by decide, rfl, reset_cachesFit, reset_coherent, by decide, by decide, by decide, by decide⟩

theorem witness_ReadAfterWriteReturnsTheValue :
    Config.cfg1.wf = true ∧ Memory.wf State.reset.mem = true ∧
      List.Forall₂ levelFits Config.cfg1.levels State.reset.caches ∧
      List.Forall₂ (levelCoherent State.reset.mem) Config.cfg1.levels State.reset.caches ∧
      4 ∈ [1, 2, 4] ∧ 4092 % 4 = 0 ∧ 0xFFFFFFFF < 2 ^ (8 * 4) ∧ 0xFF < 2 ^ (8 * 1) :=
  ⟨by decide, rfl, reset_cachesFit, reset_coherent, by decide, by decide, by decide, by decide⟩

theorem witness_ReadLatencyAndFill_hit :
    caches23.length = cfg2.levels.length ∧ firstHit cfg2 caches23 0x104 0 ∧
      firstHit cfg2 caches23 0x110 1 := by
  refine ⟨by decide, ⟨⟨_, _, rfl, rfl, _, rfl, rfl, by decide⟩, by simp⟩,
    ⟨⟨_, _, rfl, rfl, _, rfl, rfl, by decide⟩, ?_⟩⟩
  intro j hj lv cache hl hc
  obtain rfl : j = 0 := by omega
  obtain rfl : lv = ⟨32, 16, 1⟩ := by simpa [cfg2] using hl.symm
  obtain rfl := Option.some.inj hc
  rintro ⟨ln, h, hv, -⟩
  obtain rfl := Option.some.inj h
  cases hv

theorem witness_ReadLatencyAndFill_miss :
    State.reset.caches.length = Config.cfg1.levels.length ∧
      missesEverywhere Config.cfg1 State.reset.caches 0x100 := by
  refine ⟨rfl, fun j lv cache hl hc => ?_⟩
  have hj : j = 0 := by
    have := (List.getElem?_eq_some_iff.1 hl).1
    simp [Config.cfg1] at this
    exact this
  subst hj
  obtain rfl := Option.some.inj hc
  rintro ⟨ln, h, hv, -⟩
  rw [List.eq_of_mem_replicate (List.mem_of_getElem? h)] at hv
  cases hv

theorem witness_WriteIsThroughAndAllocatesNothing :
    Config.cfg1.wf = true ∧ Memory.wf State.reset.mem = true ∧
      List.Forall₂ levelFits Config.cfg1.levels State.reset.caches ∧ 2 ∈ [1, 2, 4] ∧
      4094 % 2 = 0 :=
  ⟨by decide, rfl, reset_cachesFit, by decide, by decide⟩

/-- The level of CFG1, its lines invalid. -/
def level1 : Level := ⟨64, 16, 1⟩

theorem witness_FillEvictsTheOtherTag :
    levelFits level1 (emptyCache level1) ∧ 0 < level1.nlines ∧
      0x140 / level1.line % level1.nlines = 0x100 / level1.line % level1.nlines ∧
      0x140 / (level1.line * level1.nlines) ≠ 0x100 / (level1.line * level1.nlines) := by
  refine ⟨⟨rfl, fun ln h => ?_⟩, by decide, by decide, by decide⟩
  rw [List.eq_of_mem_replicate h]
  rfl

theorem witness_CanonicalMemoriesAreEqualData :
    Memory.wf mem23 = true ∧ Memory.wf (writeByte (writeByte mem23 0x300 5) 0x300 0) = true ∧
      writeByte (writeByte mem23 0x300 5) 0x300 0 = mem23 := by decide

theorem witness_StepKeepsPcAligned :
    State.reset.pcOk ∧ ∃ t, step State.reset = .next t := ⟨reset_pcOk, _, rfl⟩

theorem witness_CycleKeepsPcAligned :
    State.reset.pcOk ∧ State.reset.latchesAligned ∧
      ∃ t, cycle State.reset = .next t ∧ t.pc = 4 ∧ t.fd = some ⟨0, 0⟩ :=
  ⟨reset_pcOk, reset_latchesAligned, _, rfl, rfl, by decide⟩

theorem witness_StackPointerStaysInRange :
    State.reset.rasOk ∧ (∃ t, step State.reset = .next t) ∧ ∃ t, cycle State.reset = .next t :=
  ⟨reset_rasOk, ⟨_, rfl⟩, ⟨_, rfl⟩⟩

/-- A compare in Memory's latch with flags to commit. -/
def committing : State :=
  { State.reset with mw := some ⟨0x40, .cmp32, none, 0, some ⟨true, false, true⟩⟩ }

theorem witness_FlagsStayALegalCombination :
    committing.flags.legal ∧ (∀ m f, committing.em = some m → m.flOut = some f → f.legal) ∧
      (∀ w f, committing.mw = some w → w.flOut = some f → f.legal) ∧
      ∃ t, cycle committing = .next t ∧ t.flags.eq = true := by
  refine ⟨by simp [committing, State.reset, Flags.legal], by simp [committing, State.reset], ?_,
    _, rfl, rfl⟩
  intro w f hw hf
  obtain rfl := Option.some.inj hw
  obtain rfl := Option.some.inj hf
  simp [Flags.legal]

/-- A `HALT` of address 0x40 about to commit, the pipe empty behind it. -/
def halting : State :=
  { State.reset with mw := some ⟨0x40, .halt, none, 0, none⟩, pc := 0x44 }

theorem witness_NothingFollowsAHaltInThePipe :
    halting.haltOk ∧ ∃ t, cycle halting = .next t ∧ t.status = .halted := by
  refine ⟨?_, _, rfl, rfl⟩
  constructor <;> simp [halting, State.reset, nextWordAddress]

/-- A register result about to commit. -/
def writingBack : State :=
  { State.reset with mw := some ⟨0x40, .addi, some 5, 77, none⟩ }

theorem witness_WritebackCommitsInEveryCycle :
    ∃ t, cycle writingBack = .next t ∧ t.readReg 5 = 77 := ⟨_, rfl, by decide⟩

theorem witness_LoadHoldsMemoryForItsLatency :
    (loading 0xFFC).cfg.wf = true ∧ (loading 0xFFC).status = .running ∧
      isLoadOp .ld32 = true ∧ (loading 0xFFC).mbusy = 0 ∧ (0xFFC : Word).toNat % 4 = 0 ∧
      (0xFFC : Word).toNat + 4 ≤ (loading 0xFFC).cfg.memSize ∧
      (∀ w, (loading 0xFFC).mw = some w → w.op ≠ .halt) ∧
      4 = (hierRead (loading 0xFFC).cfg (loading 0xFFC).mem (loading 0xFFC).caches
        (0xFFC : Word).toNat 4).latency :=
  ⟨by decide, rfl, rfl, rfl, by decide, by decide, by simp [loading, State.reset], by decide⟩

/-- The same load in a configuration whose accesses cost nothing (R226). -/
def loadingFree : State :=
  { loading 0 with cfg := { Config.cfg1 with levels := [⟨64, 16, 0⟩], memLat := 0 } }

theorem witness_LoadHoldsMemoryForItsLatency_free :
    loadingFree.cfg.wf = true ∧
      0 = (hierRead loadingFree.cfg loadingFree.mem loadingFree.caches (0 : Word).toNat 4).latency ∧
      ∃ u, cycles 1 loadingFree = .next u ∧ u.status = .running :=
  ⟨by decide, by decide, _, rfl, rfl⟩

/-- A store in its first cycle in Memory, another instruction in Execute. -/
def storingNow : State :=
  { State.reset with
    em := some ⟨0x40, .st32, none, 0xFFC, 7, none⟩
    de := some ⟨0x44, .halt, none, 0, 0, ⟨false, false, false⟩, 0⟩
    pc := 0x48 }

theorem witness_StoreHoldsMemoryForItsLatency :
    storingNow.cfg.wf = true ∧ storingNow.status = .running ∧ isStoreOp .st32 = true ∧
      storingNow.mbusy = 0 ∧ (0xFFC : Word).toNat % 4 = 0 ∧
      (0xFFC : Word).toNat + 4 ≤ storingNow.cfg.memSize ∧
      (∀ w, storingNow.mw = some w → w.op ≠ .halt) ∧
      4 = (hierWrite storingNow.cfg storingNow.mem storingNow.caches (0xFFC : Word).toNat 4
        (7 : Word).toNat).latency ∧
      (∃ t, cycles 3 storingNow = .next t ∧ t.mbusy = 1) ∧
      ∃ u, cycles 4 storingNow = .next u ∧ u.status = .running :=
  ⟨by decide, rfl, rfl, rfl, by decide, by decide, by simp [storingNow, State.reset], by decide,
    ⟨_, rfl, by decide⟩, ⟨_, rfl, rfl⟩⟩

/-- A load into R3 in Execute, `ADDI R2,R3,R3` in Decode. -/
def loadThenUse : State :=
  { State.reset with
    de := some ⟨0x40, .ld32, some 3, 0x100, 0, ⟨false, false, false⟩, 0⟩
    fd := some ⟨0x44, 0x10233000⟩
    pc := 0x48 }

theorem loadThenUse_haltOk : loadThenUse.haltOk := by
  constructor <;> simp [loadThenUse, State.reset, nextWordAddress]

theorem witness_LoadUseStallsOneCycle :
    loadThenUse.cfg.wf = true ∧ loadThenUse.status = .running ∧
      (∃ m, stageM loadThenUse = .ok m ∧ m.stall = false ∧ storedOver m.stored 0x40 = false) ∧
      loadThenUse.haltOk ∧
      (∃ e, loadThenUse.de = some e ∧ e.op = .ld32 ∧ e.dst = some 3) ∧
      (∃ d, loadThenUse.fd = some d ∧ decode d.word = .ok (.addi 2 3 3)) ∧
      readsRegister 3 (.addi 2 3 3) ∧
      (∃ m e o, stageM loadThenUse = .ok m ∧ stageE loadThenUse m.stored = .ok e ∧
        stageD loadThenUse (forwardsOf (stageW loadThenUse) m e) none = .ok o ∧ o.stall = true) :=
  ⟨by decide, rfl, ⟨_, rfl, rfl, by decide⟩, loadThenUse_haltOk, ⟨_, rfl, rfl, rfl⟩,
    ⟨_, rfl, by decide⟩, .inl rfl, ⟨_, _, _, rfl, rfl, rfl, by decide⟩⟩

/-- The same word in Decode with nothing in front of it. -/
def useAlone : State := { loadThenUse with de := none }

theorem witness_InstructionsMoveOneStageACycle :
    (∃ m e d t, stageM loadThenUse = .ok m ∧ m.stall = false ∧ stageE loadThenUse m.stored = .ok e ∧
      stageD loadThenUse (forwardsOf (stageW loadThenUse) m e) e.redirect = .ok d ∧
      d.stall = true ∧ cycle loadThenUse = .next t ∧ t.status = .running) ∧
    (∃ m e d t, stageM State.reset = .ok m ∧ m.stall = false ∧ stageE State.reset m.stored = .ok e ∧
      stageD State.reset (forwardsOf (stageW State.reset) m e) e.redirect = .ok d ∧
      d.stall = false ∧ e.redirect = none ∧ cycle State.reset = .next t ∧ t.status = .running) ∧
    (∃ m e d t, stageM useAlone = .ok m ∧ m.stall = false ∧ stageE useAlone m.stored = .ok e ∧
      stageD useAlone (forwardsOf (stageW useAlone) m e) e.redirect = .ok d ∧
      d.stall = false ∧ e.redirect = none ∧ useAlone.fd ≠ none ∧ cycle useAlone = .next t ∧
      t.status = .running) :=
  ⟨⟨_, _, _, _, rfl, rfl, rfl, rfl, by decide, rfl, rfl⟩,
    ⟨_, _, _, _, rfl, rfl, rfl, rfl, rfl, rfl, rfl, rfl⟩,
    ⟨_, _, _, _, rfl, rfl, rfl, rfl, by decide, rfl, by decide, rfl, rfl⟩⟩

/-- Three producers of R3 in flight, the youngest in Execute. -/
def producers (op : Opcode) : State :=
  { State.reset with
    de := some ⟨0x48, op, some 3, 8, 1, ⟨false, false, false⟩, 0⟩
    em := some ⟨0x44, .ori, some 3, 22, 0, none⟩
    mw := some ⟨0x40, .andi, some 3, 33, none⟩ }

/-- Two producers, Execute empty. -/
def olderProducers : State := { producers .addi with de := none }

theorem witness_InstructionsMoveOneStageACycle_noAccess :
    (∃ l, (producers .addi).em = some l) ∧
      ∀ l, (producers .addi).em = some l →
        l.op ≠ .ld32 ∧ l.op ≠ .ldin32 ∧ l.op ≠ .st32 ∧ l.op ≠ .stin32 := by
  simp [producers]

theorem witness_DecodeReadsTheYoungestValue :
    (∃ m e, stageM (producers .shri) = .ok m ∧ m.stall = false ∧ stageE (producers .shri) m.stored = .ok e ∧
      (forwardsOf (stageW (producers .shri)) m e).rd (producers .shri) 3 = 4) ∧
    (∃ m e, stageM (producers .subu) = .ok m ∧ m.stall = false ∧ stageE (producers .subu) m.stored = .ok e ∧
      (forwardsOf (stageW (producers .subu)) m e).rd (producers .subu) 3 = 7) ∧
    (∃ m e, stageM olderProducers = .ok m ∧ m.stall = false ∧ stageE olderProducers m.stored = .ok e ∧
      (∀ l, olderProducers.de = some l → l.dst ≠ some 3 ∨ isLoadOp l.op = true) ∧
      (forwardsOf (stageW olderProducers) m e).rd olderProducers 3 = 22) ∧
    (∃ m e, stageM (producers .cmp32) = .ok m ∧ stageE (producers .cmp32) m.stored = .ok e ∧
      (forwardsOf (stageW (producers .cmp32)) m e).rdFlags (producers .cmp32) =
        ⟨false, false, false⟩) :=
  ⟨⟨_, _, rfl, rfl, rfl, by decide⟩, ⟨_, _, rfl, rfl, rfl, by decide⟩,
    ⟨_, _, rfl, rfl, rfl, by simp [olderProducers], by decide⟩,
    ⟨_, _, rfl, rfl, by decide⟩⟩

/-- A transfer in Execute, an undecodable word in Decode, `pc` outside memory (R265, R301). -/
def transferring (op : Opcode) (fl : Flags) : State :=
  { withRas [4, 8, 12, 16] 3 with
    de := some ⟨0x40, op, none, 0, 0, fl, 0x80⟩
    fd := some ⟨0x44, 0xFFFFFFFF⟩
    pc := 4096 }

theorem witness_TakenTransferSquashesTwo :
    (transferring .jge ⟨false, false, false⟩).cfg.wf = true ∧
      (transferring .jge ⟨false, false, false⟩).status = .running ∧
      (∃ m, stageM (transferring .jge ⟨false, false, false⟩) = .ok m ∧ m.stall = false ∧
        storedOver m.stored 0x40 = false) ∧
      (∃ t, cycle (transferring .call ⟨false, false, false⟩) = .next t ∧ t.sp = 4 ∧ t.pc = 0x80) ∧
      (transferring .ret ⟨false, false, false⟩).rasOk ∧
      (∃ t, cycle (transferring .ret ⟨false, false, false⟩) = .next t ∧ t.sp = 2 ∧ t.pc = 12) :=
  ⟨by decide, rfl, ⟨_, rfl, rfl, by decide⟩, ⟨_, rfl, rfl, rfl⟩, withRas_rasOk 4 8 12 16 3 (by decide),
    ⟨_, rfl, rfl, by decide⟩⟩

/-- A `HALT` in Decode, `pc` at the end of memory. -/
def haltInDecode : State :=
  { State.reset with fd := some ⟨4092, 0x50FFFFFF⟩, pc := 4096 }

theorem witness_FetchAdvancesOrStopsBehindHalt :
    (∃ m e d, stageM haltInDecode = .ok m ∧ m.stall = false ∧ stageE haltInDecode m.stored = .ok e ∧
      e.redirect = none ∧
      stageD haltInDecode (forwardsOf (stageW haltInDecode) m e) none = .ok d ∧
      d.stall = false ∧ fetchStop haltInDecode = true) ∧
    (∃ m e d, stageM (atPc 4092) = .ok m ∧ m.stall = false ∧ stageE (atPc 4092) m.stored = .ok e ∧
      e.redirect = none ∧
      stageD (atPc 4092) (forwardsOf (stageW (atPc 4092)) m e) none = .ok d ∧
      d.stall = false ∧ fetchStop (atPc 4092) = false ∧
      (atPc 4092).pc.toNat + 4 ≤ (atPc 4092).cfg.memSize ∧
      storedOver (atPc 4092).stored (atPc 4092).pc = false) ∧
    (∃ m e d, stageM storedFirst = .ok m ∧ m.stall = false ∧ stageE storedFirst m.stored = .ok e ∧
      e.redirect = none ∧
      stageD storedFirst (forwardsOf (stageW storedFirst) m e) none = .ok d ∧
      d.stall = false ∧ fetchStop storedFirst = false ∧
      storedOver storedFirst.stored storedFirst.pc = true) :=
  ⟨⟨_, _, _, rfl, rfl, rfl, rfl, rfl, rfl, by decide⟩,
    ⟨_, _, _, rfl, rfl, rfl, rfl, rfl, rfl, by decide, by decide, by decide⟩,
    ⟨_, _, _, rfl, rfl, rfl, rfl, rfl, rfl, by decide, by decide⟩⟩

/-- A state in which Memory, Execute, Decode and Fetch would all fault in the same cycle. -/
def allFault : State :=
  { State.reset with
    em := some ⟨0x3C, .st32, none, 0x1000, 0, none⟩
    de := some ⟨0x40, .ret, none, 0, 0, ⟨false, false, false⟩, 0⟩
    fd := some ⟨0x44, 0xFFFFFFFF⟩
    pc := 4096 }

theorem witness_FaultingCycleKeepsWhatIsCommitted :
    (∃ t, cycle allFault = .next t ∧
      t.status = .faulted ⟨.outOfBoundsAccess, 0x3C, some 0x1000⟩) ∧
    (∃ t, cycle { allFault with em := none } = .next t ∧
      t.status = .faulted ⟨.stackUnderflow, 0x40, none⟩) ∧
    (∃ t, cycle { allFault with em := none, de := none } = .next t ∧
      t.status = .faulted ⟨.invalidOpcode, 0x44, some 0xFFFFFFFF⟩) ∧
    (∃ t, cycle { allFault with em := none, de := none, fd := none } = .next t ∧
      t.status = .faulted ⟨.outOfBoundsAccess, 4096, some 4096⟩) :=
  ⟨⟨_, rfl, by decide⟩, ⟨_, rfl, by decide⟩, ⟨_, rfl, by decide⟩, ⟨_, rfl, by decide⟩⟩

theorem witness_OldestFaultWins :
    allFault.cfg.wf = true ∧ allFault.status = .running ∧
      faultsInMemory allFault ⟨.outOfBoundsAccess, 0x3C, some 0x1000⟩ ∧
      faultsInExecute { allFault with em := none } ⟨.stackUnderflow, 0x40, none⟩ ∧
      faultsInDecode { allFault with em := none, de := none }
        ⟨.invalidOpcode, 0x44, some 0xFFFFFFFF⟩ ∧
      (∃ m, stageM (loading 0x100) = .ok m ∧ m.stall = true) ∧
      (∃ m e, stageM { allFault with em := none, de := none } = .ok m ∧ m.stall = false ∧
        stageE { allFault with em := none, de := none } m.stored = .ok e ∧ e.redirect = none) ∧
      faultsInFetch (atPc 4096) ⟨.outOfBoundsAccess, 4096, some 4096⟩ ∧
      (∃ m e d, stageM (atPc 4096) = .ok m ∧ m.stall = false ∧ stageE (atPc 4096) m.stored = .ok e ∧
        e.redirect = none ∧
        stageD (atPc 4096) (forwardsOf (stageW (atPc 4096)) m e) none = .ok d ∧
        d.stall = false) := by
  refine ⟨by decide, rfl, ⟨_, rfl, rfl, rfl, by decide, by decide, by decide⟩,
    ⟨_, rfl, .inr ⟨rfl, rfl, rfl⟩⟩, ⟨_, rfl, by decide, rfl⟩, ⟨_, rfl, by decide⟩,
    ⟨_, _, rfl, rfl, rfl, rfl⟩, ⟨rfl, by decide, rfl⟩, ⟨_, _, _, rfl, rfl, rfl, rfl, rfl, rfl⟩⟩

/-- The last Memory cycle of a store into the instruction in Execute. -/
def storesAhead : State :=
  { State.reset with
    stored := [0x40]
    mbusy := 1
    em := some ⟨0x3C, .st32, none, 0x40, 7, none⟩
    de := some ⟨0x40, .halt, none, 0, 0, ⟨false, false, false⟩, 0⟩ }

/-- CFG1 with memory and cache of latency 0: an access takes one cycle. -/
def freeMemory : Config := { Config.cfg1 with levels := [⟨64, 16, 0⟩], memLat := 0 }

theorem witness_CycleRefusesOnlyTheListedCases :
    cycle (loading 0x102) = .refused (.misalignedAccess 0x40 0x102) ∧
      cycle storesAhead = .refused (.selfModifiedCode 0x40) ∧
      cycle { State.reset with cfg := freeMemory, em := storesAhead.em, de := storesAhead.de } =
        .refused (.selfModifiedCode 0x40) ∧
      cycle storedFirst = .refused (.selfModifiedCode 0) ∧
      cycle { State.reset with status := .halted } = .fault .engineNotRunning ∧
      cycle { State.reset with cfg := { Config.cfg1 with stackDepth := 0 } } =
        .refused .configurationRejected := ⟨rfl, rfl, rfl, rfl, rfl, rfl⟩

theorem witness_CycleMachineAgreesWithTheInterpreter :
    (imaged [0x14000000, 0x50000000]).wf = true ∧
      ∃ t, cycles 6 (State.init (imaged [0x14000000, 0x50000000]) []) = .next t ∧
        t.status = .halted := ⟨by decide, _, rfl, rfl⟩

theorem witness_ControllerStepIsOneCycle :
    State.reset.status = .running ∧ (∃ t, cycle State.reset = .next t) ∧
      ({ State.reset with status := .halted } : State).status ≠ .running :=
  ⟨rfl, ⟨_, rfl⟩, by decide⟩

theorem witness_RunStopsForItsReason :
    (∃ t, controllerRun 9 (loaded [0x14000000, 0x50000000]) = .next (t, .halted)) ∧
      (∃ t, controllerRun 9 (setBreakpoint 4 (loaded [0x14000000, 0x50000000])) =
        .next (t, .breakpoint)) ∧
      (∃ t, cycles 1 (setBreakpoint 4 (loaded [0x14000000, 0x50000000])) = .next t ∧
        stopReason t = some .breakpoint) ∧
      ({ State.reset with status := .halted } : State).status = .halted :=
  ⟨⟨_, rfl⟩, ⟨_, rfl⟩, ⟨_, rfl, rfl⟩, rfl⟩

theorem witness_BreakpointsAreInvisibleToTheEngine :
    (∃ t, cycle State.reset = .next t) ∧ (∃ t, step State.reset = .next t) ∧
      step storedFirst = .refused (.selfModifiedCode 0) ∧
      cycle storesAhead = .refused (.selfModifiedCode 0x40) := ⟨⟨_, rfl⟩, ⟨_, rfl⟩, rfl, rfl⟩

theorem witness_ControllerReadsSeeCommittedState :
    State.reset.memorySystemOk ∧ (4092 : Word).toNat % 4 = 0 ∧
      (4092 : Word).toNat + 4 ≤ State.reset.cfg.memSize ∧
      (∃ t, exec (.ld32 0 4092) State.reset = .next t) ∧ 4095 % 1 = 0 ∧ 15 < 16 :=
  ⟨reset_memorySystemOk, by decide, by decide, ⟨_, rfl⟩, by decide, by decide⟩

theorem witness_StageStatesFollowTheSignals :
    (∃ stop, stageM allFault = .error stop) ∧
    (∃ m, stageM (loading 0x100) = .ok m ∧ m.stall = true ∧ (loading 0x100).em ≠ none) ∧
    (∃ m stop, stageM { allFault with em := none } = .ok m ∧ m.stall = false ∧
      stageE { allFault with em := none } m.stored = .error stop) ∧
    (∃ m e, stageM (transferring .ret ⟨false, false, false⟩) = .ok m ∧ m.stall = false ∧
      stageE (transferring .ret ⟨false, false, false⟩) m.stored = .ok e ∧ e.redirect ≠ none ∧
      (transferring .ret ⟨false, false, false⟩).fd ≠ none) ∧
    (∃ m e d, stageM loadThenUse = .ok m ∧ m.stall = false ∧ stageE loadThenUse m.stored = .ok e ∧
      e.redirect = none ∧
      stageD loadThenUse (forwardsOf (stageW loadThenUse) m e) none = .ok d ∧
      d.stall = true) ∧
    (∃ m e stop, stageM { allFault with em := none, de := none } = .ok m ∧ m.stall = false ∧
      stageE { allFault with em := none, de := none } m.stored = .ok e ∧ e.redirect = none ∧
      stageD { allFault with em := none, de := none }
        (forwardsOf (stageW { allFault with em := none, de := none }) m e) none = .error stop) :=
  ⟨⟨_, rfl⟩, ⟨_, rfl, by decide, by decide⟩, ⟨_, _, rfl, rfl, rfl⟩,
    ⟨_, _, rfl, rfl, rfl, by decide, by decide⟩, ⟨_, _, _, rfl, rfl, rfl, rfl, rfl, by decide⟩,
    ⟨_, _, _, rfl, rfl, rfl, rfl, rfl⟩⟩

theorem witness_CycleWritesOnlyWhatAStageWrites :
    (∃ t, cycle storingNow = .next t ∧ t.mem ≠ storingNow.mem ∧ t.stored ≠ storingNow.stored) ∧
    (∃ t, cycle (loading 0x100) = .next t ∧ t.caches ≠ (loading 0x100).caches) ∧
    (∃ t, cycle { withWord 0x100 7 with em := (loading 0x100).em } = .next t ∧ t.mdata ≠ 0) ∧
    (∃ t, cycle (transferring .call ⟨false, false, false⟩) = .next t ∧ t.sp ≠ 3) ∧
    (∃ t, cycle (transferring .ret ⟨false, false, false⟩) = .next t ∧ t.sp ≠ 3) :=
  ⟨⟨_, rfl, by decide, by decide⟩, ⟨_, rfl, by decide⟩, ⟨_, rfl, by decide⟩, ⟨_, rfl, by decide⟩,
    ⟨_, rfl, by decide⟩⟩

end Sys2Proof.Machine.Tests
end

/-! SUPPORT. The obligations of `00_scope.md`: which configurations are constructed (R8, R9), what a
step does without an instruction (R64, R79, R260), and the frame of a cycle (R14, R227). -/

namespace Sys2Proof

/-! ### Construction (R8, R9) -/

theorem isPowerOfTwo_iff (n : Nat) : isPowerOfTwo n = true ↔ ∃ k, n = 2 ^ k := by
  constructor
  · intro h
    exact ⟨n.log2, (beq_iff_eq.1 h).symm⟩
  · rintro ⟨k, rfl⟩
    simp [isPowerOfTwo]

/-- The converse of `Config.ok_of_wf`: no check of R8 or R9 is left to break. -/
theorem Config.wf_of_ok (c : Config) (h : c.Ok) : c.wf = true := by
  have pow2 : (c.levels.all fun lv => isPowerOfTwo lv.line) = true :=
    List.all_eq_true.2 fun lv hl => (h.level lv hl).pow2
  have multiple : (c.levels.all fun lv => lv.cap % lv.line == 0) = true :=
    List.all_eq_true.2 fun lv hl => beq_iff_eq.2 (h.level lv hl).multiple
  have word : (c.levels.all fun lv => 4 ≤ lv.line) = true :=
    List.all_eq_true.2 fun lv hl => decide_eq_true (h.level lv hl).word
  have hasLine : (c.levels.all fun lv => lv.line ≤ lv.cap) = true :=
    List.all_eq_true.2 fun lv hl => decide_eq_true (h.level lv hl).hasLine
  have memMultiple : (c.levels.all fun lv => c.memSize % lv.line == 0) = true :=
    List.all_eq_true.2 fun lv hl => beq_iff_eq.2 (h.memMultiple lv hl)
  simp [Config.wf, Config.check, pow2, multiple, word, hasLine, memMultiple, h.hasLevel, h.memMin,
    h.memMax, Nat.one_le_iff_ne_zero.1 h.stack, h.entryAligned, h.entryInside, h.baseAligned,
    h.imageInside]

theorem Config.wf_iff_ok (c : Config) : c.wf = true ↔ c.Ok := ⟨c.ok_of_wf, c.wf_of_ok⟩

/-- CFG1 with a first level of three lines: a legal number of lines that is no power of two (R65). -/
def Config.threeLines : Config :=
  { Config.cfg1 with levels := [{ cap := 48, line := 16, lat := 1 }] }

theorem three_ne_two_pow (k : Nat) : 3 ≠ 2 ^ k := by
  cases k with
  | zero => decide
  | succ k => rw [pow_succ]; omega

namespace Machine

theorem construct_ok_iff (c : Config) : (∃ s, construct c = .ok s) ↔ c.wf = true := by
  cases h : c.check <;> simp [construct, Config.wf, h]

/-- Settles O1: construction answers by `Config.check`, which finds no broken check exactly when all of
`Config.Ok` holds. -/
theorem configurationAcceptedExactlyWhenChecksHold :
    Obligations.ConfigurationAcceptedExactlyWhenChecksHold := by
  intro c
  refine ⟨?_, ?_, ?_⟩
  · rw [construct_ok_iff, Config.wf_iff_ok]
    constructor
    · intro h
      refine ⟨h.hasLevel, fun lv hl => ?_, h.memMin, h.memMax, h.stack, h.entryAligned, h.entryInside,
        h.baseAligned, h.imageInside⟩
      obtain ⟨pow2, multiple, word, hasLine⟩ := h.level lv hl
      exact ⟨(isPowerOfTwo_iff _).1 pow2, multiple, word, hasLine, h.memMultiple lv hl⟩
    · rintro ⟨hasLevel, levels, memMin, memMax, stack, entryAligned, entryInside, baseAligned,
        imageInside⟩
      refine ⟨fun lv hl => ?_, hasLevel, memMin, memMax, fun lv hl => ?_, stack, entryAligned,
        entryInside, baseAligned, imageInside⟩
      all_goals obtain ⟨pow2, multiple, word, hasLine, memMultiple⟩ := levels lv hl
      · exact ⟨(isPowerOfTwo_iff _).2 pow2, multiple, word, hasLine⟩
      · exact memMultiple
  · cases construct c with
    | ok s => exact .inl ⟨s, rfl⟩
    | error e => exact .inr ⟨e, rfl⟩
  · exact ⟨Config.threeLines, _, (construct_ok_iff _).2 (by decide), List.mem_singleton.2 rfl,
      three_ne_two_pow⟩

/-! ### One step by cases (R229) -/

theorem step_running (s : State) (hc : s.cfg.wf = true) (hr : s.status = .running) :
    step s = runInstruction s := by
  simp [step, hc, hr]

theorem step_stopped (s : State) (hc : s.cfg.wf = true) (hr : s.status ≠ .running) :
    step s = .next s := by
  cases hs : s.status with
  | running => exact absurd hs hr
  | halted => simp [step, hc, hs]
  | faulted r => simp [step, hc, hs]

theorem step_configurationRejected (s : State) (hc : s.cfg.wf = false) :
    step s = .refused .configurationRejected := by
  simp [step, hc]

theorem fetchAt_inside (s : State) (pc : Word) (h : pc.toNat + 4 ≤ s.cfg.memSize) :
    s.fetchAt pc = some (memWord s.mem pc.toNat) := by
  simp [State.fetchAt, inBounds, h]

theorem fetchAt_outside (s : State) (pc : Word) (h : s.cfg.memSize < pc.toNat + 4) :
    s.fetchAt pc = none := by
  simp [State.fetchAt, inBounds, h]

theorem runInstruction_outside (s : State) (h : s.cfg.memSize < s.pc.toNat + 4) :
    runInstruction s = .next (s.raise .outOfBoundsAccess s.pc (some s.pc)) := by
  simp [runInstruction, fetchAt_outside s s.pc h]

theorem runInstruction_storedOver (s : State) (h : s.pc.toNat + 4 ≤ s.cfg.memSize)
    (hst : storedOver s.stored s.pc = true) :
    runInstruction s = .refused (.selfModifiedCode s.pc) := by
  simp [runInstruction, fetchAt_inside s s.pc h, hst]

theorem runInstruction_undecodable (s : State) (h : s.pc.toNat + 4 ≤ s.cfg.memSize)
    (hst : storedOver s.stored s.pc = false)
    (hd : ∀ i, decode (memWord s.mem s.pc.toNat) ≠ .ok i) :
    runInstruction s =
      .next (s.raise .invalidOpcode s.pc (some (memWord s.mem s.pc.toNat))) := by
  cases hw : decode (memWord s.mem s.pc.toNat) with
  | ok i => exact absurd hw (hd i)
  | error e => simp [runInstruction, fetchAt_inside s s.pc h, hst, hw]

/-! ### The word at an address, in the three forms of the claims (R53, R54) -/

theorem toNat_memWord (m : Mem) (a : Nat) : (memWord m a).toNat = word32At m a := by
  have hlt : leValue (readBytes m a 4) < 2 ^ 32 := by simpa using leValue_lt (readBytes m a 4)
  rw [memWord, BitVec.toNat_ofNat, Nat.mod_eq_of_lt hlt]
  simp only [readBytes, leValue, word32At, Nat.add_assoc, Nat.reduceAdd]
  omega

theorem decodeBytes_readBytes (m : Mem) (a : Nat) (i : Instr) (h : decode (memWord m a) = .ok i) :
    decodeBytes (readBytes m a 4) = .ok (i, []) := by
  have hw : decode (BitVec.ofNat 32 (leValue [readByte m a, readByte m (a + 1),
      readByte m (a + 1 + 1), readByte m (a + 1 + 1 + 1)])) = .ok i := h
  simp [readBytes, decodeBytes, hw]

/-- Settles O9, by the branches of `step` and `runInstruction`. -/
theorem stepWithoutAnInstruction : Obligations.StepWithoutAnInstruction := by
  intro s
  refine ⟨fun hc hr => ?_, step_stopped s, step_configurationRejected s⟩
  rw [step_running s hc hr]
  refine ⟨runInstruction_outside s, runInstruction_storedOver s, fun hin hst hd => ?_⟩
  have hundec : ∀ i, decode (memWord s.mem s.pc.toNat) ≠ .ok i := fun i hi =>
    hd i [] (decodeBytes_readBytes s.mem s.pc.toNat i hi)
  exact ⟨memWord s.mem s.pc.toNat, toNat_memWord _ _, runInstruction_undecodable s hin hst hundec⟩

/-! ### The frame of a cycle -/

theorem isLoadOp_iff (op : Opcode) : isLoadOp op = true ↔ op = .ld32 ∨ op = .ldin32 := by
  cases op <;> simp [isLoadOp]

theorem isStoreOp_iff (op : Opcode) : isStoreOp op = true ↔ op = .st32 ∨ op = .stin32 := by
  cases op <;> simp [isStoreOp]

theorem cycle_keeps_cfg (s t : State) (h : cycle s = .next t) : t.cfg = s.cfg := by
  obtain ⟨-, -, hcase⟩ := cycle_next s t h
  cases hcase <;> subst t <;> rfl

theorem cycle_keeps_breakpoints (s t : State) (h : cycle s = .next t) :
    t.breakpoints = s.breakpoints := by
  obtain ⟨-, -, hcase⟩ := cycle_next s t h
  cases hcase <;> subst t <;> rfl

/-- After a cycle, memory, caches and the record of stores are those the Memory stage leaves, and `mdata`
is that or the old one (R227); or the stage faulted and all four are the old ones. -/
theorem cycle_memoryOut (s t : State) (h : cycle s = .next t) :
    (t.mem = s.mem ∧ t.caches = s.caches ∧ t.stored = s.stored ∧ t.mdata = s.mdata) ∨
    ∃ m, stageM s = .ok m ∧ t.mem = m.mem ∧ t.caches = m.caches ∧ t.stored = m.stored ∧
      (t.mdata = m.mdata ∨ t.mdata = s.mdata) := by
  obtain ⟨-, -, hcase⟩ := cycle_next s t h
  cases hcase with
  | stalled m hm hs ht => subst ht; exact .inr ⟨m, hm, rfl, rfl, rfl, .inl rfl⟩
  | moved m e d f hm hs he hd hf ht => subst ht; exact .inr ⟨m, hm, rfl, rfl, rfl, .inl rfl⟩
  | faultM r hm ht => subst ht; exact .inl ⟨rfl, rfl, rfl, rfl⟩
  | faultE m r hm hs he ht => subst ht; exact .inr ⟨m, hm, rfl, rfl, rfl, .inr rfl⟩
  | faultD m e r hm hs he hd ht => subst ht; exact .inr ⟨m, hm, rfl, rfl, rfl, .inr rfl⟩
  | faultF m e d r hm hs he hd hf ht => subst ht; exact .inr ⟨m, hm, rfl, rfl, rfl, .inr rfl⟩

/-- What a cycle can do to memory, caches, the record of stores and `mdata` (R206, R207). -/
inductive CycleMemoryCase (s t : State) : Prop where
  /-- No access is in its first Memory cycle. -/
  | kept (hmem : t.mem = s.mem) (hcaches : t.caches = s.caches) (hstored : t.stored = s.stored)
      (hmdata : t.mdata = s.mdata)
  /-- The first cycle of a load. -/
  | load (m : ExecuteLatch) (he : s.em = some m) (hb : s.mbusy = 0) (hop : isLoadOp m.op = true)
      (hmem : t.mem = s.mem) (hstored : t.stored = s.stored)
  /-- The first cycle of a store. -/
  | store (m : ExecuteLatch) (he : s.em = some m) (hb : s.mbusy = 0) (hop : isStoreOp m.op = true)
      (hmem : t.mem = writeBytes s.mem m.res.toNat (leBytes 4 m.sdata.toNat))
      (hstored : t.stored = insertSorted m.res.toNat s.stored) (hmdata : t.mdata = s.mdata)

/-- The inversion lemma of a cycle for the memory system. -/
theorem cycle_memoryCase (s t : State) (h : cycle s = .next t) : CycleMemoryCase s t := by
  rcases cycle_memoryOut s t h with ⟨hmem, hcaches, hstored, hmdata⟩ |
    ⟨o, ho, hmem, hcaches, hstored, hmdata⟩
  · exact .kept hmem hcaches hstored hmdata
  · cases stageM_ok s o ho with
    | bubble he ho => subst ho; exact .kept hmem hcaches hstored (or_self_iff.1 hmdata)
    | pass m he hl hst ho => subst ho; exact .kept hmem hcaches hstored (or_self_iff.1 hmdata)
    | count m he hop hb ho => subst ho; exact .kept hmem hcaches hstored (or_self_iff.1 hmdata)
    | load m r he hop hb hr ho => subst ho; exact .load m he hb hop hmem hstored
    | store m r he hl hop hb hr ho =>
      obtain ⟨-, -, rfl⟩ := dataWrite_done s m.res m.sdata r hr
      subst ho
      exact .store m he hb hop hmem hstored (or_self_iff.1 hmdata)

/-- A cycle leaves the return-address stack as it is, or as Execute leaves it (R208, R227). -/
theorem cycle_executeOut (s t : State) (h : cycle s = .next t) :
    keepsRas s t ∨ ∃ m e, stageM s = .ok m ∧ m.stall = false ∧ stageE s m.stored = .ok e ∧
      t.ras = e.ras ∧ t.sp = e.sp := by
  obtain ⟨-, -, hcase⟩ := cycle_next s t h
  cases hcase with
  | stalled m hm hs ht => subst ht; exact .inl ⟨rfl, rfl⟩
  | moved m e d f hm hs he hd hf ht => subst ht; exact .inr ⟨m, e, hm, hs, he, rfl, rfl⟩
  | faultM r hm ht => subst ht; exact .inl ⟨rfl, rfl⟩
  | faultE m r hm hs he ht => subst ht; exact .inl ⟨rfl, rfl⟩
  | faultD m e r hm hs he hd ht => subst ht; exact .inr ⟨m, e, hm, hs, he, rfl, rfl⟩
  | faultF m e d r hm hs he hd hf ht => subst ht; exact .inr ⟨m, e, hm, hs, he, rfl, rfl⟩

/-- Execute writes the return-address stack for `CALL` and `RET` alone (R214, R215). -/
theorem stageE_ras (s : State) (stored : List Nat) (o : ExecuteOut) (h : stageE s stored = .ok o) :
    (o.ras = s.ras ∧ o.sp = s.sp) ∨
    ∃ l, s.de = some l ∧
      ((l.op = .call ∧ s.sp ≠ s.cfg.stackDepth ∧ o.ras = s.ras.set s.sp (l.pc + 4) ∧
          o.sp = s.sp + 1) ∨
       (l.op = .ret ∧ s.sp ≠ 0 ∧ o.ras = s.ras ∧ o.sp = s.sp - 1)) := by
  cases stageE_ok s stored o h with
  | bubble hd ho | alu _ _ hd hr ho | compare _ hd hop ho | access _ _ hd hop hs ho
  | jump _ _ hd hop ho => subst ho; exact .inl ⟨rfl, rfl⟩
  | call l hd hop hf ho => subst ho; exact .inr ⟨l, hd, .inl ⟨hop, hf, rfl, rfl⟩⟩
  | ret l hd hop hf ho => subst ho; exact .inr ⟨l, hd, .inr ⟨hop, hf, rfl, rfl⟩⟩

theorem keepsMemoryBut_of_writeBytes (s t : State) (ea n v : Nat) (hm : Memory.wf s.mem = true)
    (ht : t.mem = writeBytes s.mem ea (leBytes n v)) : keepsMemoryBut ea n s t := by
  intro a ha
  rw [ht]
  exact readByte_writeBytes_outside s.mem ea _ a hm (by simpa using ha)

/-- Settles O57, by what a cycle takes over from the Memory stage (`cycle_memoryCase`) and from Execute
(`cycle_executeOut`). -/
theorem cycleWritesOnlyWhatAStageWrites : Obligations.CycleWritesOnlyWhatAStageWrites := by
  intro s t h
  refine ⟨cycle_keeps_cfg s t h, cycle_keeps_breakpoints s t h, ?_, ?_, ?_, ?_⟩
  · intro hw
    cases cycle_memoryCase s t h with
    | kept hmem _ hstored _ => exact absurd hw (by simp [hmem, hstored])
    | load m _ _ _ hmem hstored => exact absurd hw (by simp [hmem, hstored])
    | store m he hb hop hmem hstored _ =>
      exact ⟨m, he, hb, (isStoreOp_iff _).1 hop, hstored, fun hwf =>
        keepsMemoryBut_of_writeBytes s t _ 4 _ hwf hmem⟩
  · intro hw
    cases cycle_memoryCase s t h with
    | kept _ hcaches _ _ => exact absurd hcaches hw
    | load m he hb hop _ _ =>
      exact ⟨m, he, hb, ((isLoadOp_iff _).1 hop).elim .inl fun h => .inr (.inl h)⟩
    | store m he hb hop _ _ _ => exact ⟨m, he, hb, .inr (.inr ((isStoreOp_iff _).1 hop))⟩
  · intro hw
    cases cycle_memoryCase s t h with
    | kept _ _ _ hmdata => exact absurd hmdata hw
    | load m he hb hop _ _ => exact ⟨m, he, hb, (isLoadOp_iff _).1 hop⟩
    | store _ _ _ _ _ _ hmdata => exact absurd hmdata hw
  · intro hw
    obtain ⟨m, o, hm, hs, ho, hras, hsp⟩ := (cycle_executeOut s t h).resolve_left hw
    rcases stageE_ras s m.stored o ho with ⟨kras, ksp⟩ | ⟨l, hd, hcase⟩
    · exact absurd ⟨hras.trans kras, hsp.trans ksp⟩ hw
    · rw [← hras, ← hsp] at hcase
      exact ⟨m, l, hm, hs, hd, hcase⟩

end Machine

end Sys2Proof

/-! SUPPORT. The obligations of `10_state.md`: which kinds of state an instruction writes (R22, R27,
R31, R34), the return-address stack in range (R30), legal flags (R27), aligned addresses (R25), and
the breakpoint set, which the engine never reads (R42). -/

namespace Sys2Proof

namespace Machine

/-! ### Who writes what, over all instructions -/

theorem instr_of_isStoreOp (i : Instr) (h : isStoreOp i.op = true) :
    (∃ ra addr, i = .st32 ra addr) ∨ ∃ ra rb, i = .stin32 ra rb := by
  cases i with
  | st32 ra addr => exact .inl ⟨ra, addr, rfl⟩
  | stin32 ra rb => exact .inr ⟨ra, rb, rfl⟩
  | addi | subi | andi | ori | xori | shli | shri | addu | subu | shru | addim | cmp32 | ld32
  | ldin32 | jmp | je | jne | jlt | jle | jgt | jge | call | ret | halt => cases h

theorem effectiveAddress_of_modeOf_none (rd : Reg → Word) (i : Instr) (h : modeOf i = none) :
    effectiveAddress rd i = none := by
  cases i with
  | ld32 | ldin32 | st32 | stin32 => cases h
  | addi | subi | andi | ori | xori | shli | shri | addu | subu | shru | addim | cmp32
  | jmp | je | jne | jlt | jle | jgt | jge | call | ret | halt => rfl

section

variable (i : Instr) (s t : State)

theorem effect_keepsRegsBut (h : Effect i s t) : keepsRegsBut (dstOf i) s t := by
  intro q hq
  cases h with
  | register ra v hd _ ht =>
    subst ht
    exact State.readReg_writeReg_ne s ra q v fun e => hq (e ▸ hd)
  | load ra ea r hd _ _ _ ht =>
    subst ht
    exact State.readReg_writeReg_ne (s.afterRead r) ra q _ fun e => hq (e ▸ hd)
  | flags | store | taken | notTaken | call | ret | halt | fault => subst t; rfl

/-- The flags of a next state are the old ones, or those of a `CMP32` (R27). -/
theorem effect_flags (h : Effect i s t) :
    t.flags = s.flags ∨ ∃ rb rc, i = .cmp32 rb rc ∧
      t.flags = compareFlags (s.readReg rb) (s.readReg rc) := by
  cases h with
  | flags rb rc hi ht => subst ht; exact .inr ⟨rb, rc, hi, rfl⟩
  | register | load | store | taken | notTaken | call | ret | halt | fault =>
    subst t; exact .inl rfl

theorem effect_keepsMem (h : Effect i s t) (hs : isStoreOp i.op ≠ true) :
    t.mem = s.mem ∧ t.stored = s.stored := by
  cases h with
  | store _ _ _ hop => exact absurd hop hs
  | register | flags | load | taken | notTaken | call | ret | halt | fault =>
    subst t; exact ⟨rfl, rfl⟩

theorem effect_keepsCaches (h : Effect i s t) (hi : modeOf i = none) : t.caches = s.caches := by
  have hnone := effectiveAddress_of_modeOf_none s.readReg i hi
  cases h with
  | load ra ea r _ _ he | store ra ea r _ he => rw [hnone] at he; cases he
  | register | flags | taken | notTaken | call | ret | halt | fault => subst t; rfl

theorem effect_keepsRas (h : Effect i s t) (hc : ∀ target, i ≠ .call target) (hr : i ≠ .ret) :
    keepsRas s t := by
  cases h with
  | call target hi => exact absurd hi (hc target)
  | ret hi => exact absurd hi hr
  | register | flags | load | store | taken | notTaken | halt | fault =>
    subst t; exact ⟨rfl, rfl⟩

theorem effect_status (h : Effect i s t) :
    t.status = s.status ∨ (i = .halt ∧ t.status = .halted) ∨
      ∃ f, t.status = .faulted f ∧ f.faultPc = s.pc ∧ t = { s with status := .faulted f } := by
  cases h with
  | halt hi ht => subst ht; exact .inr (.inl ⟨hi, rfl⟩)
  | fault kind info _ ht => exact .inr (.inr ⟨⟨kind, s.pc, info⟩, ht ▸ rfl, rfl, ht⟩)
  | register | flags | load | store | taken | notTaken | call | ret => subst t; exact .inl rfl

theorem effect_keepsPipeline (h : Effect i s t) : keepsPipeline s t := by
  cases h <;> subst t <;> exact ⟨rfl, rfl, rfl, rfl, rfl, rfl, rfl, rfl⟩

end

/-- Settles O24, one kind of state at a time, by the ways a next state of `exec` comes about. -/
theorem eachKindOfStateHasItsWriters : Obligations.EachKindOfStateHasItsWriters := by
  intro i s t h
  have heff := exec_next i s t h
  refine ⟨effect_keepsRegsBut i s t heff, fun hcmp => ?_, fun hst hstin => ?_,
    effect_keepsCaches i s t heff, effect_keepsRas i s t heff, effect_status i s t heff,
    effect_keepsPipeline i s t heff⟩
  · exact (effect_flags i s t heff).resolve_right fun ⟨rb, rc, hi, _⟩ => hcmp rb rc hi
  · refine effect_keepsMem i s t heff fun hop => ?_
    rcases instr_of_isStoreOp i hop with ⟨ra, addr, hi⟩ | ⟨ra, rb, hi⟩
    · exact hst ra addr hi
    · exact hstin ra rb hi

/-- A step changes nothing, takes a fault, or runs a decoded instruction (R229). -/
theorem step_effect (s t : State) (h : step s = .next t) :
    t = s ∨ (∃ kind info, t = s.raise kind s.pc info) ∨
      ∃ w i, decode w = .ok i ∧ Effect i s t := by
  obtain ⟨-, ⟨-, ht⟩ | ⟨-, ⟨-, ht⟩ | ⟨w, -, -, ⟨i, hd, hi⟩ | ⟨-, ht⟩⟩⟩⟩ := step_next s t h
  · exact .inl ht
  · exact .inr (.inl ⟨_, _, ht⟩)
  · exact .inr (.inr ⟨w, i, hd, exec_next i s t hi⟩)
  · exact .inr (.inl ⟨_, _, ht⟩)

/-! ### The return-address stack (R30, R31) -/

/-- What a transition of either view does to the return-address stack; `caller` says which address a
`CALL` can have. -/
inductive RasChange (caller : Word → Prop) (s t : State) : Prop where
  /-- No `CALL` and no `RET`. -/
  | kept (h : keepsRas s t)
  /-- A `CALL` with room (R168). -/
  | pushed (a : Word) (ha : caller a) (hroom : s.sp ≠ s.cfg.stackDepth)
      (hras : t.ras = s.ras.set s.sp (nextWordAddress a)) (hsp : t.sp = s.sp + 1)
  /-- A `RET` with an entry (R169). -/
  | popped (hsome : s.sp ≠ 0) (hras : t.ras = s.ras) (hsp : t.sp = s.sp - 1)

theorem effect_rasChange (i : Instr) (s t : State) (h : Effect i s t) :
    RasChange (fun a => a = s.pc) s t := by
  cases h with
  | call target _ hf ht => subst ht; exact .pushed s.pc rfl hf rfl rfl
  | ret _ hsome ht => subst ht; exact .popped hsome rfl rfl
  | register | flags | load | store | taken | notTaken | halt | fault =>
    subst t; exact .kept ⟨rfl, rfl⟩

theorem step_rasChange (s t : State) (h : step s = .next t) :
    t.cfg = s.cfg ∧ RasChange (fun a => a = s.pc) s t := by
  rcases step_effect s t h with rfl | ⟨kind, info, rfl⟩ | ⟨w, i, -, heff⟩
  · exact ⟨rfl, .kept ⟨rfl, rfl⟩⟩
  · exact ⟨rfl, .kept ⟨rfl, rfl⟩⟩
  · obtain ⟨hcfg, -⟩ := effect_keepsPipeline i s t heff
    exact ⟨hcfg, effect_rasChange i s t heff⟩

theorem cycle_rasChange (s t : State) (h : cycle s = .next t) :
    RasChange (fun a => ∃ e, s.de = some e ∧ a = e.pc) s t := by
  rcases cycle_executeOut s t h with hkept | ⟨m, o, -, -, ho, hras, hsp⟩
  · exact .kept hkept
  · rcases stageE_ras s m.stored o ho with
      ⟨kras, ksp⟩ | ⟨e, he, ⟨-, hroom, kras, ksp⟩ | ⟨-, hsome, kras, ksp⟩⟩
    · exact .kept ⟨hras.trans kras, hsp.trans ksp⟩
    · exact .pushed e.pc ⟨e, he, rfl⟩ hroom (hras.trans kras) (hsp.trans ksp)
    · exact .popped hsome (hras.trans kras) (hsp.trans ksp)

theorem rasOk_of_rasChange {caller : Word → Prop} {s t : State} (hs : s.rasOk)
    (hcfg : t.cfg = s.cfg) (h : RasChange caller s t) : t.rasOk := by
  obtain ⟨hlen, hle⟩ := hs
  cases h with
  | kept h =>
    obtain ⟨hras, hsp⟩ := h
    exact ⟨by rw [hras, hcfg, hlen], by rw [hsp, hcfg]; exact hle⟩
  | pushed a _ hroom hras hsp =>
    exact ⟨by rw [hras, hcfg, List.length_set, hlen], by rw [hsp, hcfg]; omega⟩
  | popped _ hras hsp => exact ⟨by rw [hras, hcfg, hlen], by rw [hsp, hcfg]; omega⟩

/-- Settles O37: both views change the stack in the ways of `RasChange` alone. -/
theorem stackPointerStaysInRange : Obligations.StackPointerStaysInRange := by
  refine ⟨fun s t hs h => ?_, fun s t hs h => ?_⟩
  · obtain ⟨hcfg, hchange⟩ := step_rasChange s t h
    exact rasOk_of_rasChange hs hcfg hchange
  · exact rasOk_of_rasChange hs (cycle_keeps_cfg s t h) (cycle_rasChange s t h)

/-! ### Legal flags (R27, R140) -/

/-- `≤` is `=` or `<`, and `<` excludes `=`. -/
theorem compareFlags_legal (a b : Word) : (compareFlags a b).legal := by
  constructor
  · have hle : a.toNat ≤ b.toNat ↔ a = b ∨ a.toNat < b.toNat := by
      rw [← BitVec.toNat_inj]; omega
    rw [Bool.eq_iff_iff]
    simp [compareFlags, hle]
  · rintro ⟨heq, hlt⟩
    obtain rfl := beq_iff_eq.1 heq
    exact lt_irrefl _ (of_decide_eq_true hlt)

theorem step_flags (s t : State) (h : step s = .next t) :
    t.flags = s.flags ∨ ∃ a b, t.flags = compareFlags a b := by
  rcases step_effect s t h with rfl | ⟨kind, info, rfl⟩ | ⟨w, i, -, heff⟩
  · exact .inl rfl
  · exact .inl rfl
  · exact (effect_flags i s t heff).imp_right fun ⟨_, _, _, hf⟩ => ⟨_, _, hf⟩

/-- Writeback commits whatever else a cycle does (R204, R227). -/
theorem cycle_flags (s t : State) (h : cycle s = .next t) : t.flags = (stageW s).flags := by
  obtain ⟨-, -, hcase⟩ := cycle_next s t h
  cases hcase <;> subst t <;> rfl

theorem cycle_em (s t : State) (h : cycle s = .next t) :
    t.em = s.em ∨ ∃ stored o, stageE s stored = .ok o ∧ t.em = o.em := by
  obtain ⟨-, -, hcase⟩ := cycle_next s t h
  cases hcase with
  | moved m e _ _ _ _ he _ _ ht => subst ht; exact .inr ⟨m.stored, e, he, rfl⟩
  | stalled | faultM | faultE | faultD | faultF => subst t; exact .inl rfl

theorem cycle_mw (s t : State) (h : cycle s = .next t) :
    t.mw = s.mw ∨ ∃ o, stageM s = .ok o ∧ t.mw = o.mw := by
  obtain ⟨-, -, hcase⟩ := cycle_next s t h
  cases hcase with
  | stalled m hm _ ht | moved m _ _ _ hm _ _ _ _ ht => subst ht; exact .inr ⟨m, hm, rfl⟩
  | faultM | faultE | faultD | faultF => subst t; exact .inl rfl

theorem stageW_flags (s : State) :
    (stageW s).flags = s.flags ∨ ∃ w, s.mw = some w ∧ w.flOut = some (stageW s).flags := by
  cases hw : s.mw with
  | none => simp [stageW, hw]
  | some w => cases hf : w.flOut <;> simp [stageW, hw, hf]

theorem accessCycle_flOut (m : ExecuteLatch) (mem : Mem) (caches : List Cache) (stored : List Nat)
    (mdata : Word) (rem : Nat) (w : MemoryLatch)
    (hw : (accessCycle m mem caches stored mdata rem).mw = some w) : w.flOut = none := by
  by_cases hr : rem = 0
  · simp only [accessCycle, hr, if_true, Option.some.injEq] at hw
    exact hw ▸ rfl
  · simp [accessCycle, hr] at hw

/-- Memory hands on the flags it received, or none (R205, R207). -/
theorem stageM_flOut (s : State) (o : MemoryOut) (w : MemoryLatch) (f : Flags)
    (h : stageM s = .ok o) (hw : o.mw = some w) (hf : w.flOut = some f) :
    ∃ m, s.em = some m ∧ m.flOut = some f := by
  cases stageM_ok s o h with
  | bubble _ ho => subst ho; cases hw
  | pass m he _ _ ho =>
    subst ho
    obtain rfl := Option.some.inj hw
    exact ⟨m, he, hf⟩
  | count _ _ _ _ ho | load _ _ _ _ _ _ ho | store _ _ _ _ _ _ _ ho =>
    subst ho
    rw [accessCycle_flOut _ _ _ _ _ _ w hw] at hf
    cases hf

/-- The only flags Execute hands on are those of a compare (R211). -/
theorem stageE_flOut (s : State) (stored : List Nat) (o : ExecuteOut) (m : ExecuteLatch) (f : Flags)
    (h : stageE s stored = .ok o) (hm : o.em = some m) (hf : m.flOut = some f) :
    ∃ a b, f = compareFlags a b := by
  cases stageE_ok s stored o h with
  | bubble _ ho => subst ho; cases hm
  | compare e _ _ ho =>
    subst ho
    obtain rfl := Option.some.inj hm
    exact ⟨e.a, e.b, (Option.some.inj hf).symm⟩
  | alu _ _ _ _ ho | access _ _ _ _ _ ho | jump _ _ _ _ ho | call _ _ _ _ ho | ret _ _ _ _ ho =>
    subst ho
    obtain rfl := Option.some.inj hm
    cases hf

/-- Settles O38: new flags are those of a compare, and the pipe only hands flags on. -/
theorem flagsStayALegalCombination : Obligations.FlagsStayALegalCombination := by
  refine ⟨fun s t hs h => ?_, fun s t hs hem hmw h => ⟨?_, ?_, ?_⟩⟩
  · rcases step_flags s t h with hf | ⟨a, b, hf⟩
    · exact hf ▸ hs
    · exact hf ▸ compareFlags_legal a b
  · rw [cycle_flags s t h]
    rcases stageW_flags s with hf | ⟨w, hw, hf⟩
    · exact hf ▸ hs
    · exact hmw w _ hw hf
  · intro m f hm hf
    rcases cycle_em s t h with hkept | ⟨stored, o, ho, hmoved⟩
    · exact hem m f (hkept ▸ hm) hf
    · obtain ⟨a, b, rfl⟩ := stageE_flOut s stored o m f ho (hmoved ▸ hm) hf
      exact compareFlags_legal a b
  · intro w f hw hf
    rcases cycle_mw s t h with hkept | ⟨o, ho, hmoved⟩
    · exact hmw w f (hkept ▸ hw) hf
    · obtain ⟨m, hm, hmf⟩ := stageM_flOut s o w f ho (hmoved ▸ hw) hf
      exact hem m f hm hmf

/-! ### Aligned addresses (R25, R57) -/

theorem wordAligned_nextWordAddress {a : Word} (h : wordAligned a) :
    wordAligned (nextWordAddress a) := by
  unfold wordAligned nextWordAddress at *
  bv_omega

theorem wordAligned_scaledTarget (v : Nat) : wordAligned (scaledTarget v) := by
  simp only [wordAligned, scaledTarget, BitVec.toNat_ofNat]
  omega

/-- A decoded target is scaled by 4 (R99). -/
theorem wordAligned_targetOf_of_decode {w : Word} {i : Instr} {a : Word} (h : decode w = .ok i)
    (ha : targetOf i = some a) : wordAligned a := by
  obtain ⟨op, -, rfl⟩ := decode_ok w i h
  have hscaled : a = scaledTarget (tgt24Field w) := by
    cases op with
    | jmp | je | jne | jlt | jle | jgt | jge | call => exact (Option.some.inj ha).symm
    | addi | subi | andi | ori | xori | shli | shri | addu | subu | shru | addim | cmp32 | ld32
    | ldin32 | st32 | stin32 | ret | halt => cases ha
  exact hscaled ▸ wordAligned_scaledTarget _

theorem wordAligned_rasTop {s : State} (h : ∀ v ∈ s.ras, wordAligned v) : wordAligned s.rasTop := by
  rw [State.rasTop, List.getD_eq_getElem?_getD]
  cases hv : s.ras[s.sp - 1]? with
  | none => exact Nat.zero_mod 4
  | some v => exact h v (List.mem_of_getElem? hv)

theorem ras_wordAligned_of_rasChange {caller : Word → Prop} {s t : State}
    (hras : ∀ v ∈ s.ras, wordAligned v) (hcaller : ∀ a, caller a → wordAligned a)
    (h : RasChange caller s t) : ∀ v ∈ t.ras, wordAligned v := by
  cases h with
  | kept h => rw [h.1]; exact hras
  | popped _ h => rw [h]; exact hras
  | pushed a ha _ h =>
    rw [h]
    intro v hv
    rcases List.mem_or_eq_of_mem_set hv with hv | rfl
    · exact hras v hv
    · exact wordAligned_nextWordAddress (hcaller a ha)

theorem effect_pc_wordAligned {i : Instr} {s t : State} (hs : s.pcOk)
    (htarget : ∀ a, targetOf i = some a → wordAligned a) (h : Effect i s t) : wordAligned t.pc := by
  obtain ⟨hpc, hras⟩ := hs
  cases h with
  | register | flags | load | store | notTaken | halt =>
    subst t; exact wordAligned_nextWordAddress hpc
  | fault => subst t; exact hpc
  | taken target hi ht => subst ht; exact htarget target hi
  | call target hi _ ht => subst ht; exact htarget target (hi ▸ rfl)
  | ret _ _ ht => subst ht; exact wordAligned_rasTop hras

theorem step_pc_wordAligned {s t : State} (hs : s.pcOk) (h : step s = .next t) :
    wordAligned t.pc := by
  rcases step_effect s t h with rfl | ⟨kind, info, rfl⟩ | ⟨w, i, hd, heff⟩
  · exact hs.1
  · exact hs.1
  · exact effect_pc_wordAligned hs (fun _ => wordAligned_targetOf_of_decode hd) heff

/-- Settles O35: `pc` takes the next address, a decoded target or a return address, and only the
next address of `pc` is pushed. -/
theorem stepKeepsPcAligned : Obligations.StepKeepsPcAligned := by
  intro s t hs h
  have hcaller : ∀ a, a = s.pc → wordAligned a := fun a ha => ha ▸ hs.1
  exact ⟨step_pc_wordAligned hs h,
    ras_wordAligned_of_rasChange hs.2 hcaller (step_rasChange s t h).2⟩

/-- A redirect goes to the target in `DE`, or to the top of the return-address stack (R213 to
R215). -/
theorem stageE_redirect (s : State) (stored : List Nat) (o : ExecuteOut) (a : Word)
    (h : stageE s stored = .ok o) (ha : o.redirect = some a) :
    (∃ e, s.de = some e ∧ a = e.target) ∨ a = s.rasTop := by
  cases stageE_ok s stored o h with
  | bubble _ ho | alu _ _ _ _ ho | compare _ _ _ ho | access _ _ _ _ _ ho => subst ho; cases ha
  | jump e taken he _ ho =>
    subst ho
    cases taken with
    | false => cases ha
    | true => exact .inl ⟨e, he, (Option.some.inj ha).symm⟩
  | call e he _ _ ho => subst ho; exact .inl ⟨e, he, (Option.some.inj ha).symm⟩
  | ret _ _ _ _ ho => subst ho; exact .inr (Option.some.inj ha).symm

theorem stageE_redirect_wordAligned {s : State} {stored : List Nat} {o : ExecuteOut} (hs : s.pcOk)
    (hl : s.latchesAligned) (h : stageE s stored = .ok o) :
    ∀ a, o.redirect = some a → wordAligned a := by
  intro a ha
  rcases stageE_redirect s stored o a h ha with ⟨e, he, rfl⟩ | rfl
  · exact (hl.2 e he).2
  · exact wordAligned_rasTop hs.2

theorem decodeLatch_target_wordAligned (s : State) (fw : Forwards) (pc : Word) {w : Word}
    {i : Instr} (h : decode w = .ok i) : wordAligned (decodeLatch s fw pc i).target := by
  cases ht : targetOf i with
  | none => simp [decodeLatch, ht, wordAligned]
  | some a => simpa [decodeLatch, ht] using wordAligned_targetOf_of_decode h ht

theorem stageD_wordAligned {s : State} {fw : Forwards} {redirect : Option Word} {o : DecodeOut}
    (hl : s.latchesAligned) (h : stageD s fw redirect = .ok o) :
    ∀ e, o.de = some e → wordAligned e.pc ∧ wordAligned e.target := by
  intro e he
  cases stageD_ok s fw redirect o h with
  | nothing _ ho | stalled _ _ _ _ _ _ ho => subst ho; cases he
  | decoded d i _ hd hi _ ho =>
    subst ho
    obtain rfl := Option.some.inj he
    exact ⟨hl.1 d hd, decodeLatch_target_wordAligned s fw d.pc hi⟩

theorem stageF_wordAligned {s : State} {redirect : Option Word} {lustall : Bool} {o : FetchOut}
    (hpc : wordAligned s.pc) (hl : s.latchesAligned) (hr : ∀ a, redirect = some a → wordAligned a)
    (h : stageF s redirect lustall = .ok o) :
    wordAligned o.pc ∧ ∀ d, o.fd = some d → wordAligned d.pc := by
  cases stageF_ok s redirect lustall o h with
  | held _ ho => subst ho; exact ⟨hpc, hl.1⟩
  | redirected a _ ha ho => subst ho; exact ⟨hr a ha, fun d hd => by cases hd⟩
  | stopped _ _ _ ho => subst ho; exact ⟨hpc, fun d hd => by cases hd⟩
  | fetched _ _ _ _ _ ho =>
    subst ho
    refine ⟨wordAligned_nextWordAddress hpc, fun d hd => ?_⟩
    obtain rfl := Option.some.inj hd
    exact hpc

/-- A cycle that moves the pipe takes `pc`, `FD` and `DE` from Fetch and Decode; any other keeps
them (R208, R227). -/
theorem cycle_front_wordAligned {s t : State} (hs : s.pcOk) (hl : s.latchesAligned)
    (h : cycle s = .next t) : wordAligned t.pc ∧ t.latchesAligned := by
  obtain ⟨-, -, hcase⟩ := cycle_next s t h
  cases hcase with
  | stalled | faultM | faultE | faultD | faultF => subst t; exact ⟨hs.1, hl⟩
  | moved m e d f _ _ he hd hf ht =>
    subst ht
    obtain ⟨hpc, hfd⟩ := stageF_wordAligned hs.1 hl (stageE_redirect_wordAligned hs hl he) hf
    exact ⟨hpc, hfd, stageD_wordAligned hl hd⟩

/-- Settles O36: a redirect's address is one of `DE` or of the stack, `DE` takes its addresses from
`FD` and from the decoder, `FD` its own from `pc`. -/
theorem cycleKeepsPcAligned : Obligations.CycleKeepsPcAligned := by
  intro s t hs hl h
  have hcaller : ∀ a, (∃ e, s.de = some e ∧ a = e.pc) → wordAligned a := by
    rintro a ⟨e, he, rfl⟩
    exact (hl.2 e he).1
  obtain ⟨hpc, hlatches⟩ := cycle_front_wordAligned hs hl h
  exact ⟨⟨hpc, ras_wordAligned_of_rasChange hs.2 hcaller (cycle_rasChange s t h)⟩, hlatches⟩

/-! ### Breakpoints (R42, R279) -/

/-- The state with another breakpoint set. -/
def State.withBreakpoints (s : State) (bs : List Nat) : State := { s with breakpoints := bs }

/-- An outcome with its next state, if it has one, changed by `f`. -/
def mapNext (f : State → State) :
    Host.Outcome State Fault Refusal → Host.Outcome State Fault Refusal
  | .next t => .next (f t)
  | .fault r => .fault r
  | .refused r => .refused r

section

variable (s : State) (bs : List Nat)

/-! The shared operations, instructions and one step of the architectural view. -/

theorem jumpIf_withBreakpoints (taken : Bool) (target : Word) :
    jumpIf taken target (s.withBreakpoints bs) =
      mapNext (·.withBreakpoints bs) (jumpIf taken target s) := by
  cases taken <;> rfl

theorem loadWord_withBreakpoints (ra : Reg) (ea : Word) :
    loadWord ra ea (s.withBreakpoints bs) = mapNext (·.withBreakpoints bs) (loadWord ra ea s) := by
  have hread : dataRead (s.withBreakpoints bs) ea = dataRead s ea := rfl
  simp only [loadWord, hread]
  cases dataRead s ea <;> rfl

theorem storeWord_withBreakpoints (v ea : Word) :
    storeWord v ea (s.withBreakpoints bs) = mapNext (·.withBreakpoints bs) (storeWord v ea s) := by
  have hwrite : dataWrite (s.withBreakpoints bs) ea v = dataWrite s ea v := rfl
  simp only [storeWord, hwrite]
  cases dataWrite s ea v <;> rfl

theorem execCall_withBreakpoints (target : Word) :
    execCall target (s.withBreakpoints bs) =
      mapNext (·.withBreakpoints bs) (execCall target s) := by
  have hfull : (s.withBreakpoints bs).rasFull = s.rasFull := rfl
  simp only [execCall, hfull]
  cases s.rasFull <;> rfl

theorem execRet_withBreakpoints :
    execRet (s.withBreakpoints bs) = mapNext (·.withBreakpoints bs) (execRet s) := by
  have hempty : (s.withBreakpoints bs).rasEmpty = s.rasEmpty := rfl
  simp only [execRet, hempty]
  cases s.rasEmpty <;> rfl

theorem exec_withBreakpoints (i : Instr) :
    exec i (s.withBreakpoints bs) = mapNext (·.withBreakpoints bs) (exec i s) := by
  cases i with
  | addi | subi | andi | ori | xori | shli | shri | addu | subu | shru | addim | cmp32 | jmp
  | halt => rfl
  | ld32 | ldin32 => exact loadWord_withBreakpoints s bs _ _
  | st32 | stin32 => exact storeWord_withBreakpoints s bs _ _
  | je | jne | jlt | jle | jgt | jge => exact jumpIf_withBreakpoints s bs _ _
  | call => exact execCall_withBreakpoints s bs _
  | ret => exact execRet_withBreakpoints s bs

theorem runInstruction_withBreakpoints :
    runInstruction (s.withBreakpoints bs) = mapNext (·.withBreakpoints bs) (runInstruction s) := by
  have hfetch : (s.withBreakpoints bs).fetchAt (s.withBreakpoints bs).pc = s.fetchAt s.pc := rfl
  have hstored : storedOver (s.withBreakpoints bs).stored (s.withBreakpoints bs).pc =
    storedOver s.stored s.pc := rfl
  simp only [runInstruction, hfetch, hstored]
  cases s.fetchAt s.pc with
  | none => rfl
  | some w =>
    cases storedOver s.stored s.pc with
    | true => rfl
    | false =>
      cases hd : decode w with
      | ok i => simpa [hd] using exec_withBreakpoints s bs i
      | error e => simp only [hd]; rfl

theorem step_withBreakpoints :
    step (s.withBreakpoints bs) = mapNext (·.withBreakpoints bs) (step s) := by
  cases hc : s.cfg.wf with
  | false =>
    rw [step_configurationRejected s hc, step_configurationRejected (s.withBreakpoints bs) hc]
    rfl
  | true =>
    by_cases hr : s.status = .running
    · rw [step_running s hc hr, step_running (s.withBreakpoints bs) hc hr]
      exact runInstruction_withBreakpoints s bs
    · rw [step_stopped s hc hr, step_stopped (s.withBreakpoints bs) hc hr]
      rfl

/-! The clock cycle: no stage reads the breakpoint set. -/

theorem runCycle_withBreakpoints :
    runCycle (s.withBreakpoints bs) = mapNext (·.withBreakpoints bs) (runCycle s) := by
  have hW : stageW (s.withBreakpoints bs) = stageW s := rfl
  have hM : stageM (s.withBreakpoints bs) = stageM s := rfl
  have hE : stageE (s.withBreakpoints bs) = stageE s := rfl
  have hD : stageD (s.withBreakpoints bs) = stageD s := rfl
  have hF : stageF (s.withBreakpoints bs) = stageF s := rfl
  simp only [runCycle, hW, hM, hE, hD, hF]
  cases stageM s with
  | error stop => cases stop <;> rfl
  | ok m =>
    cases hs : m.stall with
    | true => simp only [hs, if_true]; rfl
    | false =>
      simp only [hs, Bool.false_eq_true, if_false]
      cases stageE s m.stored with
      | error stop => cases stop <;> rfl
      | ok e =>
        cases hd : stageD s (forwardsOf (stageW s) m e) e.redirect with
        | error stop => simp only [hd]; cases stop <;> rfl
        | ok d =>
          simp only [hd]
          cases stageF s e.redirect d.stall with
          | error stop => cases stop <;> rfl
          | ok f => rfl

theorem cycle_withBreakpoints :
    cycle (s.withBreakpoints bs) = mapNext (·.withBreakpoints bs) (cycle s) := by
  have hcfg : (s.withBreakpoints bs).cfg = s.cfg := rfl
  have hstatus : (s.withBreakpoints bs).status = s.status := rfl
  simp only [cycle, hcfg, hstatus]
  cases s.cfg.wf with
  | false => rfl
  | true =>
    cases s.status with
    | running => exact runCycle_withBreakpoints s bs
    | halted | faulted => rfl

end

theorem mem_setBreakpoint (s : State) (b : Word) (k : Nat) :
    k ∈ (setBreakpoint b s).breakpoints ↔ k = b.toNat ∨ k ∈ s.breakpoints :=
  mem_insertSorted b.toNat k s.breakpoints

theorem mem_clearBreakpoint (s : State) (b : Word) (k : Nat) :
    k ∈ (clearBreakpoint b s).breakpoints ↔ k ≠ b.toNat ∧ k ∈ s.breakpoints := by
  simp [clearBreakpoint, and_comm]

/-- Settles O54: both calls of the controller are `withBreakpoints`, with which both transitions
commute. -/
theorem breakpointsAreInvisibleToTheEngine : Obligations.BreakpointsAreInvisibleToTheEngine := by
  refine ⟨fun s a k b hb => ?_, fun s u b hu => ?_⟩
  · subst hb
    exact ⟨mem_setBreakpoint s b k, mem_clearBreakpoint s b k⟩
  · obtain ⟨bs, rfl⟩ : ∃ bs, u = s.withBreakpoints bs := by
      rcases hu with rfl | rfl
      · exact ⟨_, rfl⟩
      · exact ⟨_, rfl⟩
    rw [cycle_withBreakpoints, step_withBreakpoints]
    refine ⟨rfl, fun t h => ?_, fun f h => ?_, fun why h => ?_, fun t h => ?_, fun why h => ?_⟩ <;>
      rw [h] <;> rfl

end Machine

end Sys2Proof

/-! SUPPORT. The obligations of `20_memory.md`: the invariant of the memory system in both views (R35,
R72), the cache hierarchy's reads, writes and fills (R62 to R74), canonical memory (R51), the placed
instruction word (R54), and what is refused (R56, R79). -/

namespace Sys2Proof

namespace Machine

/-! ### The memory system's invariant (R35, R72) -/

/-- Settles O27: a step changes nothing, takes a fault, which touches neither memory nor
caches, or runs an instruction. -/
theorem stepKeepsTheMemorySystem : Obligations.StepKeepsTheMemorySystem := by
  intro s t hs h
  rcases step_effect s t h with rfl | ⟨kind, info, rfl⟩ | ⟨w, i, -, heff⟩
  · exact hs
  · exact memorySystemOk_congr _ _ hs rfl rfl rfl
  · exact effect_memorySystemOk i s t hs heff

/-- Settles O28: a cycle leaves memory and caches as they are or as the Memory stage leaves them. -/
theorem cycleKeepsTheMemorySystem : Obligations.CycleKeepsTheMemorySystem := by
  intro s t hs h
  have hcfg := cycle_keeps_cfg s t h
  rcases cycle_memoryOut s t h with ⟨hmem, hcaches, -, -⟩ | ⟨m, hm, hmem, hcaches, -, -⟩
  · exact memorySystemOk_congr s t hs hcfg hmem hcaches
  · obtain ⟨hafter, -⟩ := stageM_memory s m hs hm
    exact memorySystemOk_congr (s.afterM m) t hafter hcfg hmem hcaches

/-! ### Reset (R44, R292) -/

theorem emptyCache_fits (lv : Level) : levelFits lv (emptyCache lv) := by
  refine ⟨List.length_replicate, fun ln hln => ?_⟩
  rw [List.eq_of_mem_replicate hln]
  exact List.length_replicate

/-- A level with no valid line is coherent with any memory. -/
theorem emptyCache_coherent (m : Mem) (lv : Level) : levelCoherent m lv (emptyCache lv) := by
  intro j ln hj hv
  obtain rfl := List.eq_of_mem_replicate (List.mem_of_getElem? hj)
  cases hv

theorem init_memoryOk (cfg : Config) (bps : List Nat) (h : cfg.Ok) :
    (State.init cfg bps).memoryOk := by
  refine ⟨Memory.wf_writeBytes [] _ _ rfl, fun c hc => ?_⟩
  have himage := h.imageInside
  rcases mem_writeBytes [] cfg.loadBase cfg.image c hc with hnil | ⟨-, hlt⟩
  · cases hnil
  · exact lt_of_lt_of_le hlt himage

theorem init_memorySystemOk (cfg : Config) (bps : List Nat) (hcfg : cfg.wf = true) :
    (State.init cfg bps).memorySystemOk where
  config := hcfg
  memory := init_memoryOk cfg bps (Config.ok_of_wf cfg hcfg)
  fit := List.forall₂_map_right_iff.2 (List.forall₂_same.2 fun lv _ => emptyCache_fits lv)
  coherent := List.forall₂_map_right_iff.2
    (List.forall₂_same.2 fun lv _ => emptyCache_coherent _ lv)

theorem init_pcOk (cfg : Config) (bps : List Nat) (h : cfg.Ok) : (State.init cfg bps).pcOk := by
  constructor
  · have haligned := h.entryAligned
    have hpc : (State.init cfg bps).pc = BitVec.ofNat 32 cfg.entry := rfl
    rw [wordAligned, hpc, BitVec.toNat_ofNat]
    omega
  · intro v hv
    rw [List.eq_of_mem_replicate hv]
    exact Nat.zero_mod 4

/-- All latches are bubbles after reset (R44). -/
theorem init_latchesAligned (cfg : Config) (bps : List Nat) :
    (State.init cfg bps).latchesAligned :=
  ⟨fun _ hd => (by cases hd), fun _ he => (by cases he)⟩

theorem init_haltOk (cfg : Config) (bps : List Nat) : (State.init cfg bps).haltOk where
  fetched _ hd := by cases hd
  inDe _ he := by cases he
  inEm _ hm := by cases hm
  inMw _ hw := by cases hw
  busy hb := absurd rfl hb
  halted hs := by cases hs

/-- Settles O3, invariant by invariant. -/
theorem resetStateIsLegal : Obligations.ResetStateIsLegal := by
  refine ⟨fun cfg bps hcfg => ?_, by decide⟩
  have hok := Config.ok_of_wf cfg hcfg
  exact ⟨init_memorySystemOk cfg bps hcfg, ⟨List.length_replicate, Nat.zero_le _⟩,
    init_pcOk cfg bps hok, init_latchesAligned cfg bps, ⟨rfl, by simp [State.init]⟩,
    init_haltOk cfg bps⟩

/-! ### Values of the hierarchy (R66, R70, R72, R73) -/

theorem accessWidth_dvd {n : Nat} (h : n ∈ [1, 2, 4]) : n ∣ 4 := by
  revert n; decide

/-- Settles O29, by the law of each part of the hierarchy. -/
theorem cachesNeverChangeAValue : Obligations.CachesNeverChangeAValue := by
  intro cfg m caches addr n v hcfg hm hf hc hn ha
  have hdvd := accessWidth_dvd hn
  exact ⟨hierRead_value cfg m caches addr n hcfg hdvd ha hc,
    hierRead_fits cfg m caches addr n hf, hierRead_coherent cfg m caches addr n hc,
    hierWrite_fits cfg m caches addr n v hcfg hdvd ha hf,
    hierWrite_coherent cfg m caches addr n v hcfg hdvd ha hm hf hc⟩

/-- A write reaches main memory, whatever the caches hold (R70). -/
theorem readBytes_hierWrite (cfg : Config) (m : Mem) (caches : List Cache) (addr n v : Nat)
    (hm : Memory.wf m = true) :
    readBytes (hierWrite cfg m caches addr n v).mem addr n = leBytes n v := by
  simpa [hierWrite] using readBytes_writeBytes_same m addr (leBytes n v) hm

/-- Settles O30: the write leaves the caches coherent, so the read returns what memory holds. -/
theorem readAfterWriteReturnsTheValue : Obligations.ReadAfterWriteReturnsTheValue := by
  intro cfg m caches addr n v hcfg hm hf hc hn ha hv
  have hdvd := accessWidth_dvd hn
  have hcoherent := hierWrite_coherent cfg m caches addr n v hcfg hdvd ha hm hf hc
  have hlt : v < 256 ^ n := by simpa [Nat.pow_mul] using hv
  rw [hierRead_value cfg _ _ addr n hcfg hdvd ha hcoherent,
    readBytes_hierWrite cfg m caches addr n v hm, leValue_leBytes, Nat.mod_eq_of_lt hlt]

/-! ### Hits and misses (R63) -/

theorem hitsLevel_iff (lv : Level) (cache : Cache) (addr : Nat) :
    hitsLevel lv cache addr ↔ ∃ ln, hitLine lv cache addr = some ln := by
  constructor
  · rintro ⟨ln, hget, hv, ht⟩
    have hget : cache[lineIndex lv addr]? = some ln := hget
    exact ⟨ln, by simp [hitLine, hget, hv, ht, lineTag]⟩
  · rintro ⟨ln, h⟩
    exact ⟨ln, hitLine_some lv cache addr ln h⟩

theorem hitLine_eq_none_iff (lv : Level) (cache : Cache) (addr : Nat) :
    hitLine lv cache addr = none ↔ ¬hitsLevel lv cache addr := by
  rw [hitsLevel_iff, not_exists, Option.eq_none_iff_forall_ne_some]

/-- The probe stops at the first level hit, having paid for the levels down to it (R66, R67). -/
theorem probe_of_firstHit (levels : List Level) (caches : List Cache) (addr n k : Nat) (lv : Level)
    (cache : Cache) (hlv : levels[k]? = some lv) (hcache : caches[k]? = some cache)
    (hhit : hitsLevel lv cache addr)
    (hbefore : ∀ j < k, ∀ lv cache, levels[j]? = some lv → caches[j]? = some cache →
      ¬hitsLevel lv cache addr) :
    ∃ v, probe levels caches addr n = some (v, ((levels.take (k + 1)).map Level.lat).sum) := by
  induction levels generalizing caches k with
  | nil => cases hlv
  | cons l levels ih =>
    cases caches with
    | nil => cases hcache
    | cons c caches =>
      cases k with
      | zero =>
        obtain rfl : l = lv := Option.some.inj hlv
        obtain rfl : c = cache := Option.some.inj hcache
        obtain ⟨ln, hln⟩ := (hitsLevel_iff l c addr).1 hhit
        exact ⟨lineValue l ln addr n, by simp [probe, hln]⟩
      | succ k =>
        have hmiss := (hitLine_eq_none_iff l c addr).2 (hbefore 0 (Nat.succ_pos k) l c rfl rfl)
        obtain ⟨v, hv⟩ := ih caches k hlv hcache fun j hj lv cache hl hc =>
          hbefore (j + 1) (Nat.succ_lt_succ hj) lv cache hl hc
        exact ⟨v, by simp [probe, hmiss, hv]⟩

theorem probe_of_miss (levels : List Level) (caches : List Cache) (addr n : Nat)
    (hmiss : ∀ (j : Nat) lv cache, levels[j]? = some lv → caches[j]? = some cache →
      ¬hitsLevel lv cache addr) : probe levels caches addr n = none := by
  induction levels generalizing caches with
  | nil => rfl
  | cons l levels ih =>
    cases caches with
    | nil => rfl
    | cons c caches =>
      have hhead := (hitLine_eq_none_iff l c addr).2 (hmiss 0 l c rfl rfl)
      have htail := ih caches fun j lv cache hl hc => hmiss (j + 1) lv cache hl hc
      simp [probe, hhead, htail]

/-! ### Fills (R68, R74) -/

@[simp] theorem fillLevel_length (m : Mem) (addr : Nat) (lv : Level) (cache : Cache) :
    (fillLevel m addr lv cache).length = cache.length := List.length_set

theorem fillLevel_getElem?_same (m : Mem) (addr : Nat) (lv : Level) (cache : Cache)
    (h : lineIndex lv addr < cache.length) :
    (fillLevel m addr lv cache)[lineIndex lv addr]? =
      some ⟨true, lineTag lv addr, readBytes m (lineBase lv addr) lv.line⟩ :=
  List.getElem?_set_self h

theorem fillLevel_getElem?_ne (m : Mem) (addr : Nat) (lv : Level) (cache : Cache) (k : Nat)
    (h : k ≠ lineIndex lv addr) : (fillLevel m addr lv cache)[k]? = cache[k]? :=
  List.getElem?_set_ne h.symm

/-- Settles O31, by the probe's answer in each case. -/
theorem readLatencyAndFill : Obligations.ReadLatencyAndFill := by
  intro cfg m caches addr n hlen
  constructor
  · rintro k ⟨⟨lv, cache, hlv, hcache, hhit⟩, hbefore⟩
    obtain ⟨v, hv⟩ := probe_of_firstHit cfg.levels caches addr n k lv cache hlv hcache hhit hbefore
    simp [hierRead, hv]
  · intro hmiss
    have hread : hierRead cfg m caches addr n =
        ⟨leValue (readBytes m addr n), fullLatency cfg, fillAll m addr cfg.levels caches⟩ := by
      simp [hierRead, probe_of_miss cfg.levels caches addr n hmiss]
    rw [hread]
    refine ⟨rfl, by simp [fillAll, hlen], fun j lv before hlv hbefore => ?_⟩
    exact ⟨fillLevel m addr lv before, by simp [fillAll, List.getElem?_zipWith, hlv, hbefore],
      fillLevel_length m addr lv before, fillLevel_getElem?_same m addr lv before,
      fillLevel_getElem?_ne m addr lv before⟩

/-- Settles O33: the one line at the index carries the filled address's tag. -/
theorem fillEvictsTheOtherTag : Obligations.FillEvictsTheOtherTag := by
  intro m lv cache addr other hf hpos hidx htag
  have hlt : lineIndex lv addr < cache.length := hf.1 ▸ Nat.mod_lt _ hpos
  have hline := fillLevel_getElem?_same m addr lv cache hlt
  have hmiss : ¬hitsLevel lv (fillLevel m addr lv cache) other := by
    rintro ⟨ln, hget, -, ht⟩
    rw [hidx] at hget
    obtain rfl := Option.some.inj (hline.symm.trans hget)
    exact htag ht.symm
  exact ⟨⟨_, hline, rfl, rfl⟩, hmiss, (hitLine_eq_none_iff _ _ _).2 hmiss⟩

/-! ### Writes (R70, R71) -/

theorem overlay_take (data : List Byte) (off : Nat) (bs : List Byte) (h : off ≤ data.length) :
    (overlay data off bs).take off = data.take off := by
  simp [overlay, h]

theorem overlay_drop_take (data : List Byte) (off : Nat) (bs : List Byte) (h : off ≤ data.length) :
    ((overlay data off bs).drop off).take bs.length = bs := by
  simp [overlay, h]

theorem overlay_drop (data : List Byte) (off : Nat) (bs : List Byte) (h : off ≤ data.length) :
    (overlay data off bs).drop (off + bs.length) = data.drop (off + bs.length) := by
  simp [overlay, List.drop_append, h]

theorem writeLevel_of_miss (addr : Nat) (bs : List Byte) (lv : Level) (cache : Cache)
    (h : ¬hitsLevel lv cache addr) : writeLevel addr bs lv cache = cache := by
  simp [writeLevel, (hitLine_eq_none_iff lv cache addr).2 h]

theorem writeLevel_of_hit (addr : Nat) (bs : List Byte) (lv : Level) (cache : Cache) (ln : Line)
    (h : hitLine lv cache addr = some ln) :
    writeLevel addr bs lv cache = cache.set (lineIndex lv addr)
      { ln with data := overlay ln.data (lineOffset lv addr) bs } := by
  simp [writeLevel, h]

@[simp] theorem writeLevel_length (addr : Nat) (bs : List Byte) (lv : Level) (cache : Cache) :
    (writeLevel addr bs lv cache).length = cache.length := by
  cases h : hitLine lv cache addr <;> simp [writeLevel, h]

/-- A line after a write to its level: the hit line takes the bytes in place, any other is kept. -/
theorem writeLevel_getElem? (addr : Nat) (bs : List Byte) (lv : Level) (cache : Cache) (k : Nat)
    (old : Line) (hk : cache[k]? = some old) :
    (hitsLevel lv cache addr ∧ k = lineIndex lv addr ∧ (writeLevel addr bs lv cache)[k]? =
      some { old with data := overlay old.data (lineOffset lv addr) bs }) ∨
    (¬(hitsLevel lv cache addr ∧ k = lineIndex lv addr) ∧
      (writeLevel addr bs lv cache)[k]? = some old) := by
  by_cases hhit : hitsLevel lv cache addr
  · obtain ⟨ln, hln⟩ := (hitsLevel_iff lv cache addr).1 hhit
    rw [writeLevel_of_hit addr bs lv cache ln hln]
    by_cases hidx : k = lineIndex lv addr
    · subst hidx
      obtain ⟨hget, -, -⟩ := hitLine_some lv cache addr ln hln
      obtain rfl := Option.some.inj (hget.symm.trans hk)
      obtain ⟨hlt, -⟩ := List.getElem?_eq_some_iff.1 hk
      exact .inl ⟨hhit, rfl, List.getElem?_set_self hlt⟩
    · exact .inr ⟨fun h => hidx h.2, by rw [List.getElem?_set_ne (Ne.symm hidx), hk]⟩
  · rw [writeLevel_of_miss addr bs lv cache hhit]
    exact .inr ⟨fun h => hhit h.1, hk⟩

theorem levelFits_of_getElem? {levels : List Level} {caches : List Cache} {j : Nat} {lv : Level}
    {cache : Cache} (h : List.Forall₂ levelFits levels caches) (hlv : levels[j]? = some lv)
    (hcache : caches[j]? = some cache) : levelFits lv cache := by
  obtain ⟨hj, rfl⟩ := List.getElem?_eq_some_iff.1 hlv
  obtain ⟨hj', rfl⟩ := List.getElem?_eq_some_iff.1 hcache
  exact h.get hj hj'

/-- Settles O32: memory by the laws of byte strings, each level line by line. -/
theorem writeIsThroughAndAllocatesNothing : Obligations.WriteIsThroughAndAllocatesNothing := by
  intro cfg m caches addr n v hcfg hm hf hn ha
  refine ⟨rfl, readBytes_hierWrite cfg m caches addr n v hm, fun a hout => ?_,
    fun j lv before hlv hbefore => ?_⟩
  · exact readByte_writeBytes_outside m addr _ a hm (by simpa using hout)
  · refine ⟨writeLevel addr (leBytes n v) lv before,
      by simp [hierWrite, List.getElem?_zipWith, hlv, hbefore], writeLevel_length _ _ _ _,
      writeLevel_of_miss addr _ lv before, fun k old hold => ?_⟩
    rcases writeLevel_getElem? addr (leBytes n v) lv before k old hold with
      ⟨-, hidx, hnew⟩ | ⟨hother, hnew⟩
    · have hin := lineOffset_add_le lv addr n
        ((Config.ok_of_wf cfg hcfg).level lv (List.mem_of_getElem? hlv)) (accessWidth_dvd hn) ha
      have hlen := (levelFits_of_getElem? hf hlv hbefore).2 old (List.mem_of_getElem? hold)
      have hoff : lineOffset lv addr ≤ old.data.length := by omega
      refine ⟨_, hnew, rfl, rfl, fun hne => absurd hidx hne, fun _ _ => ?_⟩
      have hdt := overlay_drop_take old.data (lineOffset lv addr) (leBytes n v) hoff
      have hd := overlay_drop old.data (lineOffset lv addr) (leBytes n v) hoff
      rw [leBytes_length] at hdt hd
      exact ⟨hdt, overlay_take old.data _ _ hoff, hd⟩
    · exact ⟨old, hnew, rfl, rfl, fun _ => rfl, fun hhit hidx => absurd ⟨hhit, hidx⟩ hother⟩

/-! ### Canonical memory (R51) -/

theorem readByte_head_ne (k : Nat) (v : Byte) (rest : Mem) (hm : Memory.wf ((k, v) :: rest) = true) :
    readByte ((k, v) :: rest) k ≠ unlistedByte := by
  obtain ⟨hv, -, -⟩ := (Memory.wf_cons k v rest).1 hm
  simpa [readByte] using hv

/-- Below its first cell a canonical memory lists nothing. -/
theorem head_le_of_readByte_ne (k a : Nat) (v : Byte) (rest : Mem)
    (hm : Memory.wf ((k, v) :: rest) = true)
    (ha : readByte ((k, v) :: rest) a ≠ unlistedByte) : k ≤ a := by
  obtain ⟨-, hlt, -⟩ := (Memory.wf_cons k v rest).1 hm
  by_contra hbelow
  refine ha (readByte_unlisted _ a fun c hc => ?_)
  rcases List.mem_cons.1 hc with rfl | hc
  · simp only; omega
  · have := hlt c hc; omega

/-- The rest of a canonical memory reads like the whole, but for the first cell. -/
theorem readByte_tail (k a : Nat) (v : Byte) (rest : Mem) (hm : Memory.wf ((k, v) :: rest) = true) :
    readByte rest a = if k = a then unlistedByte else readByte ((k, v) :: rest) a := by
  obtain ⟨-, hlt, -⟩ := (Memory.wf_cons k v rest).1 hm
  split_ifs with hk
  · exact readByte_unlisted rest a fun c hc => hk ▸ (hlt c hc).ne'
  · simp [readByte, hk]

theorem Memory.ext_of_wf (m m' : Mem) (hm : Memory.wf m = true) (hm' : Memory.wf m' = true)
    (h : ∀ a, readByte m a = readByte m' a) : m = m' := by
  induction m generalizing m' with
  | nil =>
    cases m' with
    | nil => rfl
    | cons c rest => exact absurd (h c.1).symm (readByte_head_ne c.1 c.2 rest hm')
  | cons c rest ih =>
    obtain ⟨k, v⟩ := c
    cases m' with
    | nil => exact absurd (h k) (readByte_head_ne k v rest hm)
    | cons c' rest' =>
      obtain ⟨k', v'⟩ := c'
      have hle : k' ≤ k :=
        head_le_of_readByte_ne k' k v' rest' hm' (h k ▸ readByte_head_ne k v rest hm)
      have hge : k ≤ k' :=
        head_le_of_readByte_ne k k' v rest hm ((h k').symm ▸ readByte_head_ne k' v' rest' hm')
      obtain rfl := Nat.le_antisymm hle hge
      obtain rfl : v = v' := by simpa [readByte] using h k'
      obtain ⟨-, -, hrest⟩ := (Memory.wf_cons _ _ _).1 hm
      obtain ⟨-, -, hrest'⟩ := (Memory.wf_cons _ _ _).1 hm'
      rw [ih rest' hrest hrest' fun a => by
        rw [readByte_tail _ a v rest hm, readByte_tail _ a v rest' hm', h a]]

/-- Settles O34, by extensionality of canonical memories and the laws of one byte. -/
theorem canonicalMemoriesAreEqualData : Obligations.CanonicalMemoriesAreEqualData :=
  ⟨Memory.ext_of_wf, fun m a b hm => ⟨Memory.wf_writeByte m a b hm,
    readByte_writeByte_same m a b hm, fun a' hne => readByte_writeByte_ne m a a' b hm hne.symm⟩⟩

/-! ### The placed instruction word (R54, R101) -/

/-- The four bytes of a word decode as the word does, and leave nothing. -/
theorem decodeBytes_wordBytes (w : Word) :
    decodeBytes (wordBytes w) = (decode w).map fun i => (i, []) := by
  have hw := ofNat_leValue_wordBytes w
  simp only [wordBytes, leBytes] at hw ⊢
  simp only [decodeBytes, hw]
  cases decode w <;> rfl

theorem decode_of_decodeTableWord (w : Nat) (i : Instr) (h : decodeTableWord 32 w = some i) :
    decode (BitVec.ofNat 32 w) = .ok i := by
  have hbytes : leBytes 4 (w % 2 ^ 32) = wordBytes (BitVec.ofNat 32 w) := by simp [wordBytes]
  rw [decodeTableWord, hbytes, decodeBytes_wordBytes] at h
  cases hd : decode (BitVec.ofNat 32 w) with
  | ok i' =>
    rw [hd] at h
    exact congrArg Except.ok (Option.some.inj h)
  | error e =>
    rw [hd] at h
    cases h

theorem memWord_writeBytes_wordBytes (m : Mem) (a : Nat) (w : Word) (hm : Memory.wf m = true) :
    memWord (writeBytes m a (wordBytes w)) a = w := by
  have hbytes := readBytes_writeBytes_same m a (wordBytes w) hm
  rw [wordBytes_length] at hbytes
  rw [memWord, hbytes, ofNat_leValue_wordBytes]

/-- No recorded store covers the placed word (log 4). -/
theorem storedOver_placeWord (s : State) (w : Word) :
    storedOver (s.placeWord w).stored s.pc = false := by
  simp only [storedOver, State.placeWord_stored, List.any_eq_false, List.mem_filter]
  rintro a ⟨-, ha⟩
  simp only [Bool.not_eq_true', ← Bool.not_eq_true] at ha
  exact ha

theorem runInstruction_decoded (s : State) (i : Instr) (h : s.pc.toNat + 4 ≤ s.cfg.memSize)
    (hst : storedOver s.stored s.pc = false) (hd : decode (memWord s.mem s.pc.toNat) = .ok i) :
    runInstruction s = exec i s := by
  simp [runInstruction, fetchAt_inside s s.pc h, hst, hd]

/-- Settles O10: the fetch reads the placed word back. -/
theorem placedWordIsExecuted : Obligations.PlacedWordIsExecuted := by
  intro s w i hc hr hm hin hw hd
  have hdecode := decode_of_decodeTableWord w i hd
  have hplace : s.withFetchWord 32 w = s.placeWord (BitVec.ofNat 32 w) := by
    rw [State.withFetchWord, Nat.mod_eq_of_lt hw]
  rw [hplace]
  refine ⟨hdecode, ?_, fun a hout => ?_⟩
  · rw [step_running (s.placeWord _) hc hr]
    refine runInstruction_decoded (s.placeWord _) i hin (storedOver_placeWord s _) ?_
    rw [State.placeWord_mem, State.placeWord_pc, memWord_writeBytes_wordBytes _ _ _ hm.1]
    exact hdecode
  · exact readByte_writeBytes_outside s.mem s.pc.toNat _ a hm.1 (by simpa using hout)

/-! ### Refusals of an instruction (R56) -/

theorem loadWord_outcome (ra : Reg) (ea : Word) (s : State) :
    (∃ t, loadWord ra ea s = .next t) ∨
      (ea.toNat % 4 ≠ 0 ∧ loadWord ra ea s = .refused (.misalignedAccess s.pc ea)) := by
  cases h : dataRead s ea with
  | done r => exact .inl ⟨_, by simp only [loadWord, h]; rfl⟩
  | outOfBounds => exact .inl ⟨_, by simp only [loadWord, h]; rfl⟩
  | misaligned => exact .inr ⟨(dataRead_misaligned s ea).1 h, by simp only [loadWord, h]⟩

theorem storeWord_outcome (v ea : Word) (s : State) :
    (∃ t, storeWord v ea s = .next t) ∨
      (ea.toNat % 4 ≠ 0 ∧ storeWord v ea s = .refused (.misalignedAccess s.pc ea)) := by
  cases h : dataWrite s ea v with
  | done r => exact .inl ⟨_, by simp only [storeWord, h]; rfl⟩
  | outOfBounds => exact .inl ⟨_, by simp only [storeWord, h]; rfl⟩
  | misaligned => exact .inr ⟨(dataWrite_misaligned s ea v).1 h, by simp only [storeWord, h]⟩

theorem execCall_outcome (target : Word) (s : State) : ∃ t, execCall target s = .next t := by
  cases h : s.rasFull <;> exact ⟨_, by simp only [execCall, h]; rfl⟩

theorem execRet_outcome (s : State) : ∃ t, execRet s = .next t := by
  cases h : s.rasEmpty <;> exact ⟨_, by simp only [execRet, h]; rfl⟩

/-- An instruction goes on, or is a load or store at a misaligned address and is refused. -/
theorem exec_outcome (i : Instr) (s : State) :
    (∃ t, exec i s = .next t) ∨ ∃ ea, effectiveAddress s.readReg i = some ea ∧
      ea.toNat % 4 ≠ 0 ∧ exec i s = .refused (.misalignedAccess s.pc ea) := by
  cases i with
  | addi | subi | andi | ori | xori | shli | shri | addu | subu | shru | addim | cmp32 | jmp | je
  | jne | jlt | jle | jgt | jge | halt => exact .inl ⟨_, rfl⟩
  | call target => exact .inl (execCall_outcome target s)
  | ret => exact .inl (execRet_outcome s)
  | ld32 ra addr =>
    exact (loadWord_outcome ra (directAddress addr) s).imp_right fun h => ⟨_, rfl, h⟩
  | ldin32 ra rb =>
    exact (loadWord_outcome ra (indirectAddress s.readReg rb) s).imp_right fun h => ⟨_, rfl, h⟩
  | st32 ra addr =>
    exact (storeWord_outcome (s.readReg ra) (directAddress addr) s).imp_right fun h => ⟨_, rfl, h⟩
  | stin32 ra rb =>
    exact (storeWord_outcome (s.readReg ra) (indirectAddress s.readReg rb) s).imp_right
      fun h => ⟨_, rfl, h⟩

/-- Settles O26, by the two outcomes of `exec`. -/
theorem onlyMisalignedAccessesAreRefused : Obligations.OnlyMisalignedAccessesAreRefused := by
  intro i s
  rcases exec_outcome i s with ⟨t, ht⟩ | ⟨ea, hea, hne, href⟩
  · rw [ht]
    exact ⟨fun f h => (by cases h), fun why h => (by cases h), fun _ => ⟨t, rfl⟩⟩
  · rw [href]
    refine ⟨fun f h => (by cases h), fun why h => ?_, fun hall => absurd (hall ea hea) hne⟩
    cases h
    exact ⟨ea, hea, hne, rfl⟩

/-! ### Refusals of a cycle (R56, R79) -/

/-- Where a cycle is refused: in Memory, Execute or Fetch. -/
inductive CycleRefusal (s : State) (why : Refusal) : Prop where
  /-- Memory begins an access that is refused. -/
  | memory (hm : stageM s = .error (.refuse why))
  /-- Execute holds an instruction that is refused. -/
  | execute (m : MemoryOut) (hm : stageM s = .ok m) (hs : m.stall = false)
      (he : stageE s m.stored = .error (.refuse why))
  /-- Fetch reads a word that is refused. -/
  | fetch (redirect : Option Word) (lustall : Bool)
      (hf : stageF s redirect lustall = .error (.refuse why))

/-- A stop is a fault, which is taken, or a refusal. -/
theorem stopCycle_outcome {s : State} (u : State) {stop : StageStop}
    (h : ∀ why, stop = .refuse why → CycleRefusal s why) :
    (∃ t, stopCycle u stop = .next t) ∨
      ∃ why, CycleRefusal s why ∧ stopCycle u stop = .refused why := by
  cases stop with
  | fault r => exact .inl ⟨_, rfl⟩
  | refuse why => exact .inr ⟨why, h why rfl, rfl⟩

/-- A cycle of a Running engine goes on or is refused in one of the three stages; Decode's only stop
is a fault. -/
theorem runCycle_outcome (s : State) :
    (∃ t, runCycle s = .next t) ∨ ∃ why, CycleRefusal s why ∧ runCycle s = .refused why := by
  simp only [runCycle]
  cases hm : stageM s with
  | error stop => exact stopCycle_outcome _ fun why hwhy => .memory (hwhy ▸ hm)
  | ok m =>
    cases hs : m.stall with
    | true => exact .inl ⟨_, by simp only [hs, if_true]; rfl⟩
    | false =>
      simp only [hs, Bool.false_eq_true, if_false]
      cases he : stageE s m.stored with
      | error stop => exact stopCycle_outcome _ fun why hwhy => .execute m hm hs (hwhy ▸ he)
      | ok e =>
        cases hd : stageD s (forwardsOf (stageW s) m e) e.redirect with
        | error stop =>
          simp only [hd]
          obtain ⟨-, d, -, -, rfl⟩ := stageD_error _ _ _ _ hd
          exact .inl ⟨_, rfl⟩
        | ok d =>
          simp only [hd]
          cases hf : stageF s e.redirect d.stall with
          | error stop => exact stopCycle_outcome _ fun why hwhy => .fetch _ _ (hwhy ▸ hf)
          | ok f => exact .inl ⟨_, rfl⟩

theorem issueLoad_refuse (s : State) (m : ExecuteLatch) (why : Refusal)
    (h : issueLoad s m = .error (.refuse why)) :
    m.res.toNat % 4 ≠ 0 ∧ why = .misalignedAccess m.pc m.res := by
  cases hd : dataRead s m.res with
  | done r => simp [issueLoad, hd] at h
  | outOfBounds => simp [issueLoad, hd] at h
  | misaligned =>
    simp only [issueLoad, hd, Except.error.injEq, StageStop.refuse.injEq] at h
    exact ⟨(dataRead_misaligned s m.res).1 hd, h.symm⟩

theorem issueStore_refuse (s : State) (m : ExecuteLatch) (why : Refusal)
    (h : issueStore s m = .error (.refuse why)) :
    m.res.toNat % 4 ≠ 0 ∧ why = .misalignedAccess m.pc m.res := by
  cases hd : dataWrite s m.res m.sdata with
  | done r => simp [issueStore, hd] at h
  | outOfBounds => simp [issueStore, hd] at h
  | misaligned =>
    simp only [issueStore, hd, Except.error.injEq, StageStop.refuse.injEq] at h
    exact ⟨(dataWrite_misaligned s m.res m.sdata).1 hd, h.symm⟩

/-- The Memory stage refuses only the first cycle of a misaligned access (R56). -/
theorem stageM_refuse (s : State) (why : Refusal) (h : stageM s = .error (.refuse why)) :
    ∃ m, s.em = some m ∧ (isLoadOp m.op || isStoreOp m.op) = true ∧ s.mbusy = 0 ∧
      m.res.toNat % 4 ≠ 0 ∧ why = .misalignedAccess m.pc m.res := by
  cases he : s.em with
  | none => simp [stageM, he] at h
  | some m =>
    simp only [stageM, he] at h
    split_ifs at h with hop hb hl
    · exact ⟨m, rfl, hop, hb, issueLoad_refuse s m why h⟩
    · exact ⟨m, rfl, hop, hb, issueStore_refuse s m why h⟩

theorem cycle_stopped (s : State) (hc : s.cfg.wf = true) (hr : s.status ≠ .running) :
    cycle s = .fault .engineNotRunning := by
  cases hs : s.status with
  | running => exact absurd hs hr
  | halted => simp [cycle, hc, hs]
  | faulted r => simp [cycle, hc, hs]

theorem cycle_configurationRejected (s : State) (hc : s.cfg.wf = false) :
    cycle s = .refused .configurationRejected := by
  simp [cycle, hc]

/-- Settles O50, by the stage that refuses. -/
theorem cycleRefusesOnlyTheListedCases : Obligations.CycleRefusesOnlyTheListedCases := by
  intro s
  refine ⟨fun hc hr => ?_, cycle_stopped s, cycle_configurationRejected s⟩
  rw [cycle_running s hc hr]
  rcases runCycle_outcome s with ⟨t, ht⟩ | ⟨why, hcase, href⟩
  · rw [ht]
    exact ⟨fun f h => (by cases h), fun why h => (by cases h)⟩
  · rw [href]
    refine ⟨fun f h => (by cases h), fun why' h => ?_⟩
    cases h
    cases hcase with
    | memory hm => exact .inl (stageM_refuse s why hm)
    | execute m hm hs he =>
      obtain ⟨e, hde, hcases⟩ := stageE_error s m.stored _ he
      rcases hcases with ⟨hst, hstop⟩ | ⟨-, ⟨-, -, hstop⟩ | ⟨-, -, hstop⟩⟩
      · cases hstop
        exact .inr (.inl ⟨m, e, hm, hs, hde, hst, rfl⟩)
      · cases hstop
      · cases hstop
    | fetch redirect lustall hf =>
      obtain ⟨-, -, hfs, ⟨-, hstop⟩ | ⟨hin, hst, hstop⟩⟩ := stageF_error s _ _ _ hf
      · cases hstop
      · cases hstop
        exact .inr (.inr ⟨hfs, hin, hst, rfl⟩)

end Machine

end Sys2Proof

/-! SUPPORT. The obligations of `30_encoding.md`: the decoder as the opcode map read bit by bit
(R91 to R101), the unused bits of an instruction word (R102), and the registers and flags an
instruction reads (R106). -/

namespace Sys2Proof

namespace Machine

/-! ### The fields as slices of the word (R91) -/

theorem opField_eq_extractLsb' (w : Word) : opField w = w.extractLsb' 24 8 := by
  apply BitVec.eq_of_toNat_eq
  simp [opField, Nat.shiftRight_eq_div_pow]

theorem raField_eq_regBits (w : Word) : raField w = regBits w 20 := by
  apply Fin.ext
  simp [raField, regBits, Nat.shiftRight_eq_div_pow]

theorem rbField_eq_regBits (w : Word) : rbField w = regBits w 16 := by
  apply Fin.ext
  simp [rbField, regBits, Nat.shiftRight_eq_div_pow]

theorem rcField_eq_regBits (w : Word) : rcField w = regBits w 12 := by
  apply Fin.ext
  simp [rcField, regBits, Nat.shiftRight_eq_div_pow]

theorem imm20Field_eq_extractLsb' (w : Word) : imm20Field w = (w.extractLsb' 0 20).toNat := by
  simp [imm20Field]

theorem tgt24Field_eq_extractLsb' (w : Word) : tgt24Field w = (w.extractLsb' 0 24).toNat := by
  simp [tgt24Field]

/-! ### The extensions as bit-vector operations (R97, R98, R99) -/

/-- `sext_32` adds `0xFFF00000` exactly when the top bit of the field is set (R12). -/
theorem sext20_toNat (v : BitVec 20) : sext20 v.toNat = v.signExtend 32 := by
  have hv : v.toNat < 1048576 := v.isLt
  have hmsb : v.msb = decide (524288 ≤ v.toNat) := BitVec.msb_eq_decide v
  apply BitVec.eq_of_toNat_eq
  rw [BitVec.toNat_signExtend, BitVec.toNat_setWidth, hmsb, sext20, apply_ite BitVec.toNat]
  simp only [BitVec.toNat_ofNat, decide_eq_true_eq]
  split_ifs <;> omega

theorem zext_toNat (v : BitVec 20) : zext v.toNat = v.setWidth 32 := by
  simp [zext]

theorem scaledTarget_toNat (v : BitVec 24) : scaledTarget v.toNat = v.setWidth 32 <<< 2 := by
  apply BitVec.eq_of_toNat_eq
  simp [scaledTarget, Nat.shiftLeft_eq]

/-! ### The rows of the opcode map (R92 to R95, R100) -/

theorem decode_of_opcodeBits (op : Opcode) (w : Word) (h : w.extractLsb' 24 8 = op.byte) :
    decode w = .ok (buildInstr op w) :=
  decode_of_opField w op ((opField_eq_extractLsb' w).trans h)

theorem rowR_of_buildInstr (op : Opcode) (f : Reg → Reg → Reg → Instr)
    (h : ∀ w, buildInstr op w = f (raField w) (rbField w) (rcField w)) : rowR op.byte f := by
  intro w hop
  rw [decode_of_opcodeBits op w hop, h, raField_eq_regBits, rbField_eq_regBits, rcField_eq_regBits]

theorem rowISigned_of_buildInstr (op : Opcode) (f : Reg → Word → Instr)
    (h : ∀ w, buildInstr op w = f (raField w) (sext20 (imm20Field w))) : rowISigned op.byte f := by
  intro w hop
  rw [decode_of_opcodeBits op w hop, h, raField_eq_regBits, imm20Field_eq_extractLsb', sext20_toNat]

theorem rowIUnsigned_of_buildInstr (op : Opcode) (f : Reg → Word → Instr)
    (h : ∀ w, buildInstr op w = f (raField w) (zext (imm20Field w))) : rowIUnsigned op.byte f := by
  intro w hop
  rw [decode_of_opcodeBits op w hop, h, raField_eq_regBits, imm20Field_eq_extractLsb', zext_toNat]

theorem rowJ_of_buildInstr (op : Opcode) (f : Word → Instr)
    (h : ∀ w, buildInstr op w = f (scaledTarget (tgt24Field w))) : rowJ op.byte f := by
  intro w hop
  rw [decode_of_opcodeBits op w hop, h, tgt24Field_eq_extractLsb', scaledTarget_toNat]

theorem rowZ_of_buildInstr (op : Opcode) (i : Instr) (h : ∀ w, buildInstr op w = i) :
    rowZ op.byte i := by
  intro w hop
  rw [decode_of_opcodeBits op w hop, h]

theorem byte_mem_assignedOpcodes (op : Opcode) : op.byte.toNat ∈ assignedOpcodes := by
  cases op <;> decide

theorem decode_of_unassigned (w : Word) (h : (w.extractLsb' 24 8).toNat ∉ assignedOpcodes) :
    decode w = .error (.invalidOpcode w) := by
  rw [← opField_eq_extractLsb'] at h
  cases hop : Opcode.ofByte (opField w) with
  | none => simp [decode, hop]
  | some op =>
    rw [Opcode.byte_of_ofByte _ op hop] at h
    exact absurd (byte_mem_assignedOpcodes op) h

/-- Settles O6, row by row: each row's fields are the slices of R91. -/
theorem decodeFollowsTheOpcodeMap : Obligations.DecodeFollowsTheOpcodeMap :=
  ⟨⟨rowR_of_buildInstr .addi _ fun _ => rfl, rowR_of_buildInstr .subi _ fun _ => rfl,
      rowR_of_buildInstr .andi _ fun _ => rfl, rowR_of_buildInstr .ori _ fun _ => rfl,
      rowR_of_buildInstr .xori _ fun _ => rfl, rowR_of_buildInstr .shli _ fun _ => rfl,
      rowR_of_buildInstr .shri _ fun _ => rfl, rowR_of_buildInstr .addu _ fun _ => rfl,
      rowR_of_buildInstr .subu _ fun _ => rfl, rowR_of_buildInstr .shru _ fun _ => rfl⟩,
    ⟨rowISigned_of_buildInstr .addim _ fun _ => rfl, rowR_of_buildInstr .cmp32 _ fun _ => rfl⟩,
    ⟨rowIUnsigned_of_buildInstr .ld32 _ fun _ => rfl, rowR_of_buildInstr .ldin32 _ fun _ => rfl,
      rowIUnsigned_of_buildInstr .st32 _ fun _ => rfl, rowR_of_buildInstr .stin32 _ fun _ => rfl⟩,
    ⟨rowJ_of_buildInstr .jmp _ fun _ => rfl, rowJ_of_buildInstr .je _ fun _ => rfl,
      rowJ_of_buildInstr .jne _ fun _ => rfl, rowJ_of_buildInstr .jlt _ fun _ => rfl,
      rowJ_of_buildInstr .jle _ fun _ => rfl, rowJ_of_buildInstr .jgt _ fun _ => rfl,
      rowJ_of_buildInstr .jge _ fun _ => rfl, rowJ_of_buildInstr .call _ fun _ => rfl⟩,
    ⟨rowZ_of_buildInstr .ret _ fun _ => rfl, rowZ_of_buildInstr .halt _ fun _ => rfl⟩,
    decode_of_unassigned⟩

/-! ### A decoded instruction has an encoding (R97, R98, R99) -/

theorem isSext20_sext20_imm20Field (w : Word) : isSext20 (sext20 (imm20Field w)) = true := by
  rw [imm20Field_eq_extractLsb', sext20_toNat, isSext20,
    BitVec.toInt_signExtend_of_le (by decide)]
  have hlo : -524288 ≤ (w.extractLsb' 0 20).toInt := BitVec.le_toInt _
  have hhi : (w.extractLsb' 0 20).toInt < 524288 := BitVec.toInt_lt
  simp only [Bool.and_eq_true, decide_eq_true_eq]
  omega

theorem isDirectAddress_zext_imm20Field (w : Word) :
    isDirectAddress (zext (imm20Field w)) = true := by
  simp only [isDirectAddress, zext, imm20Field, BitVec.toNat_ofNat, decide_eq_true_eq]
  omega

theorem isTarget_scaledTarget_tgt24Field (w : Word) :
    isTarget (scaledTarget (tgt24Field w)) = true := by
  simp only [isTarget, scaledTarget, tgt24Field, BitVec.toNat_ofNat, Bool.and_eq_true, beq_iff_eq,
    decide_eq_true_eq]
  omega

theorem buildInstr_wf (op : Opcode) (w : Word) : (buildInstr op w).wf = true := by
  cases op with
  | addim => exact isSext20_sext20_imm20Field w
  | ld32 | st32 => exact isDirectAddress_zext_imm20Field w
  | jmp | je | jne | jlt | jle | jgt | jge | call => exact isTarget_scaledTarget_tgt24Field w
  | addi | subi | andi | ori | xori | shli | shri | addu | subu | shru | cmp32 | ldin32 | stin32
  | ret | halt => rfl

/-! ### The fields of a masked word (R102) -/

section

variable (w : Word) {m : Word}

theorem extractLsb'_and_of_used {lo n : Nat} (h : m.extractLsb' lo n = BitVec.allOnes n) :
    (w &&& m).extractLsb' lo n = w.extractLsb' lo n := by
  rw [BitVec.extractLsb'_and, h, BitVec.and_allOnes]

theorem extractLsb'_and_of_unused {lo n : Nat} (h : m.extractLsb' lo n = 0) :
    (w &&& m).extractLsb' lo n = 0 := by
  rw [BitVec.extractLsb'_and, h]
  exact BitVec.and_zero

theorem opField_and (h : m.extractLsb' 24 8 = BitVec.allOnes 8) :
    opField (w &&& m) = opField w := by
  rw [opField_eq_extractLsb', opField_eq_extractLsb', extractLsb'_and_of_used w h]

theorem raField_and (h : m.extractLsb' 20 4 = BitVec.allOnes 4) :
    raField (w &&& m) = raField w := by
  rw [raField_eq_regBits, raField_eq_regBits, regBits, extractLsb'_and_of_used w h, regBits]

theorem rbField_and (h : m.extractLsb' 16 4 = BitVec.allOnes 4) :
    rbField (w &&& m) = rbField w := by
  rw [rbField_eq_regBits, rbField_eq_regBits, regBits, extractLsb'_and_of_used w h, regBits]

theorem rcField_and (h : m.extractLsb' 12 4 = BitVec.allOnes 4) :
    rcField (w &&& m) = rcField w := by
  rw [rcField_eq_regBits, rcField_eq_regBits, regBits, extractLsb'_and_of_used w h, regBits]

theorem raField_and_unused (h : m.extractLsb' 20 4 = 0) : raField (w &&& m) = 0 := by
  rw [raField_eq_regBits, regBits, extractLsb'_and_of_unused w h]
  rfl

theorem rcField_and_unused (h : m.extractLsb' 12 4 = 0) : rcField (w &&& m) = 0 := by
  rw [rcField_eq_regBits, regBits, extractLsb'_and_of_unused w h]
  rfl

end

/-- Every format uses the opcode field (R91). -/
theorem opField_and_usedBits (op : Opcode) (w : Word) :
    opField (w &&& usedBits op) = opField w :=
  opField_and w (by cases op <;> decide)

/-- The decoder reads a word through the used bits of its row alone. -/
theorem buildInstr_and_usedBits (op : Opcode) (w : Word) :
    buildInstr op (w &&& usedBits op) = buildInstr op w := by
  cases op with
  | addi | subi | andi | ori | xori | shli | shri | addu | subu | shru =>
    simp only [buildInstr]
    rw [raField_and w (by decide), rbField_and w (by decide), rcField_and w (by decide)]
  | cmp32 =>
    simp only [buildInstr]
    rw [rbField_and w (by decide), rcField_and w (by decide)]
  | ldin32 | stin32 =>
    simp only [buildInstr]
    rw [raField_and w (by decide), rbField_and w (by decide)]
  | addim | ld32 | st32 | jmp | je | jne | jlt | jle | jgt | jge | call =>
    exact congrArg _ (BitVec.and_allOnes (x := w))
  | ret | halt => rfl

/-! ### Encoding a decoded word (R102) -/

section

variable {op : Opcode} {w : Word} (hop : opField w = op.byte)

include hop

theorem encodeR_of_fields {ra rb rc : Reg} (hra : raField w = ra) (hrb : rbField w = rb)
    (hrc : rcField w = rc) (hlow : w.extractLsb' 0 12 = 0) : encodeR op ra rb rc = w := by
  subst hra hrb hrc
  have hlow : w.toNat % 4096 = 0 := by simpa using congrArg BitVec.toNat hlow
  apply BitVec.eq_of_toNat_eq
  rw [encodeR_toNat, ← hop]
  simp only [opField, raField, rbField, rcField, BitVec.toNat_ofNat]
  omega

theorem encodeI_of_fields {imm : Word} (himm : imm.toNat % 1048576 = imm20Field w) :
    encodeI op (raField w) imm = w := by
  apply BitVec.eq_of_toNat_eq
  rw [encodeI_toNat, himm, ← hop]
  simp only [opField, raField, imm20Field, BitVec.toNat_ofNat]
  omega

theorem encodeJ_of_fields : encodeJ op (scaledTarget (tgt24Field w)) = w := by
  apply BitVec.eq_of_toNat_eq
  rw [encodeJ_toNat, ← hop]
  simp only [opField, scaledTarget, tgt24Field, BitVec.toNat_ofNat]
  omega

theorem encodeZ_of_fields (hlow : w.extractLsb' 0 24 = 0) : encodeZ op = w := by
  have hlow : w.toNat % 16777216 = 0 := by simpa using congrArg BitVec.toNat hlow
  apply BitVec.eq_of_toNat_eq
  rw [encodeZ, ← hop]
  simp only [opField, BitVec.toNat_ofNat]
  omega

end

/-- The low 20 bits of a sign-extended field are the field. -/
theorem toNat_sext20_imm20Field_mod (w : Word) :
    (sext20 (imm20Field w)).toNat % 1048576 = imm20Field w := by
  rw [sext20, imm20Field, apply_ite BitVec.toNat, BitVec.toNat_ofNat, BitVec.toNat_ofNat]
  split_ifs <;> omega

theorem toNat_zext_imm20Field_mod (w : Word) :
    (zext (imm20Field w)).toNat % 1048576 = imm20Field w := by
  simp only [zext, imm20Field, BitVec.toNat_ofNat]
  omega

theorem encode_buildInstr (op : Opcode) (w : Word) (hop : opField w = op.byte) :
    encode (buildInstr op w) = w &&& usedBits op := by
  have hop' : opField (w &&& usedBits op) = op.byte := (opField_and_usedBits op w).trans hop
  have hlow {n : Nat} (h : (usedBits op).extractLsb' 0 n = 0) := extractLsb'_and_of_unused w h
  cases op with
  | addi | subi | andi | ori | xori | shli | shri | addu | subu | shru =>
    exact encodeR_of_fields hop' (raField_and w (by decide)) (rbField_and w (by decide))
      (rcField_and w (by decide)) (hlow (by decide))
  | cmp32 =>
    exact encodeR_of_fields hop' (raField_and_unused w (by decide)) (rbField_and w (by decide))
      (rcField_and w (by decide)) (hlow (by decide))
  | ldin32 | stin32 =>
    exact encodeR_of_fields hop' (raField_and w (by decide)) (rbField_and w (by decide))
      (rcField_and_unused w (by decide)) (hlow (by decide))
  | addim =>
    exact (encodeI_of_fields hop (toNat_sext20_imm20Field_mod w)).trans BitVec.and_allOnes.symm
  | ld32 | st32 =>
    exact (encodeI_of_fields hop (toNat_zext_imm20Field_mod w)).trans BitVec.and_allOnes.symm
  | jmp | je | jne | jlt | jle | jgt | jge | call =>
    exact (encodeJ_of_fields hop).trans BitVec.and_allOnes.symm
  | ret | halt => exact encodeZ_of_fields hop' (hlow (by decide))

/-- Settles O5: opcode and fields of a word are those of the word masked to its used bits. -/
theorem decodeIgnoresExactlyTheUnusedBits : Obligations.DecodeIgnoresExactlyTheUnusedBits := by
  intro w i h
  obtain ⟨op, hop, rfl⟩ := decode_ok w i h
  refine ⟨buildInstr_wf op w, ?_, fun w' hw' => ?_⟩
  · rw [op_buildInstr]
    exact encode_buildInstr op w hop
  · rw [op_buildInstr] at hw'
    have hop' : opField w' = op.byte := by
      rw [← opField_and_usedBits op w', hw', opField_and_usedBits, hop]
    rw [decode_of_opField w' op hop', ← buildInstr_and_usedBits op w', hw', buildInstr_and_usedBits]

/-! ### The registers and flags an instruction reads (R106) -/

/-- The state with its registers changed by `φ` and its flags by `ψ`. -/
def State.mapRegs (φ : Vector Word 16 → Vector Word 16) (ψ : Flags → Flags) (s : State) : State :=
  { s with x := φ s.x, flags := ψ s.flags }

/-- It makes no difference whether `ra` is written before or after the change `φ`. -/
def CommutesWithWrite (φ : Vector Word 16 → Vector Word 16) (ra : Reg) : Prop :=
  ∀ (xs : Vector Word 16) (v : Word), φ (xs.set ra.val v) = (φ xs).set ra.val v

/-- The change of registers and flags touches neither a source nor the destination of the
instruction, nor flags that it reads or writes. -/
structure Unseen (φ : Vector Word 16 → Vector Word 16) (ψ : Flags → Flags) (i : Instr) (s : State) :
    Prop where
  /-- The sources of R106 read as before. -/
  sources : ∀ q ∈ srcsOf i, (s.mapRegs φ ψ).readReg q = s.readReg q
  /-- The destination of R106 is written as before. -/
  destination : ∀ ra, dstOf i = some ra → CommutesWithWrite φ ra
  /-- The conditional jumps and `CMP32` find the flags unchanged. -/
  flags : readsFlagsOp i.op = true ∨ i.op = .cmp32 → ψ = id

section

variable {φ : Vector Word 16 → Vector Word 16} {ψ : Flags → Flags} {s : State}

theorem State.writeReg_mapRegs {ra : Reg} (hra : CommutesWithWrite φ ra) (v : Word) :
    (s.mapRegs φ ψ).writeReg ra v = (s.writeReg ra v).mapRegs φ ψ := by
  simp only [State.mapRegs, State.writeReg, hra s.x v]

theorem aluRegisters_mapRegs (f : Word → Word → Word) {ra rb rc : Reg}
    (hra : CommutesWithWrite φ ra) (hrb : (s.mapRegs φ ψ).readReg rb = s.readReg rb)
    (hrc : (s.mapRegs φ ψ).readReg rc = s.readReg rc) :
    aluRegisters f ra rb rc (s.mapRegs φ ψ) =
      mapNext (·.mapRegs φ ψ) (aluRegisters f ra rb rc s) := by
  rw [aluRegisters, hrb, hrc, State.writeReg_mapRegs hra]
  rfl

theorem aluImmediate_mapRegs (f : Word → Word → Word) {ra : Reg} (imm : Word)
    (hra : CommutesWithWrite φ ra) (hsrc : (s.mapRegs φ ψ).readReg ra = s.readReg ra) :
    aluImmediate f ra imm (s.mapRegs φ ψ) = mapNext (·.mapRegs φ ψ) (aluImmediate f ra imm s) := by
  rw [aluImmediate, hsrc, State.writeReg_mapRegs hra]
  rfl

theorem loadWord_mapRegs {ra : Reg} (ea : Word) (hra : CommutesWithWrite φ ra) :
    loadWord ra ea (s.mapRegs φ ψ) = mapNext (·.mapRegs φ ψ) (loadWord ra ea s) := by
  have hread : dataRead (s.mapRegs φ ψ) ea = dataRead s ea := rfl
  simp only [loadWord, hread]
  cases dataRead s ea with
  | done r =>
    have hafter : (s.mapRegs φ ψ).afterRead r = (s.afterRead r).mapRegs φ ψ := rfl
    simp only [hafter, State.writeReg_mapRegs hra]
    rfl
  | outOfBounds | misaligned => rfl

theorem storeWord_mapRegs (v ea : Word) :
    storeWord v ea (s.mapRegs φ ψ) = mapNext (·.mapRegs φ ψ) (storeWord v ea s) := by
  have hwrite : dataWrite (s.mapRegs φ ψ) ea v = dataWrite s ea v := rfl
  simp only [storeWord, hwrite]
  cases dataWrite s ea v <;> rfl

theorem jumpIf_mapRegs (taken : Bool) (target : Word) :
    jumpIf taken target (s.mapRegs φ ψ) = mapNext (·.mapRegs φ ψ) (jumpIf taken target s) := by
  cases taken <;> rfl

theorem execCmp32_mapRegs {rb rc : Reg} (hrb : (s.mapRegs φ id).readReg rb = s.readReg rb)
    (hrc : (s.mapRegs φ id).readReg rc = s.readReg rc) :
    execCmp32 rb rc (s.mapRegs φ id) = mapNext (·.mapRegs φ id) (execCmp32 rb rc s) := by
  rw [execCmp32, hrb, hrc]
  rfl

theorem execCall_mapRegs (target : Word) :
    execCall target (s.mapRegs φ ψ) = mapNext (·.mapRegs φ ψ) (execCall target s) := by
  have hfull : (s.mapRegs φ ψ).rasFull = s.rasFull := rfl
  simp only [execCall, hfull]
  cases s.rasFull <;> rfl

theorem execRet_mapRegs : execRet (s.mapRegs φ ψ) = mapNext (·.mapRegs φ ψ) (execRet s) := by
  have hempty : (s.mapRegs φ ψ).rasEmpty = s.rasEmpty := rfl
  simp only [execRet, hempty]
  cases s.rasEmpty <;> rfl

/-- An instruction carries a change of the registers and flags that it does not see to its
outcome. -/
theorem exec_mapRegs {i : Instr} (h : Unseen φ ψ i s) :
    exec i (s.mapRegs φ ψ) = mapNext (·.mapRegs φ ψ) (exec i s) := by
  obtain ⟨hsrc, hdst, hfl⟩ := h
  cases i with
  | addi ra rb rc | subi ra rb rc | andi ra rb rc | ori ra rb rc | xori ra rb rc | shli ra rb rc
  | shri ra rb rc | addu ra rb rc | subu ra rb rc | shru ra rb rc =>
    exact aluRegisters_mapRegs _ (hdst ra rfl) (hsrc rb (by simp [srcsOf]))
      (hsrc rc (by simp [srcsOf]))
  | addim ra imm => exact aluImmediate_mapRegs _ imm (hdst ra rfl) (hsrc ra (by simp [srcsOf]))
  | cmp32 rb rc =>
    obtain rfl := hfl (.inr rfl)
    exact execCmp32_mapRegs (hsrc rb (by simp [srcsOf])) (hsrc rc (by simp [srcsOf]))
  | ld32 ra addr => exact loadWord_mapRegs _ (hdst ra rfl)
  | ldin32 _ rb =>
    simp only [exec, execLdin32, indirectAddress, hsrc rb (by simp [srcsOf])]
    exact loadWord_mapRegs _ (hdst _ rfl)
  | st32 ra addr =>
    simp only [exec, execSt32, hsrc ra (by simp [srcsOf])]
    exact storeWord_mapRegs _ _
  | stin32 ra rb =>
    simp only [exec, execStin32, indirectAddress, hsrc ra (by simp [srcsOf]),
      hsrc rb (by simp [srcsOf])]
    exact storeWord_mapRegs _ _
  | jmp => rfl
  | je | jne | jlt | jle | jgt | jge =>
    obtain rfl := hfl (.inl rfl)
    exact jumpIf_mapRegs _ _
  | call => exact execCall_mapRegs _
  | ret => exact execRet_mapRegs
  | halt => rfl

end

section

variable {i : Instr} {s : State} {r : Reg} (v : Word)

theorem State.writeReg_writeReg (w : Word) : (s.writeReg r v).writeReg r w = s.writeReg r w := by
  simp only [State.writeReg, Vector.set_set]

/-- A write of a register that is neither a source nor the destination is not seen. -/
theorem unseen_writeReg (hsrc : r ∉ srcsOf i) (hdst : dstOf i ≠ some r) :
    Unseen (·.set r.val v) id i s where
  sources q hq := State.readReg_writeReg_ne s r q v fun e => hsrc (e ▸ hq)
  destination _ hra _ _ :=
    Vector.set_comm _ _ fun e => hdst (hra.trans (congrArg some (Fin.ext e)))
  flags _ := rfl

theorem exec_writeReg_of_ne_dst (hsrc : r ∉ srcsOf i) (hdst : dstOf i ≠ some r) :
    exec i (s.writeReg r v) = mapNext (·.writeReg r v) (exec i s) :=
  exec_mapRegs (unseen_writeReg v hsrc hdst)

/-- What becomes of a changed register `r` that is the destination: the instruction writes over it,
or takes a fault and leaves it, or is refused. -/
inductive Overwrites (s : State) (r : Reg) (v : Word) :
    Host.Outcome State Fault Refusal → Host.Outcome State Fault Refusal → Prop where
  /-- The same next state, whatever the old value of `r` was. -/
  | written (t : State) (hst : t.status = s.status) : Overwrites s r v (.next t) (.next t)
  /-- A fault: nothing is written. -/
  | faulted (t : State) (hst : t.status ≠ .running) :
    Overwrites s r v (.next t) (.next (t.writeReg r v))
  /-- The same refusal. -/
  | refused (why : Refusal) : Overwrites s r v (.refused why) (.refused why)

theorem aluRegisters_overwrites (f : Word → Word → Word) {rb rc : Reg} (hrb : r ≠ rb)
    (hrc : r ≠ rc) :
    Overwrites s r v (aluRegisters f r rb rc s) (aluRegisters f r rb rc (s.writeReg r v)) := by
  simp only [aluRegisters, State.readReg_writeReg_ne s r _ v hrb,
    State.readReg_writeReg_ne s r _ v hrc, State.writeReg_writeReg]
  exact .written _ rfl

theorem loadWord_overwrites (ea : Word) :
    Overwrites s r v (loadWord r ea s) (loadWord r ea (s.writeReg r v)) := by
  have hread : dataRead (s.writeReg r v) ea = dataRead s ea := rfl
  simp only [loadWord, hread]
  cases dataRead s ea with
  | done d =>
    have hafter : (s.writeReg r v).afterRead d = (s.afterRead d).writeReg r v := rfl
    simp only [hafter, State.writeReg_writeReg]
    exact .written _ rfl
  | outOfBounds => exact .faulted _ (by simp)
  | misaligned => exact .refused _

/-- Only `ADDIM` reads its destination (R106); every other writer of `r` overwrites it. -/
theorem exec_overwrites (hsrc : r ∉ srcsOf i) (hdst : dstOf i = some r) :
    Overwrites s r v (exec i s) (exec i (s.writeReg r v)) := by
  cases i with
  | addi ra rb rc | subi ra rb rc | andi ra rb rc | ori ra rb rc | xori ra rb rc | shli ra rb rc
  | shri ra rb rc | addu ra rb rc | subu ra rb rc | shru ra rb rc =>
    obtain rfl := Option.some.inj hdst
    simp only [srcsOf, List.mem_cons, List.not_mem_nil, or_false, not_or] at hsrc
    exact aluRegisters_overwrites v _ hsrc.1 hsrc.2
  | addim ra imm =>
    obtain rfl := Option.some.inj hdst
    exact absurd (List.mem_singleton_self _) hsrc
  | ld32 ra addr =>
    obtain rfl := Option.some.inj hdst
    exact loadWord_overwrites v _
  | ldin32 ra rb =>
    obtain rfl := Option.some.inj hdst
    simp only [exec, execLdin32, indirectAddress,
      State.readReg_writeReg_ne s _ rb v fun e => hsrc (List.mem_singleton.2 e)]
    exact loadWord_overwrites v _
  | cmp32 | st32 | stin32 | jmp | je | jne | jlt | jle | jgt | jge | call | ret | halt => cases hdst

theorem sameButReg_refl : sameButReg r s s :=
  ⟨fun _ _ => rfl, rfl, rfl, rfl, rfl, ⟨rfl, rfl⟩, ⟨rfl, rfl, rfl, rfl, rfl, rfl, rfl, rfl⟩,
    rfl, rfl⟩

theorem sameButReg_writeReg : sameButReg r s (s.writeReg r v) :=
  ⟨fun q hq => State.readReg_writeReg_ne s r q v fun e => hq (e ▸ rfl), rfl, rfl, rfl, rfl,
    ⟨rfl, rfl⟩, ⟨rfl, rfl, rfl, rfl, rfl, rfl, rfl, rfl⟩, rfl, rfl⟩

end

/-- The flags are not seen by an instruction that neither reads nor writes them. -/
theorem unseen_setFlags {i : Instr} {s : State} (f : Flags) (hr : readsFlagsOp i.op = false)
    (hc : i.op ≠ .cmp32) : Unseen id (fun _ => f) i s where
  sources _ _ := rfl
  destination _ _ _ _ := rfl
  flags h := by
    rcases h with h | h
    · rw [hr] at h; cases h
    · exact absurd h hc

theorem exec_setFlags {i : Instr} {s : State} (f : Flags) (hr : readsFlagsOp i.op = false)
    (hc : i.op ≠ .cmp32) : exec i (s.setFlags f) = mapNext (·.setFlags f) (exec i s) :=
  exec_mapRegs (unseen_setFlags f hr hc)

/-- `CMP32` writes over all three flags (R140). -/
theorem exec_setFlags_of_cmp32 {i : Instr} {s : State} (f : Flags) (hc : i.op = .cmp32) :
    exec i (s.setFlags f) = exec i s := by
  cases i with
  | cmp32 => rfl
  | addi | subi | andi | ori | xori | shli | shri | addu | subu | shru | addim | ld32 | ldin32
  | st32 | stin32 | jmp | je | jne | jlt | jle | jgt | jge | call | ret | halt => cases hc

/-- Settles O25: what is not seen is carried along, and a destination that is no source is written
over. -/
theorem onlyListedSourcesAreRead : Obligations.OnlyListedSourcesAreRead := by
  refine ⟨fun i s r v hsrc => ?_, fun i s f hr => ?_⟩
  · by_cases hdst : dstOf i = some r
    · have hover := exec_overwrites (s := s) v hsrc hdst
      generalize exec i s = o, exec i (s.writeReg r v) = o' at hover
      cases hover with
      | written t hst =>
        refine ⟨fun t' ht => ?_, fun why h => (by cases h)⟩
        obtain rfl := eq_of_next ht
        exact ⟨t', rfl, sameButReg_refl, fun h => absurd hdst h, fun _ hrun =>
          ⟨fun _ => rfl, fun h => absurd (hst.trans hrun) h⟩⟩
      | faulted t hst =>
        refine ⟨fun t' ht => ?_, fun why h => (by cases h)⟩
        obtain rfl := eq_of_next ht
        exact ⟨_, rfl, sameButReg_writeReg v, fun h => absurd hdst h, fun _ _ =>
          ⟨fun h => absurd h hst, fun _ => State.readReg_writeReg_same t' r v⟩⟩
      | refused why => exact ⟨fun t h => (by cases h), fun why' h => h⟩
    · have hexec := exec_writeReg_of_ne_dst (s := s) v hsrc hdst
      exact ⟨fun t ht => ⟨_, hexec.trans (congrArg (mapNext _) ht), sameButReg_writeReg v,
          fun _ => State.readReg_writeReg_same t r v, fun h => absurd h hdst⟩,
        fun why h => hexec.trans (congrArg (mapNext _) h)⟩
  · by_cases hc : i.op = .cmp32
    · have hexec := exec_setFlags_of_cmp32 (s := s) f hc
      exact ⟨fun t ht => .inl (hexec.trans ht), fun why h => hexec.trans h⟩
    · have hexec := exec_setFlags (s := s) f hr hc
      exact ⟨fun t ht => .inr (hexec.trans (congrArg (mapNext _) ht)),
        fun why h => hexec.trans (congrArg (mapNext _) h)⟩

end Machine

end Sys2Proof

/-! SUPPORT. The obligations of `40_alu.md`: what every ALU instruction writes and leaves unchanged
(R120, R134), and the values of the ALU's functions (R121 to R131). -/

namespace Sys2Proof

namespace Machine

/-! ### One write of the destination (R134) -/

theorem onlyRegisterChanged_writeReg_advance (s : State) (ra : Reg) (v : Word) :
    onlyRegisterChanged ra s (s.writeReg ra v).advance :=
  ⟨fun q hq => State.readReg_writeReg_ne s ra q v fun e => hq (e ▸ rfl), rfl, rfl, fun _ => rfl,
    rfl, ⟨rfl, rfl⟩, ⟨rfl, rfl, rfl, rfl, rfl, rfl, rfl, rfl⟩, rfl, rfl⟩

theorem writesRegister_of_exec {i : Instr} {ra : Reg} {s : State} {v : Word} {P : Word → Prop}
    (hexec : exec i s = .next (s.writeReg ra v).advance) (hv : P v) : writesRegister i ra s P := by
  refine ⟨_, hexec, ?_, onlyRegisterChanged_writeReg_advance s ra v⟩
  rwa [State.readReg_advance, State.readReg_writeReg_same]

/-! ### The values of the ALU's functions -/

/-- The unsigned reading of a word is its signed reading modulo `2^32` (R12). -/
theorem toNat_eq_toInt_emod (v : Word) : (v.toNat : Int) = v.toInt % 2 ^ 32 := by
  have hlt : (v.toNat : Int) < (2 ^ 32 : Nat) := Int.ofNat_lt.2 v.isLt
  calc (v.toNat : Int)
      = v.toNat % (2 ^ 32 : Nat) := (Int.emod_eq_of_lt (Int.natCast_nonneg _) hlt).symm
    _ = (v.toNat : Int).bmod (2 ^ 32) % (2 ^ 32 : Nat) := Int.bmod_emod.symm
    _ = v.toInt % 2 ^ 32 := by rw [← BitVec.toInt_eq_toNat_bmod]; rfl

theorem toNat_addWord (a b : Word) : (addWord a b).toNat = (a.toNat + b.toNat) % 2 ^ 32 :=
  BitVec.toNat_add a b

/-- The second operand may be read as signed: both readings agree modulo `2^32` (R131). -/
theorem toNat_addWord_signed (a b : Word) :
    ((addWord a b).toNat : Int) = (a.toNat + b.toInt) % 2 ^ 32 := by
  have hb := toNat_eq_toInt_emod b
  rw [toNat_addWord]
  omega

theorem toNat_subWord (a b : Word) :
    ((subWord a b).toNat : Int) = (a.toNat - b.toNat : Int) % 2 ^ 32 := by
  have hb : b.toNat < 2 ^ 32 := b.isLt
  rw [subWord, BitVec.toNat_sub]
  omega

theorem toNat_shiftLeftWord (a b : Word) :
    (shiftLeftWord a b).toNat = a.toNat * 2 ^ (b.toNat % 32) % 2 ^ 32 := by
  rw [shiftLeftWord, shiftAmount, BitVec.toNat_shiftLeft, Nat.shiftLeft_eq]

theorem toNat_shiftRightSignedWord (a b : Word) :
    ((shiftRightSignedWord a b).toNat : Int) = a.toInt / 2 ^ (b.toNat % 32) % 2 ^ 32 := by
  rw [toNat_eq_toInt_emod, shiftRightSignedWord, shiftAmount, BitVec.toInt_sshiftRight,
    Int.shiftRight_eq_div_pow, Int.natCast_pow, Nat.cast_ofNat]

theorem toNat_shiftRightUnsignedWord (a b : Word) :
    (shiftRightUnsignedWord a b).toNat = a.toNat / 2 ^ (b.toNat % 32) := by
  rw [shiftRightUnsignedWord, shiftAmount, BitVec.toNat_ushiftRight, Nat.shiftRight_eq_div_pow]

/-! ### Decoded instructions are well-formed (R97, R98, R99) -/

theorem wf_of_decode {w : Word} {i : Instr} (h : decode w = .ok i) : i.wf = true := by
  obtain ⟨op, -, rfl⟩ := decode_ok w i h
  exact buildInstr_wf op w

/-! ### The eleven instructions (R121 to R131) -/

/-- Settles O11: the values are those of `addWord` and `subWord`. -/
theorem addAndSubtractWrap : Obligations.AddAndSubtractWrap := by
  refine ⟨⟨rowR_of_buildInstr .addi _ fun _ => rfl, rowR_of_buildInstr .subi _ fun _ => rfl,
    rowR_of_buildInstr .addu _ fun _ => rfl, rowR_of_buildInstr .subu _ fun _ => rfl⟩,
    fun s ra rb rc => ?_⟩
  have hadd := toNat_addWord (s.readReg rb) (s.readReg rc)
  have hsub := toNat_subWord (s.readReg rb) (s.readReg rc)
  exact ⟨writesRegister_of_exec rfl hadd, writesRegister_of_exec rfl hadd,
    writesRegister_of_exec rfl hsub, writesRegister_of_exec rfl hsub, rfl, rfl⟩

/-- Settles O12: the values are the bits of the library's `&&&`, `|||` and `^^^`. -/
theorem logicActsBitByBit : Obligations.LogicActsBitByBit := by
  refine ⟨⟨rowR_of_buildInstr .andi _ fun _ => rfl, rowR_of_buildInstr .ori _ fun _ => rfl,
    rowR_of_buildInstr .xori _ fun _ => rfl⟩, fun s ra rb rc => ?_⟩
  exact ⟨writesRegister_of_exec rfl fun _ _ => BitVec.getLsbD_and,
    writesRegister_of_exec rfl fun _ _ => BitVec.getLsbD_or,
    writesRegister_of_exec rfl fun _ _ => BitVec.getLsbD_xor,
    writesRegister_of_exec rfl BitVec.xor_self, writesRegister_of_exec rfl BitVec.and_self,
    writesRegister_of_exec rfl BitVec.or_self⟩

/-- Settles O13: a shift by `s` multiplies or divides by `2^s`, with `s` the shift amount (D8). -/
theorem shiftsUseTheLowFiveBits : Obligations.ShiftsUseTheLowFiveBits := by
  refine ⟨⟨rowR_of_buildInstr .shli _ fun _ => rfl, rowR_of_buildInstr .shri _ fun _ => rfl,
    rowR_of_buildInstr .shru _ fun _ => rfl⟩, fun s ra rb rc => ?_⟩
  exact ⟨writesRegister_of_exec rfl (toNat_shiftLeftWord _ _),
    writesRegister_of_exec rfl (toNat_shiftRightSignedWord _ _),
    writesRegister_of_exec rfl (toNat_shiftRightUnsignedWord _ _)⟩

/-- Settles O14: the signed reading of the immediate gives the same sum modulo `2^32`. -/
theorem addImmediateSignExtends : Obligations.AddImmediateSignExtends := by
  refine ⟨rowISigned_of_buildInstr .addim _ fun _ => rfl, fun w ra imm h => ?_,
    fun s ra imm => ⟨?_, ?_⟩⟩
  · have hwf : isSext20 imm = true := wf_of_decode h
    simpa only [isSext20, Bool.and_eq_true, decide_eq_true_eq] using hwf
  · exact writesRegister_of_exec rfl (toNat_addWord_signed _ _)
  · exact writesRegister_of_exec rfl (BitVec.add_zero _)

end Machine

end Sys2Proof

/-! SUPPORT. The obligation of `41_compare.md`: the flags of `CMP32` by unsigned comparison (R140,
R141). -/

namespace Sys2Proof

namespace Machine

/-! ### The three flags (R140) -/

theorem compareFlags_eq_iff (a b : Word) : (compareFlags a b).eq = true ↔ a.toNat = b.toNat :=
  beq_iff_eq.trans BitVec.toNat_inj.symm

theorem compareFlags_lt_iff (a b : Word) : (compareFlags a b).lt = true ↔ a.toNat < b.toNat :=
  decide_eq_true_iff

theorem compareFlags_le_iff (a b : Word) : (compareFlags a b).le = true ↔ a.toNat ≤ b.toNat :=
  decide_eq_true_iff

/-! ### The three combinations (R141) -/

theorem compareFlags_of_lt {a b : Word} (h : a.toNat < b.toNat) :
    compareFlags a b = { eq := false, lt := true, le := true } := by
  have hne : a ≠ b := fun e => h.ne (congrArg BitVec.toNat e)
  simp [compareFlags, hne, h, h.le]

theorem compareFlags_of_eq {a b : Word} (h : a.toNat = b.toNat) :
    compareFlags a b = { eq := true, lt := false, le := true } := by
  obtain rfl := BitVec.eq_of_toNat_eq h
  simp [compareFlags]

theorem compareFlags_of_gt {a b : Word} (h : b.toNat < a.toNat) :
    compareFlags a b = { eq := false, lt := false, le := false } := by
  have hne : a ≠ b := fun e => h.ne' (congrArg BitVec.toNat e)
  simp [compareFlags, hne, h.not_ge, h.not_gt]

/-- Settles O15: the next state is the old one with the flags set and `pc` advanced, and the flags are
those of `compareFlags`. -/
theorem compareSetsThreeFlagsUnsigned : Obligations.CompareSetsThreeFlagsUnsigned := by
  refine ⟨rowR_of_buildInstr .cmp32 _ fun _ => rfl, fun s rb rc => ?_⟩
  exact ⟨(s.setFlags (compareFlags (s.readReg rb) (s.readReg rc))).advance, rfl,
    compareFlags_eq_iff _ _, compareFlags_lt_iff _ _, compareFlags_le_iff _ _,
    compareFlags_of_lt, compareFlags_of_eq, compareFlags_of_gt,
    rfl, fun _ _ => rfl, fun _ => rfl, rfl, ⟨rfl, rfl⟩,
    ⟨rfl, rfl, rfl, rfl, rfl, rfl, rfl, rfl⟩, rfl, rfl⟩

end Machine

end Sys2Proof

/-! SUPPORT. The obligations of `42_load_store.md`: a load or store is `loadWord` or `storeWord` at
its effective address (R145), what a completed access leaves (R146 to R149), and how one that cannot be
made ends (`20_memory.md` R56, R64). -/

namespace Sys2Proof

namespace Machine

/-! ### The four instructions by their effective address (R145) -/

theorem exec_of_load {s : State} {i : Instr} {ra : Reg} {ea : Word}
    (hi : (∃ addr, i = .ld32 ra addr) ∨ ∃ rb, i = .ldin32 ra rb)
    (hea : effectiveAddress s.readReg i = some ea) : exec i s = loadWord ra ea s := by
  rcases hi with ⟨addr, rfl⟩ | ⟨rb, rfl⟩
  · obtain rfl : directAddress addr = ea := Option.some.inj hea
    rfl
  · obtain rfl : indirectAddress s.readReg rb = ea := Option.some.inj hea
    rfl

theorem exec_of_store {s : State} {i : Instr} {ra : Reg} {ea : Word}
    (hi : (∃ addr, i = .st32 ra addr) ∨ ∃ rb, i = .stin32 ra rb)
    (hea : effectiveAddress s.readReg i = some ea) :
    exec i s = storeWord (s.readReg ra) ea s := by
  rcases hi with ⟨addr, rfl⟩ | ⟨rb, rfl⟩
  · obtain rfl : directAddress addr = ea := Option.some.inj hea
    rfl
  · obtain rfl : indirectAddress s.readReg rb = ea := Option.some.inj hea
    rfl

/-- An instruction with an effective address is a load or a store there. -/
theorem exec_of_effectiveAddress {s : State} {i : Instr} {ea : Word}
    (hea : effectiveAddress s.readReg i = some ea) :
    (∃ ra, exec i s = loadWord ra ea s) ∨ ∃ v, exec i s = storeWord v ea s := by
  cases i with
  | ld32 ra addr => exact .inl ⟨ra, exec_of_load (.inl ⟨addr, rfl⟩) hea⟩
  | ldin32 ra rb => exact .inl ⟨ra, exec_of_load (.inr ⟨rb, rfl⟩) hea⟩
  | st32 ra addr => exact .inr ⟨s.readReg ra, exec_of_store (.inl ⟨addr, rfl⟩) hea⟩
  | stin32 ra rb => exact .inr ⟨s.readReg ra, exec_of_store (.inr ⟨rb, rfl⟩) hea⟩
  | addi | subi | andi | ori | xori | shli | shri | addu | subu | shru | addim | cmp32
  | jmp | je | jne | jlt | jle | jgt | jge | call | ret | halt => cases hea

/-! ### `loadWord` and `storeWord` by address (R56, R64) -/

section

variable {s : State} {ea : Word} (ra : Reg) (v : Word)

theorem loadWord_of_aligned (ha : ea.toNat % 4 = 0) (hb : ea.toNat + 4 ≤ s.cfg.memSize) :
    loadWord ra ea s =
      .next ((s.afterRead (hierRead s.cfg s.mem s.caches ea.toNat 4)).writeReg ra
        (BitVec.ofNat 32 (hierRead s.cfg s.mem s.caches ea.toNat 4).value)).advance := by
  rw [loadWord, dataRead_of_aligned s ea ha hb]

theorem storeWord_of_aligned (ha : ea.toNat % 4 = 0) (hb : ea.toNat + 4 ≤ s.cfg.memSize) :
    storeWord v ea s =
      .next (s.afterWrite ea (hierWrite s.cfg s.mem s.caches ea.toNat 4 v.toNat)).advance := by
  rw [storeWord, dataWrite_of_aligned s ea v ha hb]

theorem loadWord_outside (ha : ea.toNat % 4 = 0) (hb : s.cfg.memSize < ea.toNat + 4) :
    loadWord ra ea s = .next (s.raise .outOfBoundsAccess s.pc (some ea)) := by
  rw [loadWord, (dataRead_outOfBounds s ea).2 ⟨ha, hb⟩]

theorem storeWord_outside (ha : ea.toNat % 4 = 0) (hb : s.cfg.memSize < ea.toNat + 4) :
    storeWord v ea s = .next (s.raise .outOfBoundsAccess s.pc (some ea)) := by
  rw [storeWord, (dataWrite_outOfBounds s ea v).2 ⟨ha, hb⟩]

theorem loadWord_misaligned (ha : ea.toNat % 4 ≠ 0) :
    loadWord ra ea s = .refused (.misalignedAccess s.pc ea) := by
  rw [loadWord, (dataRead_misaligned s ea).2 ha]

theorem storeWord_misaligned (ha : ea.toNat % 4 ≠ 0) :
    storeWord v ea s = .refused (.misalignedAccess s.pc ea) := by
  rw [storeWord, (dataWrite_misaligned s ea v).2 ha]

end

/-- Settles O18: `loadWord` and `storeWord` answer alike at an address where no access is made. -/
theorem accessOutsideMemoryFaults : Obligations.AccessOutsideMemoryFaults := by
  intro s i ea hea
  rcases exec_of_effectiveAddress hea with ⟨ra, hexec⟩ | ⟨v, hexec⟩
  · rw [hexec]
    exact ⟨loadWord_outside ra, loadWord_misaligned ra⟩
  · rw [hexec]
    exact ⟨storeWord_outside v, storeWord_misaligned v⟩

/-! ### The bytes of a word (R53) -/

theorem toNat_leBytes_getElem (n v k : Nat) (h : k < (leBytes n v).length) :
    (leBytes n v)[k].toNat = v / 2 ^ (8 * k) % 2 ^ 8 := by
  induction n generalizing v k with
  | zero => cases h
  | succ n ih =>
    cases k with
    | zero => simp [leBytes]
    | succ k =>
      have hk : k < (leBytes n (v / 256)).length := Nat.lt_of_succ_lt_succ h
      calc (leBytes n (v / 256))[k].toNat
          = v / 2 ^ 8 / 2 ^ (8 * k) % 2 ^ 8 := ih (v / 256) k hk
        _ = v / 2 ^ (8 * (k + 1)) % 2 ^ 8 := by
          rw [Nat.div_div_eq_div_mul, ← Nat.pow_add, Nat.mul_succ, Nat.add_comm 8]

theorem toNat_readByte_writeBytes_leBytes (m : Mem) (a n v k : Nat) (hm : Memory.wf m = true)
    (hk : k < n) :
    (readByte (writeBytes m a (leBytes n v)) (a + k)).toNat = v / 2 ^ (8 * k) % 2 ^ 8 := by
  have hlt : k < (leBytes n v).length := by rwa [leBytes_length]
  rw [readByte_writeBytes_inside m a _ k hm hlt, toNat_leBytes_getElem]

/-! ### Completed accesses (R146 to R149) -/

/-- Settles O16: the value the hierarchy gives back is the word in memory (`ofNat_hierRead`). -/
theorem loadsReadTheWord : Obligations.LoadsReadTheWord := by
  intro s i ra ea hi hea hs ha hb
  have hvalue := ofNat_hierRead s hs ea.toNat ha
  refine ⟨_, (exec_of_load hi hea).trans (loadWord_of_aligned ra ha hb), ?_, fun q hq => ?_,
    rfl, rfl, fun _ => rfl, rfl, ⟨rfl, rfl⟩, ⟨rfl, rfl, rfl, rfl, rfl, rfl, rfl, rfl⟩, rfl, rfl⟩
  · rw [State.readReg_advance, State.readReg_writeReg_same, hvalue, toNat_memWord]
  · exact State.readReg_writeReg_ne _ ra q _ fun e => hq (congrArg some e)

/-- Settles O17: memory holds the register's bytes inside the word and its old bytes outside. -/
theorem storesWriteTheWord : Obligations.StoresWriteTheWord := by
  intro s i ra ea hi hea hm ha hb
  obtain ⟨hwf, -⟩ := hm
  refine ⟨_, (exec_of_store hi hea).trans (storeWord_of_aligned _ ha hb), fun k hk => ?_,
    keepsMemoryBut_of_writeBytes s _ ea.toNat 4 (s.readReg ra).toNat hwf rfl, fun _ _ => rfl,
    rfl, rfl, rfl, ⟨rfl, rfl⟩, ⟨rfl, rfl, rfl, rfl, rfl, rfl, rfl, rfl⟩, rfl, fun a => ?_⟩
  · exact toNat_readByte_writeBytes_leBytes s.mem ea.toNat 4 _ k hwf hk
  · exact mem_insertSorted ea.toNat a s.stored

end Machine

end Sys2Proof

/-! SUPPORT. The obligations of `43_control.md`: the jumps by the stored flags (R161 to R167, R170),
what `CALL` pushes (R168), what `RET` pops (R169), and the two in a row. -/

namespace Sys2Proof

namespace Machine

/-! ### The conditions (R170) -/

theorem condNotEqual_iff (f : Flags) : condNotEqual f = true ↔ f.eq = false :=
  (Bool.not_eq_true' f.eq).to_iff

theorem condGreater_iff (f : Flags) : condGreater f = true ↔ f.le = false :=
  (Bool.not_eq_true' f.le).to_iff

theorem condGreaterOrEqual_iff (f : Flags) : condGreaterOrEqual f = true ↔ f.lt = false :=
  (Bool.not_eq_true' f.lt).to_iff

theorem condNotEqual_compareFlags (a b : Word) :
    condNotEqual (compareFlags a b) = true ↔ a.toNat ≠ b.toNat := by
  rw [condNotEqual_iff, ← Bool.not_eq_true, compareFlags_eq_iff]

theorem condGreater_compareFlags (a b : Word) :
    condGreater (compareFlags a b) = true ↔ b.toNat < a.toNat := by
  rw [condGreater_iff, ← Bool.not_eq_true, compareFlags_le_iff, Nat.not_le]

theorem condGreaterOrEqual_compareFlags (a b : Word) :
    condGreaterOrEqual (compareFlags a b) = true ↔ b.toNat ≤ a.toNat := by
  rw [condGreaterOrEqual_iff, ← Bool.not_eq_true, compareFlags_lt_iff, Nat.not_lt]

/-! ### The jumps (R161 to R167) -/

/-- A jump whose condition bit says `p` goes to its target when `p` holds, and else to the next
word. -/
theorem jumpIf_of_iff {taken : Bool} {p : Prop} [Decidable p] (h : taken = true ↔ p)
    (target : Word) (s : State) :
    jumpIf taken target s = .next { s with pc := if p then target else s.pc + 4 } := by
  by_cases hp : p
  · rw [if_pos hp, h.2 hp]
    rfl
  · rw [if_neg hp, Bool.eq_false_iff.2 (mt h.1 hp)]
    rfl

/-- Settles O19: every jump is `jumpIf` of its condition, and behind a `CMP32` the stored flags are
those of `compareFlags`. -/
theorem jumpsFollowTheConditionTable : Obligations.JumpsFollowTheConditionTable := by
  refine ⟨fun s target => ?_, fun s t rb rc target ht => ?_⟩
  · exact ⟨rfl, jumpIf_of_iff Iff.rfl target s, jumpIf_of_iff (condNotEqual_iff _) target s,
      jumpIf_of_iff Iff.rfl target s, jumpIf_of_iff Iff.rfl target s,
      jumpIf_of_iff (condGreater_iff _) target s,
      jumpIf_of_iff (condGreaterOrEqual_iff _) target s⟩
  · obtain rfl := eq_of_next ht
    exact ⟨jumpIf_of_iff (compareFlags_eq_iff _ _) target _,
      jumpIf_of_iff (condNotEqual_compareFlags _ _) target _,
      jumpIf_of_iff (compareFlags_lt_iff _ _) target _,
      jumpIf_of_iff (compareFlags_le_iff _ _) target _,
      jumpIf_of_iff (condGreater_compareFlags _ _) target _,
      jumpIf_of_iff (condGreaterOrEqual_compareFlags _ _) target _⟩

/-! ### The entry on top of the stack (R30) -/

/-- With an entry on a legal stack, `rasTop` is not its default of log 20. -/
theorem some_rasTop {s : State} (hs : s.rasOk) (hsome : 0 < s.sp) :
    some s.rasTop = s.ras[s.sp - 1]? := by
  obtain ⟨hlen, hle⟩ := hs
  have hlt : s.sp - 1 < s.ras.length := by omega
  rw [State.rasTop, List.getD_eq_getElem _ _ hlt, List.getElem?_eq_getElem hlt]

theorem rasTop_pushRas {s : State} (h : s.sp < s.ras.length) (v : Word) :
    (s.pushRas v).rasTop = v := by
  simp [State.rasTop, h]

/-! ### CALL and RET by the room on the stack (R168, R169) -/

section
variable {s : State} (target : Word)

theorem exec_call_of_room (h : s.sp ≠ s.cfg.stackDepth) :
    exec (.call target) s = .next ((s.pushRas (nextWordAddress s.pc)).setPc target) :=
  if_neg (mt beq_iff_eq.1 h)

theorem exec_call_of_full (h : s.sp = s.cfg.stackDepth) :
    exec (.call target) s = .next (s.raise .stackOverflow s.pc none) :=
  if_pos (beq_iff_eq.2 h)

theorem exec_ret_of_entry (h : s.sp ≠ 0) : exec .ret s = .next (s.popRas.setPc s.rasTop) :=
  if_neg (mt beq_iff_eq.1 h)

theorem exec_ret_of_empty (h : s.sp = 0) :
    exec .ret s = .next (s.raise .stackUnderflow s.pc none) :=
  if_pos (beq_iff_eq.2 h)

end

theorem exec_keeps_rasOk {i : Instr} {s t : State} (hs : s.rasOk) (h : exec i s = .next t) :
    t.rasOk := by
  have heff := exec_next i s t h
  obtain ⟨hcfg, -⟩ := effect_keepsPipeline i s t heff
  exact rasOk_of_rasChange hs hcfg (effect_rasChange i s t heff)

/-- Settles O20: `CALL` is `pushRas` of the next word's address and a jump, or `raise`. -/
theorem callPushesTheReturnAddress : Obligations.CallPushesTheReturnAddress := by
  intro s target hs
  refine ⟨fun hroom => ?_, exec_call_of_full target⟩
  obtain ⟨hlen, -⟩ := hs
  exact ⟨_, exec_call_of_room target hroom.ne, List.getElem?_set_self (hlen ▸ hroom),
    fun _ hk => List.getElem?_set_ne hk.symm, rfl, rfl, fun _ _ => rfl, rfl, fun _ => rfl, rfl,
    ⟨rfl, rfl, rfl, rfl, rfl, rfl, rfl, rfl⟩, rfl, rfl⟩

/-- Settles O21: `RET` is `popRas` and a jump to `rasTop`, or `raise`. -/
theorem retPopsIntoPc : Obligations.RetPopsIntoPc := by
  intro s hs
  refine ⟨fun hsome => ?_, exec_ret_of_empty⟩
  exact ⟨_, exec_ret_of_entry hsome.ne', some_rasTop hs hsome, rfl, rfl, fun _ _ => rfl, rfl,
    fun _ => rfl, rfl, ⟨rfl, rfl, rfl, rfl, rfl, rfl, rfl, rfl⟩, rfl, rfl⟩

/-- Settles O23: behind the `CALL` the stack is not empty, and `rasTop` is the pushed address. -/
theorem callThenRetComesBack : Obligations.CallThenRetComesBack := by
  intro s target hs hroom
  have hcall := exec_call_of_room target hroom.ne
  have hret := exec_ret_of_entry
    (s := (s.pushRas (nextWordAddress s.pc)).setPc target) (Nat.succ_ne_zero s.sp)
  refine ⟨_, _, hcall, hret, ?_, rfl, ?_, exec_keeps_rasOk (exec_keeps_rasOk hs hcall) hret,
    rfl, rfl, rfl, rfl⟩
  · obtain ⟨hlen, -⟩ := hs
    exact rasTop_pushRas (hlen ▸ hroom) _
  · exact List.take_set_of_le (Nat.le_refl s.sp)

end Machine

end Sys2Proof

/-! SUPPORT. The obligation of `44_system.md`: the state `HALT` leaves, and that the architectural
view stays in it (R180, log 5). -/

namespace Sys2Proof

namespace Machine

theorem exec_halt (s : State) : exec .halt s = .next s.advance.halt := rfl

/-- A stopped engine stays as it is for every number of steps (log 5). -/
theorem run_stopped {s : State} (hc : s.cfg.wf = true) (hr : s.status ≠ .running) (k : Nat) :
    Sys2Proof.core.run k s = .next s := by
  induction k with
  | zero => rfl
  | succ k ih =>
    have hstep : Sys2Proof.core.step s = .next s := step_stopped s hc hr
    simp only [Host.Core.run, hstep]
    exact ih

/-- Settles O22: `HALT` is `halt` behind `advance`, and a step leaves a stopped engine unchanged. -/
theorem haltStopsTheEngine : Obligations.HaltStopsTheEngine := by
  intro s
  refine ⟨exec_halt s, fun hc k t ht => ?_⟩
  obtain rfl : t = s.advance.halt := eq_of_next ht
  have hstopped : s.advance.halt.status ≠ .running := by simp
  exact run_stopped (s := s.advance.halt) hc hstopped k

end Machine

end Sys2Proof

/-! SUPPORT. The obligations of `50_pipeline.md`: what a clock cycle commits and moves (R204 to
R224), what a faulting one leaves (R227), the states of the stages (R203), and the agreement of the
two views (R229). -/

namespace Sys2Proof

namespace Machine

/-! ### A cycle that faults, and one that does not (R225, R227) -/

/-- A faulting cycle keeps the latches, `pc`, `mbusy` and `mdata` (R227). -/
theorem cycle_faulted_keepsLatches {s t : State} {r : FaultRecord} (h : cycle s = .next t)
    (hr : t.status = .faulted r) :
    t.fd = s.fd ∧ t.de = s.de ∧ t.em = s.em ∧ t.mw = s.mw ∧ t.pc = s.pc ∧ t.mbusy = s.mbusy ∧
      t.mdata = s.mdata := by
  obtain ⟨-, -, hcase⟩ := cycle_next s t h
  cases hcase with
  | stalled m _ _ ht | moved m _ _ _ _ _ _ _ _ ht =>
    subst ht
    have hend : endStatus (stageW s).halted = .faulted r := hr
    cases hh : (stageW s).halted <;> rw [hh] at hend <;> cases hend
  | faultM | faultE | faultD | faultF => subst t; exact ⟨rfl, rfl, rfl, rfl, rfl, rfl, rfl⟩

/-- A cycle ends as Writeback says, or Faulted (R225, R262). -/
theorem cycle_status {s t : State} (h : cycle s = .next t) :
    t.status = endStatus (stageW s).halted ∨ ∃ r, t.status = .faulted r := by
  obtain ⟨-, -, hcase⟩ := cycle_next s t h
  cases hcase with
  | stalled | moved => subst t; exact .inl rfl
  | faultM | faultE | faultD | faultF => subst t; exact .inr ⟨_, rfl⟩

theorem endStatus_eq_halted_iff (halted : Bool) : endStatus halted = .halted ↔ halted = true := by
  cases halted <;> simp [endStatus]

theorem endStatus_ne_faulted (halted : Bool) (r : FaultRecord) : endStatus halted ≠ .faulted r := by
  cases halted <;> simp [endStatus]

/-- A cycle ends Halted only with a `HALT` in Writeback (R225). -/
theorem haltInMw_of_cycle_halted {s t : State} (h : cycle s = .next t) (ht : t.status = .halted) :
    ∃ w, s.mw = some w ∧ w.op = .halt := by
  rcases cycle_status h with hend | ⟨r, hr⟩
  · rwa [ht, eq_comm, endStatus_eq_halted_iff, stageW_halted] at hend
  · rw [ht] at hr; cases hr

/-- A cycle that does not fault stalls or moves. -/
theorem cycle_stalled_or_moved {s t : State} (h : cycle s = .next t)
    (hf : ∀ r, t.status ≠ .faulted r) :
    (∃ m, stageM s = .ok m ∧ m.stall = true ∧
      t = ((s.afterW (stageW s)).afterM m).endStalled (stageW s) m) ∨
    ∃ m e d f, stageM s = .ok m ∧ m.stall = false ∧ stageE s m.stored = .ok e ∧
      stageD s (forwardsOf (stageW s) m e) e.redirect = .ok d ∧
      stageF s e.redirect d.stall = .ok f ∧
      t = (((s.afterW (stageW s)).afterM m).afterE e).endMoved (stageW s) m e d f := by
  obtain ⟨-, -, hcase⟩ := cycle_next s t h
  cases hcase with
  | stalled m hm hs ht => exact .inl ⟨m, hm, hs, ht⟩
  | moved m e d f hm hs he hd hfe ht => exact .inr ⟨m, e, d, f, hm, hs, he, hd, hfe, ht⟩
  | faultM | faultE | faultD | faultF => subst t; exact absurd rfl (hf _)

/-! ### Nothing follows a `HALT` (R224, R275) -/

theorem haltOk_of_sameLatches {s t : State} (hs : s.haltOk) (hfd : t.fd = s.fd) (hde : t.de = s.de)
    (hem : t.em = s.em) (hmw : t.mw = s.mw) (hpc : t.pc = s.pc) (hb : t.mbusy = s.mbusy)
    (hr : t.status ≠ .halted) : t.haltOk where
  fetched := by rw [hfd, hpc]; exact hs.fetched
  inDe := by rw [hde, hfd, hpc]; exact hs.inDe
  inEm := by rw [hem, hde, hfd, hpc]; exact hs.inEm
  inMw := by rw [hmw, hem, hde, hfd, hpc]; exact hs.inMw
  busy := by rw [hb, hem]; exact hs.busy
  halted h := absurd h hr

theorem cycle_keeps_haltOk {s t : State} (hs : s.haltOk) (h : cycle s = .next t) : t.haltOk := by
  by_cases hf : ∃ r, t.status = .faulted r
  · obtain ⟨r, hr⟩ := hf
    obtain ⟨hfd, hde, hem, hmw, hpc, hb, -⟩ := cycle_faulted_keepsLatches h hr
    exact haltOk_of_sameLatches hs hfd hde hem hmw hpc hb (by simp [hr])
  · rcases cycle_stalled_or_moved h (not_exists.1 hf) with
      ⟨m, hm, hst, rfl⟩ | ⟨m, e, d, f, hm, hst, he, hd, hfe, rfl⟩
    · exact haltOk_stalled s m hs hm hst
    · exact haltOk_moved s m e d f hs hm hst he hd hfe

/-- The fetch stop holds `pc` and makes a bubble (R224). -/
theorem stageF_of_fetchStop {s : State} (h : fetchStop s = true) :
    stageF s none false = .ok { fd := none, pc := s.pc } := by
  simp [stageF, h]

theorem stageE_of_bubble {s : State} (stored : List Nat) (h : s.de = none) :
    stageE s stored = .ok { em := none, ras := s.ras, sp := s.sp, redirect := none, fwdReg := none
                            fwdFl := none } := by
  simp [stageE, h]

theorem stageD_of_bubble {s : State} (fw : Forwards) (h : s.fd = none) :
    stageD s fw none = .ok { de := none, stall := false } := by
  simp [stageD, h]

/-- With a `HALT` in Writeback and nothing behind it, a cycle that does not fault leaves `pc`. -/
theorem cycle_pc_of_haltInMw {s t : State} {w : MemoryLatch} (hs : s.haltOk) (h : cycle s = .next t)
    (hf : ∀ r, t.status ≠ .faulted r) (hw : s.mw = some w) (hop : w.op = .halt) : t.pc = s.pc := by
  obtain ⟨-, hde, hfd, -⟩ := hs.inMw w hw hop
  rcases cycle_stalled_or_moved h hf with
    ⟨m, -, -, rfl⟩ | ⟨m, e, d, f, -, -, he, hd, hfe, rfl⟩
  · rfl
  · have hstop : fetchStop s = true := by simp [fetchStop, hw, hop]
    rw [stageE_of_bubble _ hde] at he
    obtain rfl := ok_inj he
    rw [stageD_of_bubble _ hfd] at hd
    obtain rfl := ok_inj hd
    rw [stageF_of_fetchStop hstop] at hfe
    obtain rfl := ok_inj hfe
    rfl

/-- Settles O39: every way a cycle ends keeps `haltOk`, and behind the `HALT` it commits `pc`
rests. -/
theorem nothingFollowsAHaltInThePipe : Obligations.NothingFollowsAHaltInThePipe := by
  intro s t hs h
  refine ⟨cycle_keeps_haltOk hs h, fun ht => ?_⟩
  obtain ⟨w, hw, hop⟩ := haltInMw_of_cycle_halted h ht
  obtain ⟨-, -, -, hpc⟩ := hs.inMw w hw hop
  exact ⟨w, hw, hop, (cycle_pc_of_haltInMw hs h (by simp [ht]) hw hop).trans hpc⟩

/-! ### The two views agree (R229) -/

theorem init_pipeOk (cfg : Config) (bps : List Nat) (hcfg : cfg.wf = true) :
    (State.init cfg bps).pipeOk where
  memory := init_memorySystemOk cfg bps hcfg
  halt := init_haltOk cfg bps
  bounds _ hd := by cases hd
  word _ hd := by cases hd
  dst _ he := by cases he

/-- The reset state shows itself: nothing is in flight. -/
theorem init_shows {cfg : Config} {bps : List Nat} {v : View} (hcfg : cfg.wf = true)
    (hv : Drained (State.init cfg bps) v) : Shows cfg (State.init cfg bps) v :=
  shows_self (State.init cfg bps) v (init_memorySystemOk cfg bps hcfg) rfl rfl rfl rfl
    (fun _ hf => by cases hf) hv

/-- Settles O51: `cycles_agree`, read at the reset state. -/
theorem cycleMachineAgreesWithTheInterpreter :
    Obligations.CycleMachineAgreesWithTheInterpreter := by
  intro cfg bps n t hcfg h ht
  obtain ⟨v, hv, hall⟩ := cycles_agree n (State.init cfg bps) t (init_pipeOk cfg bps hcfg) h ht
  obtain ⟨k, u, hrun, hhalt, hpcs, hx, hflags, hmem, hras, hsp, hpc⟩ := hall _ (init_shows hcfg hv)
  have hregs : ∀ q, u.readReg q = t.readReg q := fun q => by simp only [State.readReg, hx]
  exact ⟨k, u, hrun, hhalt, hpcs, hregs, hflags, fun a => by rw [hmem], hsp, by rw [hras, hsp], hpc⟩

/-! ### What Writeback commits (R204) -/

theorem stageW_readReg (s : State) (q : Reg) :
    (s.afterW (stageW s)).readReg q = committedReg s q :=
  stageW_reg s q

theorem stageW_committedFlags (s : State) : (stageW s).flags = committedFlags s := by
  cases h : s.mw <;> simp [stageW, committedFlags, h]

/-- Writeback commits whatever else a cycle does (R204, R227). -/
theorem cycle_readReg {s t : State} (h : cycle s = .next t) (q : Reg) :
    t.readReg q = committedReg s q := by
  rw [← stageW_readReg]
  obtain ⟨-, -, hcase⟩ := cycle_next s t h
  cases hcase <;> subst t <;> rfl

theorem cycle_committedFlags {s t : State} (h : cycle s = .next t) : t.flags = committedFlags s :=
  (cycle_flags s t h).trans (stageW_committedFlags s)

theorem dst_of_committedReg_ne {s : State} {q : Reg} (h : committedReg s q ≠ s.readReg q) :
    s.mw.bind MemoryLatch.dst = some q := by
  cases hw : s.mw with
  | none => simp [committedReg, hw] at h
  | some w =>
    by_contra hd
    simp only [Option.bind_some] at hd
    simp [committedReg, hw, hd] at h

/-- Settles O40: registers and flags are Writeback's in every case of a cycle, and it sets the
status unless the cycle faults. -/
theorem writebackCommitsInEveryCycle : Obligations.WritebackCommitsInEveryCycle := by
  intro s t h
  refine ⟨cycle_readReg h, cycle_committedFlags h, fun hhalt => ?_, haltInMw_of_cycle_halted h,
    fun q q' hq hq' => ?_⟩
  · refine (cycle_status h).imp_left fun hend => ?_
    rw [hend, endStatus_eq_halted_iff, stageW_halted]
    exact hhalt
  · rw [cycle_readReg h] at hq hq'
    have hdst := dst_of_committedReg_ne hq
    rw [dst_of_committedReg_ne hq'] at hdst
    exact (Option.some.inj hdst).symm

/-! ### The Memory stage and its cycle (R205 to R208) -/

theorem cycle_of_stall {s : State} {m : MemoryOut} (hc : s.cfg.wf = true) (hr : s.status = .running)
    (hm : stageM s = .ok m) (hs : m.stall = true) :
    cycle s = .next (((s.afterW (stageW s)).afterM m).endStalled (stageW s) m) := by
  simp [cycle_running s hc hr, runCycle, hm, hs]

/-- Once Memory completes, memory and caches are its own, whatever a later stage does (R227). -/
theorem cycle_memory_of_stageM {s t : State} {m : MemoryOut} (h : cycle s = .next t)
    (hm : stageM s = .ok m) : t.mem = m.mem ∧ t.caches = m.caches := by
  obtain ⟨-, -, hcase⟩ := cycle_next s t h
  cases hcase with
  | faultM r hm' ht => rw [hm] at hm'; cases hm'
  | stalled m' hm' | moved m' _ _ _ hm' | faultE m' _ hm' | faultD m' _ _ hm'
  | faultF m' _ _ _ hm' =>
    rw [hm] at hm'
    obtain rfl := ok_inj hm'
    subst t
    exact ⟨rfl, rfl⟩

/-- A cycle that does not fault moves the pipe when Memory does not stall. -/
theorem cycle_moved {s t : State} {m : MemoryOut} (h : cycle s = .next t)
    (hf : ∀ r, t.status ≠ .faulted r) (hm : stageM s = .ok m) (hs : m.stall = false) :
    ∃ e d f, stageE s m.stored = .ok e ∧
      stageD s (forwardsOf (stageW s) m e) e.redirect = .ok d ∧
      stageF s e.redirect d.stall = .ok f ∧
      t = (((s.afterW (stageW s)).afterM m).afterE e).endMoved (stageW s) m e d f := by
  rcases cycle_stalled_or_moved h hf with
    ⟨m', hm', hs', -⟩ | ⟨m', e, d, f, hm', -, he, hd, hfe, ht⟩
  all_goals
    rw [hm] at hm'
    obtain rfl := ok_inj hm'
  · rw [hs] at hs'; cases hs'
  · exact ⟨e, d, f, he, hd, hfe, ht⟩

theorem stageM_of_load {s : State} {l : ExecuteLatch} (hem : s.em = some l)
    (hop : isLoadOp l.op = true) (hb : s.mbusy = 0) : stageM s = issueLoad s l := by
  simp [stageM, hem, hop, hb]

theorem stageM_of_store {s : State} {l : ExecuteLatch} (hem : s.em = some l)
    (hop : isStoreOp l.op = true) (hb : s.mbusy = 0) : stageM s = issueStore s l := by
  have hl : isLoadOp l.op = false := by
    rcases (isStoreOp_iff _).1 hop with h | h <;> rw [h] <;> rfl
  simp [stageM, hem, hop, hl, hb]

theorem stageM_of_busy {s : State} {l : ExecuteLatch} (hem : s.em = some l)
    (hop : (isLoadOp l.op || isStoreOp l.op) = true) (hb : s.mbusy ≠ 0) :
    stageM s = .ok (accessCycle l s.mem s.caches s.stored s.mdata (s.mbusy - 1)) := by
  simp [stageM, hem, hop, hb]

theorem stageM_of_pass {s : State} {l : ExecuteLatch} (hem : s.em = some l)
    (hop : (isLoadOp l.op || isStoreOp l.op) = false) :
    stageM s = .ok { mem := s.mem, caches := s.caches, stored := s.stored, mbusy := s.mbusy
                     mdata := s.mdata, mw := some (passLatch l), stall := false } := by
  simp [stageM, hem, hop]

theorem stageM_of_bubble {s : State} (hem : s.em = none) :
    stageM s = .ok { mem := s.mem, caches := s.caches, stored := s.stored, mbusy := s.mbusy
                     mdata := s.mdata, mw := none, stall := false } := by
  simp [stageM, hem]

theorem max_one_eq_remainingCycles (latency : Nat) :
    max 1 latency = remainingCycles latency + 1 := by
  unfold remainingCycles
  omega

/-! ### An access cycle by cycle (R206 to R208, R226) -/

theorem cycles_succ_of_next {n : Nat} {s t : State} (h : cycles n s = .next t) :
    cycles (n + 1) s = cycle t := by
  induction n generalizing s with
  | zero =>
    obtain rfl : t = s := eq_of_next h
    cases hc : cycle t <;> simp [cycles, hc]
  | succ n ih =>
    obtain ⟨s1, hcycle, hrest⟩ := cycles_succ n s t h
    rw [cycles, hcycle]
    exact ih hrest

/-- `t` is on the way through the access of `l` that began in `s`, with `rem` cycles to go after
this one; `o` is what the first Memory cycle left. -/
structure InAccess (s : State) (l : ExecuteLatch) (o : MemoryOut) (rem : Nat) (t : State) :
    Prop where
  config : t.cfg.wf = true
  running : t.status = .running
  access : (isLoadOp l.op || isStoreOp l.op) = true
  em : t.em = some l
  de : t.de = s.de
  fd : t.fd = s.fd
  pc : t.pc = s.pc
  ras : keepsRas s t
  /-- No `HALT` in Writeback ends the run before the access does. -/
  noHalt : ∀ w, t.mw = some w → w.op ≠ .halt
  memory : stageM t = .ok (accessCycle l o.mem o.caches o.stored o.mdata rem)

/-- `t` waits for an access to end, with `b` more cycles to go; `o` is what the first Memory cycle
left. -/
structure Waiting (o : MemoryOut) (b : Nat) (t : State) : Prop where
  mbusy : t.mbusy = b
  mw : t.mw = none
  mem : t.mem = o.mem
  caches : t.caches = o.caches
  mdata : t.mdata = o.mdata

theorem endStatus_running_of_noHalt {t : State} (h : ∀ w, t.mw = some w → w.op ≠ .halt) :
    endStatus (stageW t).halted = .running := by
  have hh : (stageW t).halted = false := by
    rw [← Bool.not_eq_true, stageW_halted]
    rintro ⟨w, hw, hop⟩
    exact h w hw hop
  rw [hh]
  rfl

/-- One more stalled cycle of an access. -/
theorem inAccess_cycle {s t : State} {l : ExecuteLatch} {o : MemoryOut} {rem : Nat}
    (h : InAccess s l o (rem + 1) t) :
    ∃ u, cycle t = .next u ∧ InAccess s l o rem u ∧ Waiting o (rem + 1) u := by
  refine ⟨_, cycle_of_stall h.config h.running h.memory (by simp [accessCycle]), ?_, ?_⟩
  · exact
      { config := h.config
        running := endStatus_running_of_noHalt h.noHalt
        access := h.access
        em := h.em
        de := h.de
        fd := h.fd
        pc := h.pc
        ras := h.ras
        noHalt := fun w hw => by simp [accessCycle] at hw
        memory := stageM_of_busy h.em h.access (Nat.succ_ne_zero rem) }
  · exact ⟨rfl, by simp [accessCycle], rfl, rfl, rfl⟩

/-- An access that takes `rem` more cycles after its first one holds the pipe as long. -/
theorem cycles_inAccess {s : State} {l : ExecuteLatch} {o : MemoryOut} {rem : Nat}
    (h : InAccess s l o rem s) (k : Nat) (hk : k ≤ rem) :
    ∃ t, cycles k s = .next t ∧ InAccess s l o (rem - k) t ∧
      (1 ≤ k → Waiting o (rem + 1 - k) t) := by
  induction k with
  | zero => exact ⟨s, rfl, h, fun hk => absurd hk (by decide)⟩
  | succ k ih =>
    obtain ⟨t, hrun, ht, -⟩ := ih (by omega)
    rw [show rem - k = rem - (k + 1) + 1 by omega] at ht
    obtain ⟨u, hcycle, hu, hwait⟩ := inAccess_cycle ht
    refine ⟨u, (cycles_succ_of_next hrun).trans hcycle, hu, fun _ => ?_⟩
    rwa [show rem + 1 - (k + 1) = rem - (k + 1) + 1 by omega]

/-- The last cycle of an access: memory and caches stay, and it leaves for Writeback unless a later
stage faults. -/
theorem cycles_inAccess_last {s u : State} {l : ExecuteLatch} {o : MemoryOut} {rem : Nat}
    (h : InAccess s l o rem s) (hu : cycles (rem + 1) s = .next u) :
    u.mem = o.mem ∧ u.caches = o.caches ∧
      (u.status = .running → u.mbusy = 0 ∧ u.mw = some (accessLatch l o.mdata)) := by
  obtain ⟨t, hrun, ht, -⟩ := cycles_inAccess h rem le_rfl
  rw [cycles_succ_of_next hrun] at hu
  have hm := ht.memory
  rw [Nat.sub_self] at hm
  obtain ⟨hmem, hcaches⟩ := cycle_memory_of_stageM hu hm
  refine ⟨hmem, hcaches, fun hr => ?_⟩
  obtain ⟨e, d, f, -, -, -, rfl⟩ := cycle_moved hu (by simp [hr]) hm rfl
  exact ⟨rfl, rfl⟩

/-- A first Memory cycle of an access begins one. -/
theorem inAccess_start {s : State} {l : ExecuteLatch} {o : MemoryOut} {rem : Nat}
    (hc : s.cfg.wf = true) (hr : s.status = .running)
    (hop : (isLoadOp l.op || isStoreOp l.op) = true) (hem : s.em = some l)
    (hw : ∀ w, s.mw = some w → w.op ≠ .halt)
    (hm : stageM s = .ok (accessCycle l o.mem o.caches o.stored o.mdata rem)) :
    InAccess s l o rem s :=
  ⟨hc, hr, hop, hem, rfl, rfl, rfl, ⟨rfl, rfl⟩, hw, hm⟩

/-- Settles O41: the first Memory cycle reads, every further one counts (`cycles_inAccess`). -/
theorem loadHoldsMemoryForItsLatency : Obligations.LoadHoldsMemoryForItsLatency := by
  intro s l L hc hr hem hop hb ha hin hw hL
  set r := hierRead s.cfg s.mem s.caches l.res.toNat 4
  have hm : stageM s = .ok (accessCycle l s.mem r.caches s.stored (BitVec.ofNat 32 r.value)
      (remainingCycles L)) := by
    rw [stageM_of_load hem hop hb, issueLoad, dataRead_of_aligned s l.res ha hin, hL]
  have hstart := inAccess_start (o := accessCycle l s.mem r.caches s.stored
    (BitVec.ofNat 32 r.value) (remainingCycles L)) hc hr (by simp [hop]) hem hw hm
  rw [max_one_eq_remainingCycles]
  refine ⟨fun k hk => ?_, fun u hu => ?_⟩
  · obtain ⟨t, hrun, ht, hwait⟩ := cycles_inAccess hstart k (by omega)
    refine ⟨t, hrun, ht.em, ht.de, ht.fd, ht.pc, ht.ras, ht.running, ?_, fun hk1 => ?_⟩
    · rcases Nat.eq_zero_or_pos k with rfl | hk1
      · obtain rfl : t = s := eq_of_next hrun
        rfl
      · exact (hwait hk1).mem
    · obtain ⟨hbusy, hmw, -, hcaches, hmdata⟩ := hwait hk1
      exact ⟨hbusy, hmw, hmdata, hcaches⟩
  · obtain ⟨hmem, hcaches, hlast⟩ := cycles_inAccess_last hstart hu
    refine ⟨hmem, hcaches, fun hru => ?_⟩
    obtain ⟨hbusy, hmw⟩ := hlast hru
    refine ⟨hbusy, hmw.trans ?_⟩
    simp [accessLatch, hop, accessCycle]

/-- Settles O42: the first Memory cycle writes, every further one counts (`cycles_inAccess`). -/
theorem storeHoldsMemoryForItsLatency : Obligations.StoreHoldsMemoryForItsLatency := by
  intro s l L hc hr hem hop hb ha hin hw hL
  set r := hierWrite s.cfg s.mem s.caches l.res.toNat 4 l.sdata.toNat
  have hm : stageM s = .ok (accessCycle l r.mem r.caches (insertSorted l.res.toNat s.stored) s.mdata
      (remainingCycles L)) := by
    rw [stageM_of_store hem hop hb, issueStore, dataWrite_of_aligned s l.res l.sdata ha hin, hL]
  have hstart := inAccess_start (o := accessCycle l r.mem r.caches
    (insertSorted l.res.toNat s.stored) s.mdata (remainingCycles L)) hc hr (by simp [hop]) hem hw hm
  rw [max_one_eq_remainingCycles]
  refine ⟨fun k hk => ?_, fun u hu => ?_⟩
  · obtain ⟨t, hrun, ht, hwait⟩ := cycles_inAccess hstart k (by omega)
    refine ⟨t, hrun, ht.em, ht.de, ht.fd, ht.pc, ht.ras, ht.running, fun hk1 => ?_⟩
    obtain ⟨hbusy, hmw, hmem, hcaches, -⟩ := hwait hk1
    exact ⟨hbusy, hmw, hmem, hcaches⟩
  · obtain ⟨hmem, hcaches, hlast⟩ := cycles_inAccess_last hstart hu
    refine ⟨hmem, hcaches, fun hru => ?_⟩
    obtain ⟨hbusy, hmw⟩ := hlast hru
    exact ⟨hbusy, _, hmw, rfl, rfl, rfl, rfl⟩

/-! ### What moves on in a cycle (R205, R210, R218, R219) -/

/-- What an instruction carries into Writeback when it leaves Memory (R205, R207). -/
def leavingLatch (mdata : Word) (l : ExecuteLatch) : MemoryLatch :=
  if isLoadOp l.op || isStoreOp l.op then accessLatch l mdata else passLatch l

@[simp] theorem leavingLatch_pc (mdata : Word) (l : ExecuteLatch) :
    (leavingLatch mdata l).pc = l.pc := by
  unfold leavingLatch; split <;> rfl

@[simp] theorem leavingLatch_op (mdata : Word) (l : ExecuteLatch) :
    (leavingLatch mdata l).op = l.op := by
  unfold leavingLatch; split <;> rfl

@[simp] theorem leavingLatch_dst (mdata : Word) (l : ExecuteLatch) :
    (leavingLatch mdata l).dst = l.dst := by
  unfold leavingLatch; split <;> rfl

theorem rem_eq_zero_of_not_stall {l : ExecuteLatch} {mem : Mem} {caches : List Cache}
    {stored : List Nat} {mdata : Word} {rem : Nat}
    (h : (accessCycle l mem caches stored mdata rem).stall = false) : rem = 0 := by
  simpa [accessCycle] using h

/-- Without a stall Memory hands on what `EM` holds. -/
theorem stageM_mw {s : State} {m : MemoryOut} (hm : stageM s = .ok m) (hs : m.stall = false) :
    m.mw = s.em.map (leavingLatch m.mdata) := by
  cases stageM_ok s m hm with
  | bubble he ho => subst ho; simp [he]
  | pass l he hl hst ho => subst ho; simp [he, leavingLatch, hl, hst]
  | count l he hop hb ho =>
    subst ho
    simp [he, leavingLatch, hop, accessCycle, rem_eq_zero_of_not_stall hs]
  | load l r he hop hb hr ho | store l r he _ hop hb hr ho =>
    subst ho
    simp [he, leavingLatch, hop, accessCycle, rem_eq_zero_of_not_stall hs]

/-- Execute hands on what `DE` holds, with its address, mnemonic and destination. -/
theorem stageE_em_map {s : State} {stored : List Nat} {e : ExecuteOut}
    (he : stageE s stored = .ok e) :
    e.em.map (fun l => (l.pc, l.op, l.dst)) = s.de.map (fun l => (l.pc, l.op, l.dst)) := by
  rcases stageE_em s stored e he with ⟨hde, hem, -⟩ | ⟨l, m, hde, -, -, hx⟩
  · rw [hde, hem]; rfl
  · simp [hde, hx.em, hx.pc, hx.op, hx.dst]

theorem decodeLatch_decodedAs (s : State) (fw : Forwards) (pc : Word) (i : Instr) :
    decodedAs (fw.rd s) (fw.rdFlags s) (decodeLatch s fw pc i) i := by
  cases i with
  | addi | subi | andi | ori | xori | shli | shri | addu | subu | shru | addim | cmp32 | st32
  | stin32 | je | jne | jlt | jle | jgt | jge => exact ⟨rfl, rfl, rfl⟩
  | ld32 | ldin32 | jmp | call => exact ⟨rfl, rfl⟩
  | ret | halt => rfl

theorem not_access_of_ne {op : Opcode}
    (h : op ≠ .ld32 ∧ op ≠ .ldin32 ∧ op ≠ .st32 ∧ op ≠ .stin32) :
    (isLoadOp op || isStoreOp op) = false := by
  obtain ⟨hld, hldin, hst, hstin⟩ := h
  rw [← Bool.not_eq_true, Bool.or_eq_true, isLoadOp_iff, isStoreOp_iff]
  rintro ((h | h) | (h | h)) <;> contradiction

/-- Settles O43: each latch of the next state is what its stage makes of the latch before it. -/
theorem instructionsMoveOneStageACycle : Obligations.InstructionsMoveOneStageACycle := by
  refine ⟨fun s hem => ?_, fun s t m e d hm hs he hd h hf => ?_⟩
  · cases hl : s.em with
    | none => exact ⟨_, stageM_of_bubble hl, rfl, rfl, rfl⟩
    | some l => exact ⟨_, stageM_of_pass hl (not_access_of_ne (hem l hl)), rfl, rfl, rfl⟩
  · obtain ⟨e', d', f, he', hd', -, rfl⟩ := cycle_moved h hf hm hs
    rw [he] at he'
    obtain rfl := ok_inj he'
    rw [hd] at hd'
    obtain rfl := ok_inj hd'
    refine ⟨?_, stageE_em_map he, fun hr hst => ?_, fun hor => ?_⟩
    · simp [stageM_mw hm hs, Function.comp_def]
    · rw [State.endMoved_de]
      cases stageD_ok s _ _ d' hd with
      | nothing hn ho =>
        subst ho
        have hfd : s.fd = none := hn.resolve_left fun h => h hr
        exact ⟨fun _ => rfl, fun l hl => (by rw [hfd] at hl; cases hl)⟩
      | stalled _ _ _ _ _ _ ho => subst ho; cases hst
      | decoded l i _ hl hi _ ho =>
        subst ho
        refine ⟨fun hnone => (by rw [hl] at hnone; cases hnone), fun l' hl' => ?_⟩
        rw [hl] at hl'
        obtain rfl := Option.some.inj hl'
        exact ⟨i, _, hi, rfl, rfl, rfl, decodeLatch_decodedAs s _ l.pc i⟩
    · rw [State.endMoved_de]
      cases stageD_ok s _ _ d' hd with
      | nothing _ ho | stalled _ _ _ _ _ _ ho => subst ho; rfl
      | decoded _ _ hr _ _ _ ho =>
        subst ho
        rcases hor with h | h
        · exact absurd hr h
        · cases h

/-! ### Forwarding (R209, R210, R220, R221) -/

theorem executeOp_of_aluResult (s : State) {l : DecodeLatch} {v : Word}
    (h : aluResult l = some v) : executeOp s l = .ok (executeAlu s l v) := by
  obtain ⟨pc, op, dst, a, b, flIn, target⟩ := l
  cases op with
  | addi | subi | andi | ori | xori | shli | shri | addu | subu | shru | addim =>
    obtain rfl := Option.some.inj h; rfl
  | cmp32 | ld32 | ldin32 | st32 | stin32 | jmp | je | jne | jlt | jle | jgt | jge | call | ret
  | halt => cases h

/-- Execute that completes with an instruction in `DE` has run it. -/
theorem executeOp_of_stageE {s : State} {stored : List Nat} {l : DecodeLatch} {e : ExecuteOut}
    (he : stageE s stored = .ok e) (hl : s.de = some l) : executeOp s l = .ok e := by
  rcases stageE_inv s stored e he with ⟨hde, -⟩ | ⟨l', hde, -, hex⟩
  · rw [hl] at hde; cases hde
  · rw [hl] at hde
    obtain rfl := Option.some.inj hde
    exact hex

/-- Only an ALU instruction forwards a register from Execute (R210, R212). -/
theorem stageE_fwdReg {s : State} {stored : List Nat} {e : ExecuteOut}
    (he : stageE s stored = .ok e) :
    e.fwdReg = none ∨ ∃ l v, s.de = some l ∧ aluResult l = some v ∧
      e.fwdReg = l.dst.map fun r => (r, v) := by
  cases stageE_ok s stored e he with
  | alu l v hd hr ho => subst ho; exact .inr ⟨l, v, hd, hr, rfl⟩
  | bubble _ ho | compare _ _ _ ho | access _ _ _ _ _ ho | jump _ _ _ _ ho | call _ _ _ _ ho
  | ret _ _ _ _ ho => subst ho; exact .inl rfl

/-- Only `CMP32` forwards flags from Execute (R211). -/
theorem stageE_fwdFl {s : State} {stored : List Nat} {e : ExecuteOut}
    (he : stageE s stored = .ok e) :
    e.fwdFl = none ∨ ∃ l, s.de = some l ∧ l.op = .cmp32 ∧
      e.fwdFl = some (compareFlags l.a l.b) := by
  cases stageE_ok s stored e he with
  | compare l hd hop ho => subst ho; exact .inr ⟨l, hd, hop, rfl⟩
  | bubble _ ho | alu _ _ _ _ ho | access _ _ _ _ _ ho | jump _ _ _ _ ho | call _ _ _ _ ho
  | ret _ _ _ _ ho => subst ho; exact .inl rfl

theorem isLoadOp_of_aluResult {l : DecodeLatch} {v : Word} (h : aluResult l = some v) :
    isLoadOp l.op = false := by
  rw [← Bool.not_eq_true, isLoadOp_iff]
  rintro (hop | hop) <;> simp [aluResult, hop] at h

section

variable {s : State} {m : MemoryOut} {e : ExecuteOut} {r : Reg}

/-- Behind Execute and Memory, Writeback's forward is the committed register. -/
theorem forwardedReg_writeback :
    forwardedReg r (s.readReg r) [(stageW s).fwdReg] = committedReg s r := by
  cases hw : s.mw with
  | none => simp [stageW, committedReg, hw, forwardedReg]
  | some w => cases hd : w.dst <;>
    simp [stageW, committedReg, hw, hd, MemoryLatch.regResult, forwardedReg]

theorem forwardedFlags_writeback :
    forwardedFlags s.flags [(stageW s).fwdFl] = committedFlags s := by
  cases hw : s.mw with
  | none => simp [stageW, committedFlags, hw, forwardedFlags]
  | some w => cases hf : w.flOut <;> simp [stageW, committedFlags, hw, hf, forwardedFlags]

/-- A forward that is not for `r` is passed over. -/
theorem forwardedReg_cons_of_ne {dflt : Word} {o : Option (Reg × Word)}
    {rest : List (Option (Reg × Word))} (h : ∀ v, o ≠ some (r, v)) :
    forwardedReg r dflt (o :: rest) = forwardedReg r dflt rest := by
  rcases o with _ | ⟨q, v⟩
  · rfl
  · have hq : q ≠ r := fun hq => h v (by rw [hq])
    simp [forwardedReg, hq]

theorem rd_of_aluResult {l : DecodeLatch} {v : Word} (he : stageE s m.stored = .ok e)
    (hl : s.de = some l) (hd : l.dst = some r) (hv : aluResult l = some v) :
    (forwardsOf (stageW s) m e).rd s r = v := by
  have hex := executeOp_of_stageE he hl
  rw [executeOp_of_aluResult s hv] at hex
  obtain rfl := ok_inj hex
  simp [Forwards.rd, forwardsOf, executeAlu, hd, forwardedReg]

/-- Without a producer of `r` in Execute, Decode asks Memory and Writeback. -/
theorem rd_of_no_producer (he : stageE s m.stored = .ok e)
    (hn : ∀ l, s.de = some l → l.dst ≠ some r ∨ isLoadOp l.op = true) :
    (forwardsOf (stageW s) m e).rd s r =
      forwardedReg r (s.readReg r) [m.fwdReg, (stageW s).fwdReg] := by
  refine forwardedReg_cons_of_ne fun v hv => ?_
  rcases stageE_fwdReg he with hnone | ⟨l, w, hl, hw, hfwd⟩
  · rw [hnone] at hv; cases hv
  · rw [hfwd, Option.map_eq_some_iff] at hv
    obtain ⟨q, hq, hqv⟩ := hv
    cases hqv
    rcases hn l hl with hdst | hload
    · exact hdst hq
    · rw [isLoadOp_of_aluResult hw] at hload; cases hload

theorem fwdReg_of_stageM (hm : stageM s = .ok m) (hs : m.stall = false) :
    m.fwdReg = s.em.bind fun l => l.dst.map fun q => (q, (leavingLatch m.mdata l).val) := by
  rw [MemoryOut.fwdReg, stageM_mw hm hs]
  cases s.em with
  | none => rfl
  | some l => simp [MemoryLatch.regResult]

theorem fwdFl_of_stageM (hm : stageM s = .ok m) (hs : m.stall = false) :
    m.fwdFl = s.em.bind fun l => (leavingLatch m.mdata l).flOut := by
  rw [MemoryOut.fwdFl, stageM_mw hm hs]
  cases s.em <;> rfl

theorem leavingLatch_val {mdata : Word} {l : ExecuteLatch} (h : isStoreOp l.op = false) :
    (leavingLatch mdata l).val = if isLoadOp l.op = true then mdata else l.res := by
  cases hl : isLoadOp l.op <;> simp [leavingLatch, h, hl, accessLatch, passLatch]

theorem rd_of_leaving {l : ExecuteLatch} (hm : stageM s = .ok m) (hs : m.stall = false)
    (he : stageE s m.stored = .ok e)
    (hn : ∀ l, s.de = some l → l.dst ≠ some r ∨ isLoadOp l.op = true)
    (hl : s.em = some l) (hd : l.dst = some r) (hst : isStoreOp l.op = false) :
    (forwardsOf (stageW s) m e).rd s r = if isLoadOp l.op = true then m.mdata else l.res := by
  rw [rd_of_no_producer he hn, fwdReg_of_stageM hm hs, ← leavingLatch_val hst]
  simp [hl, hd, forwardedReg]

theorem rd_of_committed (hm : stageM s = .ok m) (hs : m.stall = false)
    (he : stageE s m.stored = .ok e)
    (hn : ∀ l, s.de = some l → l.dst ≠ some r ∨ isLoadOp l.op = true)
    (hem : ∀ l, s.em = some l → l.dst ≠ some r) :
    (forwardsOf (stageW s) m e).rd s r = committedReg s r := by
  rw [rd_of_no_producer he hn, ← forwardedReg_writeback]
  refine forwardedReg_cons_of_ne fun v hv => ?_
  rw [fwdReg_of_stageM hm hs] at hv
  obtain ⟨l, hl, hv⟩ := Option.bind_eq_some_iff.1 hv
  obtain ⟨q, hq, hqv⟩ := Option.map_eq_some_iff.1 hv
  cases hqv
  exact hem l hl hq

theorem rdFlags_of_compare {l : DecodeLatch} (he : stageE s m.stored = .ok e)
    (hl : s.de = some l) (hop : l.op = .cmp32) :
    (forwardsOf (stageW s) m e).rdFlags s = compareFlags l.a l.b := by
  have hex := executeOp_of_stageE he hl
  simp only [executeOp, hop] at hex
  obtain rfl := ok_inj hex
  rfl

/-- Without a `CMP32` in Execute, Decode asks Memory and Writeback. -/
theorem rdFlags_of_no_compare (hm : stageM s = .ok m) (hs : m.stall = false)
    (he : stageE s m.stored = .ok e) (hn : ∀ l, s.de = some l → l.op ≠ .cmp32) :
    (forwardsOf (stageW s) m e).rdFlags s =
      (s.em.bind fun l => (leavingLatch m.mdata l).flOut).getD (committedFlags s) := by
  have hnone : e.fwdFl = none :=
    (stageE_fwdFl he).resolve_right fun ⟨l, hl, hop, _⟩ => hn l hl hop
  simp only [Forwards.rdFlags, forwardsOf, hnone, fwdFl_of_stageM hm hs, forwardedFlags]
  cases s.em.bind fun l => (leavingLatch m.mdata l).flOut with
  | none => exact forwardedFlags_writeback
  | some f => rfl

end

theorem leavingLatch_flOut_of_none {mdata : Word} {l : ExecuteLatch} (h : l.flOut = none) :
    (leavingLatch mdata l).flOut = none := by
  unfold leavingLatch
  split
  · rfl
  · exact h

theorem leavingLatch_flOut_of_pass {mdata : Word} {l : ExecuteLatch} (hl : isLoadOp l.op = false)
    (hst : isStoreOp l.op = false) : (leavingLatch mdata l).flOut = l.flOut := by
  simp [leavingLatch, hl, hst, passLatch]

/-- Settles O45, producer by producer, the youngest first. -/
theorem decodeReadsTheYoungestValue : Obligations.DecodeReadsTheYoungestValue := by
  intro s m e hm hs he
  refine ⟨fun l r hl hd => ?_, fun r hn => ⟨fun l hl hd hst => rd_of_leaving hm hs he hn hl hd hst,
    rd_of_committed hm hs he hn⟩, fun l hl hop => rdFlags_of_compare he hl hop, fun hn => ⟨?_, ?_⟩⟩
  · have halu : ∀ v, aluResult l = some v → (forwardsOf (stageW s) m e).rd s r = v :=
      fun v hv => rd_of_aluResult he hl hd hv
    refine ⟨?_, ?_, ?_, ?_, ?_, ?_, ?_, ?_⟩
    · rintro (hop | hop | hop) <;> exact halu _ (by simp [aluResult, hop, addWord])
    · rintro (hop | hop) <;> exact halu _ (by simp [aluResult, hop, subWord])
    · intro hop; exact halu _ (by simp [aluResult, hop, andWord])
    · intro hop; exact halu _ (by simp [aluResult, hop, orWord])
    · intro hop; exact halu _ (by simp [aluResult, hop, xorWord])
    · intro hop; exact halu _ (by simp [aluResult, hop, shiftLeftWord, shiftAmount])
    · intro hop; exact halu _ (by simp [aluResult, hop, shiftRightSignedWord, shiftAmount])
    · intro hop; exact halu _ (by simp [aluResult, hop, shiftRightUnsignedWord, shiftAmount])
  · intro l f hl hload hst hf
    rw [rdFlags_of_no_compare hm hs he hn]
    simp [hl, leavingLatch_flOut_of_pass hload hst, hf]
  · intro hem
    have hnone : (s.em.bind fun l => (leavingLatch m.mdata l).flOut) = none :=
      Option.bind_eq_none_iff.2 fun l hl => leavingLatch_flOut_of_none (hem l hl)
    rw [rdFlags_of_no_compare hm hs he hn, hnone, Option.getD_none]

/-! ### A cycle from its stages (R231) -/

section

variable {s : State} {m : MemoryOut} {e : ExecuteOut} {d : DecodeOut}

theorem cycle_of_stages {f : FetchOut} (hc : s.cfg.wf = true) (hr : s.status = .running)
    (hm : stageM s = .ok m) (hs : m.stall = false) (he : stageE s m.stored = .ok e)
    (hd : stageD s (forwardsOf (stageW s) m e) e.redirect = .ok d)
    (hf : stageF s e.redirect d.stall = .ok f) :
    cycle s = .next ((((s.afterW (stageW s)).afterM m).afterE e).endMoved (stageW s) m e d f) := by
  simp [cycle_running s hc hr, runCycle, hm, hs, he, hd, hf]

theorem cycle_of_fetch_refused {why : Refusal} (hc : s.cfg.wf = true) (hr : s.status = .running)
    (hm : stageM s = .ok m) (hs : m.stall = false) (he : stageE s m.stored = .ok e)
    (hd : stageD s (forwardsOf (stageW s) m e) e.redirect = .ok d)
    (hf : stageF s e.redirect d.stall = .error (.refuse why)) : cycle s = .refused why := by
  simp [cycle_running s hc hr, runCycle, hm, hs, he, hd, hf, stopCycle]

/-- A redirect goes through, whatever `FD` and `pc` are (R217). -/
theorem cycle_of_redirect {a : Word} (hc : s.cfg.wf = true) (hr : s.status = .running)
    (hm : stageM s = .ok m) (hs : m.stall = false) (he : stageE s m.stored = .ok e)
    (ha : e.redirect = some a) :
    cycle s = .next ((((s.afterW (stageW s)).afterM m).afterE e).endMoved (stageW s) m e
      { de := none, stall := false } { fd := none, pc := a }) :=
  cycle_of_stages hc hr hm hs he (by rw [ha]; rfl) (by rw [ha]; rfl)

end

theorem stageE_of_latch {s : State} {stored : List Nat} {l : DecodeLatch} (hl : s.de = some l)
    (hst : storedOver stored l.pc = false) : stageE s stored = executeOp s l := by
  simp [stageE, hl, hst]

/-! ### The load-use stall (R222) -/

theorem mem_srcsOf_iff (r : Reg) (i : Instr) : r ∈ srcsOf i ↔ readsRegister r i := by
  cases i <;> simp [srcsOf, readsRegister]

theorem loadUse_iff (s : State) (i : Instr) :
    loadUse s i = true ↔ ∃ e r, s.de = some e ∧ isLoadOp e.op = true ∧ e.dst = some r ∧
      readsRegister r i := by
  cases hde : s.de with
  | none => simp [loadUse, hde]
  | some e => cases hd : e.dst <;> simp [loadUse, hde, hd, ← mem_srcsOf_iff]

theorem executeOp_of_load (s : State) {l : DecodeLatch} (h : isLoadOp l.op = true) :
    executeOp s l = .ok (executeAccess s l 0) := by
  rcases (isLoadOp_iff _).1 h with hop | hop <;> simp [executeOp, hop]

theorem stageD_of_loadUse {s : State} {fw : Forwards} {d : FetchLatch} {i : Instr}
    (hfd : s.fd = some d) (hi : decode d.word = .ok i) (hu : loadUse s i = true) :
    stageD s fw none = .ok { de := none, stall := true } := by
  simp [stageD, hfd, decodeWord, hi, hu]

theorem loadUse_of_bubble {s : State} (h : s.de = none) (i : Instr) : loadUse s i = false := by
  simp [loadUse, h]

/-- With the counter in step with `EM`, Memory that does not stall leaves it 0 (R207). -/
theorem mbusy_of_stageM {s : State} {m : MemoryOut} (h : s.haltOk) (hm : stageM s = .ok m)
    (hs : m.stall = false) : m.mbusy = 0 := by
  cases stageM_ok s m hm with
  | bubble he ho =>
    subst ho
    by_contra hb
    obtain ⟨l, hl, -⟩ := h.busy hb
    rw [he] at hl; cases hl
  | pass l he hload hst ho =>
    subst ho
    by_contra hb
    obtain ⟨l', hl', hop⟩ := h.busy hb
    rw [he] at hl'
    obtain rfl := Option.some.inj hl'
    simp [hload, hst] at hop
  | count _ _ _ _ ho | load _ _ _ _ _ _ ho | store _ _ _ _ _ _ _ ho =>
    subst ho
    exact rem_eq_zero_of_not_stall hs

/-- Decode asserts the stall only on a load-use hazard of the word it holds. -/
theorem stageD_stall_iff {s : State} {fw : Forwards} {redirect : Option Word} {o : DecodeOut}
    (h : stageD s fw redirect = .ok o) :
    o.stall = true ↔ redirect = none ∧ ∃ d i, s.fd = some d ∧ decode d.word = .ok i ∧
      loadUse s i = true := by
  cases stageD_ok s fw redirect o h with
  | nothing hn ho =>
    subst ho
    refine ⟨fun h => (by cases h), ?_⟩
    rintro ⟨hr, d, i, hd, -⟩
    rw [hn.resolve_left (not_not_intro hr)] at hd
    cases hd
  | stalled d i hr hd hi hu ho => subst ho; exact ⟨fun _ => ⟨hr, d, i, hd, hi, hu⟩, fun _ => rfl⟩
  | decoded d i hr hd hi hu ho =>
    subst ho
    refine ⟨fun h => (by cases h), ?_⟩
    rintro ⟨-, d', i', hd', hi', hu'⟩
    rw [hd] at hd'
    obtain rfl := Option.some.inj hd'
    rw [hi] at hi'
    cases hi'
    rw [hu] at hu'
    cases hu'

/-- Settles O44: Decode stalls by `loadUse`, the load goes on to Memory, and the bubble behind it
ends the hazard. -/
theorem loadUseStallsOneCycle : Obligations.LoadUseStallsOneCycle := by
  refine ⟨fun s m e r d i hc hr hm hs hde hop hdst hfd hst hi hreads => ?_,
    fun s fw redirect o h => ?_⟩
  · have hload : isLoadOp e.op = true := (isLoadOp_iff _).2 hop
    have hu : loadUse s i = true := (loadUse_iff s i).2 ⟨e, r, hde, hload, hdst, hreads⟩
    have he : stageE s m.stored = .ok (executeAccess s e 0) :=
      (stageE_of_latch hde hst).trans (executeOp_of_load s hload)
    have hd : stageD s (forwardsOf (stageW s) m (executeAccess s e 0)) none =
      .ok { de := none, stall := true } := stageD_of_loadUse hfd hi hu
    refine ⟨_, executeLatch e e.a 0 none, cycle_of_stages hc hr hm hs he hd rfl, rfl, rfl, rfl, rfl,
      rfl, hdst, rfl, loadUse_of_bubble rfl, fun hhalt => ?_⟩
    have hb := mbusy_of_stageM hhalt hm hs
    exact ⟨hb, stageM_of_load rfl hload hb⟩
  · rw [stageD_stall_iff h]
    refine and_congr_right fun _ => ⟨?_, ?_⟩
    · rintro ⟨d, i, hd, hi, hu⟩
      obtain ⟨e, r, hde, hload, hdst, hreads⟩ := (loadUse_iff s i).1 hu
      exact ⟨e, r, d, i, hde, (isLoadOp_iff _).1 hload, hdst, hd, hi, hreads⟩
    · rintro ⟨e, r, d, i, hde, hop, hdst, hd, hi, hreads⟩
      exact ⟨d, i, hd, hi, (loadUse_iff s i).2 ⟨e, r, hde, (isLoadOp_iff _).2 hop, hdst, hreads⟩⟩

/-! ### Taken transfers (R213 to R217) -/

/-- A jump whose condition holds in the flags it was decoded with. -/
def takenJump (l : DecodeLatch) : Prop :=
  l.op = .jmp ∨ (l.op = .je ∧ l.flIn.eq = true) ∨ (l.op = .jne ∧ l.flIn.eq = false) ∨
    (l.op = .jlt ∧ l.flIn.lt = true) ∨ (l.op = .jle ∧ l.flIn.le = true) ∨
    (l.op = .jgt ∧ l.flIn.le = false) ∨ (l.op = .jge ∧ l.flIn.lt = false)

theorem executeOp_of_takenJump (s : State) {l : DecodeLatch} (h : takenJump l) :
    executeOp s l = .ok (executeJump s l true) := by
  rcases h with hop | ⟨hop, hf⟩ | ⟨hop, hf⟩ | ⟨hop, hf⟩ | ⟨hop, hf⟩ | ⟨hop, hf⟩ | ⟨hop, hf⟩
  · simp [executeOp, hop]
  · simp [executeOp, hop, condEqual, hf]
  · simp [executeOp, hop, condNotEqual, hf]
  · simp [executeOp, hop, condLess, hf]
  · simp [executeOp, hop, condLessOrEqual, hf]
  · simp [executeOp, hop, condGreater, hf]
  · simp [executeOp, hop, condGreaterOrEqual, hf]

theorem op_ne_call_of_takenJump {l : DecodeLatch} (h : takenJump l) : l.op ≠ .call := by
  intro hcall
  simp [takenJump, hcall] at h

theorem executeOp_of_call {s : State} {l : DecodeLatch} (hop : l.op = .call)
    (hroom : s.sp ≠ s.cfg.stackDepth) :
    executeOp s l = .ok { em := some (executeLatch l 0 0 none)
                          ras := s.ras.set s.sp (nextWordAddress l.pc), sp := s.sp + 1
                          redirect := some l.target, fwdReg := none, fwdFl := none } := by
  simp [executeOp, hop, executeCall, State.rasFull, hroom]

theorem executeOp_of_ret {s : State} {l : DecodeLatch} (hop : l.op = .ret) (hsome : s.sp ≠ 0) :
    executeOp s l = .ok { em := some (executeLatch l 0 0 none), ras := s.ras, sp := s.sp - 1
                          redirect := some s.rasTop, fwdReg := none, fwdFl := none } := by
  simp [executeOp, hop, executeRet, State.rasEmpty, hsome]

/-- Settles O46: a taken jump, `CALL` and `RET` redirect, and a redirect goes through
(`cycle_of_redirect`). -/
theorem takenTransferSquashesTwo : Obligations.TakenTransferSquashesTwo := by
  intro s m l hc hr hm hs hl hst
  have hE := stageE_of_latch hl hst
  refine ⟨fun htaken => ?_, fun hop hras hsome => ?_⟩
  · have hcases : takenJump l ∨ l.op = .call ∧ s.sp ≠ s.cfg.stackDepth := by
      unfold takenJump; tauto
    rcases hcases with hjump | ⟨hop, hroom⟩
    · have hcycle := cycle_of_redirect hc hr hm hs (hE.trans (executeOp_of_takenJump s hjump)) rfl
      exact ⟨_, hcycle, rfl, rfl, rfl, rfl, cycle_readReg hcycle, cycle_committedFlags hcycle,
        endStatus_ne_faulted _, fun hcall => absurd hcall (op_ne_call_of_takenJump hjump),
        fun _ => ⟨rfl, rfl⟩⟩
    · have hcycle := cycle_of_redirect hc hr hm hs (hE.trans (executeOp_of_call hop hroom)) rfl
      exact ⟨_, hcycle, rfl, rfl, rfl, rfl, cycle_readReg hcycle, cycle_committedFlags hcycle,
        endStatus_ne_faulted _, fun _ => ⟨rfl, rfl⟩, fun hne => absurd hop hne⟩
  · have hcycle := cycle_of_redirect hc hr hm hs (hE.trans (executeOp_of_ret hop hsome)) rfl
    exact ⟨_, hcycle, some_rasTop hras (Nat.pos_of_ne_zero hsome), rfl, rfl, rfl,
      cycle_readReg hcycle, cycle_committedFlags hcycle, endStatus_ne_faulted _, rfl, rfl⟩

/-! ### Fetch (R75, R79, R223, R224) -/

theorem fetchStop_iff (s : State) :
    fetchStop s = true ↔ (∃ w, s.fd = some w ∧ w.word.extractLsb' 24 8 = 0x50) ∨
      (∃ l, s.de = some l ∧ l.op = .halt) ∨ (∃ l, s.em = some l ∧ l.op = .halt) ∨
      (∃ l, s.mw = some l ∧ l.op = .halt) := by
  have hbyte : Opcode.halt.byte = 0x50 := rfl
  simp only [fetchStop, Bool.or_eq_true, or_assoc, opField_eq_extractLsb', hbyte]
  refine or_congr ?_ (or_congr ?_ (or_congr ?_ ?_))
  · cases s.fd <;> simp
  · cases s.de <;> simp
  · cases s.em <;> simp
  · cases s.mw <;> simp

section

variable {s : State} (hs : fetchStop s = false) (hin : s.pc.toNat + 4 ≤ s.cfg.memSize)
include hs hin

theorem stageF_storedOver (hst : storedOver s.stored s.pc = true) :
    stageF s none false = .error (.refuse (.selfModifiedCode s.pc)) := by
  simp [stageF, hs, fetchAt_inside s s.pc hin, hst]

theorem stageF_fetched (hst : storedOver s.stored s.pc = false) :
    stageF s none false = .ok { fd := some { pc := s.pc, word := memWord s.mem s.pc.toNat }
                                pc := nextWordAddress s.pc } := by
  simp [stageF, hs, fetchAt_inside s s.pc hin, hst]

end

/-- Settles O47, by the branches of the Fetch stage. -/
theorem fetchAdvancesOrStopsBehindHalt : Obligations.FetchAdvancesOrStopsBehindHalt := by
  intro s m e d hc hr hm hs he hredirect hd hstall
  rw [← hredirect] at hd
  have hF : stageF s e.redirect d.stall = stageF s none false := by rw [hredirect, hstall]
  refine ⟨fun hhalt => ?_, fun hfs hin hst => ?_, fun hfs hin hst => ?_⟩
  · exact ⟨_, cycle_of_stages hc hr hm hs he hd
      (hF.trans (stageF_of_fetchStop ((fetchStop_iff s).2 hhalt))), rfl, rfl, rfl⟩
  · exact cycle_of_fetch_refused hc hr hm hs he hd (hF.trans (stageF_storedOver hfs hin hst))
  · exact ⟨_, _, cycle_of_stages hc hr hm hs he hd (hF.trans (stageF_fetched hfs hin hst)), rfl,
      toNat_memWord _ _, rfl, rfl⟩

/-! ### What a faulting cycle leaves (R227) -/

/-- A word that does not decode has an unassigned opcode (R101, R103). -/
theorem not_mem_assignedOpcodes_of_decode {w : Word} (h : ∀ i, decode w ≠ .ok i) :
    (w.extractLsb' 24 8).toNat ∉ assignedOpcodes := by
  intro hmem
  have hassigned : ∀ b : Byte, b.toNat ∈ assignedOpcodes → (Opcode.ofByte b).isSome = true := by
    decide
  obtain ⟨op, hop⟩ := Option.isSome_iff_exists.1 (hassigned _ hmem)
  exact h _ (decode_of_opcodeBits op w (Opcode.byte_of_ofByte _ op hop))

theorem faultsInExecute_of_stageE {s : State} {stored : List Nat} {r : FaultRecord}
    (h : stageE s stored = .error (.fault r)) : faultsInExecute s r := by
  obtain ⟨e, hde, hcases⟩ := stageE_error s stored _ h
  rcases hcases with ⟨-, hstop⟩ | ⟨-, ⟨hop, hsp, hstop⟩ | ⟨hop, hsp, hstop⟩⟩
  · cases hstop
  · cases hstop; exact ⟨e, hde, .inl ⟨hop, hsp, rfl⟩⟩
  · cases hstop; exact ⟨e, hde, .inr ⟨hop, hsp, rfl⟩⟩

theorem faultsInDecode_of_stageD {s : State} {fw : Forwards} {redirect : Option Word}
    {r : FaultRecord} (h : stageD s fw redirect = .error (.fault r)) :
    redirect = none ∧ faultsInDecode s r := by
  obtain ⟨hr, d, hd, hdecode, hstop⟩ := stageD_error s fw redirect _ h
  cases hstop
  exact ⟨hr, d, hd, not_mem_assignedOpcodes_of_decode hdecode, rfl⟩

theorem faultsInFetch_of_stageF {s : State} {redirect : Option Word} {lustall : Bool}
    {r : FaultRecord} (h : stageF s redirect lustall = .error (.fault r)) :
    redirect = none ∧ faultsInFetch s r := by
  obtain ⟨-, hr, hfs, ⟨hout, hstop⟩ | ⟨-, -, hstop⟩⟩ := stageF_error s redirect lustall _ h
  · cases hstop; exact ⟨hr, hfs, hout, rfl⟩
  · cases hstop

/-- Settles O48, by the stage that faults. -/
theorem faultingCycleKeepsWhatIsCommitted : Obligations.FaultingCycleKeepsWhatIsCommitted := by
  intro s t r h hr
  obtain ⟨hfd, hde, hem, hmw, hpc, hbusy, hmdata⟩ := cycle_faulted_keepsLatches h hr
  refine ⟨hfd, hde, hem, hmw, hpc, hbusy, hmdata, cycle_readReg h, cycle_committedFlags h, ?_⟩
  obtain ⟨-, -, hcase⟩ := cycle_next s t h
  cases hcase with
  | stalled m _ _ ht | moved m _ _ _ _ _ _ _ _ ht =>
    subst ht
    exact absurd hr (endStatus_ne_faulted _ r)
  | faultM r' hm ht =>
    subst ht
    cases hr
    exact .inl ⟨stageM_fault s r' hm, rfl, rfl, rfl, rfl⟩
  | faultE m r' hm hs he ht =>
    subst ht
    cases hr
    exact .inr ⟨m, hm, hs, rfl, rfl, .inl ⟨faultsInExecute_of_stageE he, rfl, rfl⟩⟩
  | faultD m e r' hm hs he hd ht =>
    subst ht
    cases hr
    obtain ⟨hredirect, hfault⟩ := faultsInDecode_of_stageD hd
    exact .inr ⟨m, hm, hs, rfl, rfl, .inr ⟨e, he, hredirect, rfl, rfl, .inl hfault⟩⟩
  | faultF m e d r' hm hs he hd hf ht =>
    subst ht
    cases hr
    obtain ⟨hredirect, hfault⟩ := faultsInFetch_of_stageF hf
    exact .inr ⟨m, hm, hs, rfl, rfl, .inr ⟨e, he, hredirect, rfl, rfl, .inr hfault⟩⟩

/-! ### A step of the architectural view (R229) -/

/-- The bytes of memory at an address decode as the word there does. -/
theorem decode_memWord_of_decodeBytes {m : Mem} {a : Nat} {i : Instr} {rest : List Byte}
    (h : decodeBytes (readBytes m a 4) = .ok (i, rest)) : decode (memWord m a) = .ok i := by
  cases hd : decode (memWord m a) with
  | ok i' =>
    rw [decodeBytes_readBytes m a i' hd] at h
    cases h
    rfl
  | error e =>
    have hw : decode (BitVec.ofNat 32 (leValue [readByte m a, readByte m (a + 1),
      readByte m (a + 1 + 1), readByte m (a + 1 + 1 + 1)])) = .error e := hd
    simp [readBytes, decodeBytes, hw] at h

/-- Settles O8, by the last branch of `runInstruction`. -/
theorem stepRunsTheDecodedInstruction : Obligations.StepRunsTheDecodedInstruction := by
  intro s i hc hr hin hst hd
  rw [step_running s hc hr]
  exact runInstruction_decoded s i hin hst (decode_memWord_of_decodeBytes hd)

/-! ### The state of each stage (R203) -/

section

variable {s : State}

theorem memoryStall_of_ok {m : MemoryOut} (hm : stageM s = .ok m) : memoryStall s = m.stall := by
  simp [memoryStall, hm]

theorem redirectOf_of_ok {m : MemoryOut} {e : ExecuteOut} (hm : stageM s = .ok m)
    (hs : m.stall = false) (he : stageE s m.stored = .ok e) : redirectOf s = e.redirect := by
  simp [redirectOf, hm, hs, he]

theorem loadUseStall_of_ok {m : MemoryOut} {e : ExecuteOut} {d : DecodeOut} (hm : stageM s = .ok m)
    (hs : m.stall = false) (he : stageE s m.stored = .ok e)
    (hd : stageD s (forwardsOf (stageW s) m e) e.redirect = .ok d) :
    loadUseStall s = d.stall := by
  simp [loadUseStall, hm, hs, he, hd]

/-- Without a signal no stage is stalled or squashed. -/
theorem stageState_quiet (hm : memoryStall s = false) (hr : redirectOf s = none)
    (hu : loadUseStall s = false) (st : Stage) :
    stageState s st = .idle ∨ stageState s st = .busy := by
  cases st with
  | writeback | memory | execute | decode | fetch =>
    simp only [stageState, hm, hr, hu, Option.isSome_none, Bool.false_eq_true, if_false]
    split <;> simp

theorem stageState_quiet_of_stageM_error {stop : StageStop} (hm : stageM s = .error stop)
    (st : Stage) : stageState s st = .idle ∨ stageState s st = .busy :=
  stageState_quiet (by simp [memoryStall, hm]) (by simp [redirectOf, hm])
    (by simp [loadUseStall, hm]) st

theorem stageState_quiet_of_stageE_error {m : MemoryOut} {stop : StageStop}
    (hm : stageM s = .ok m) (hs : m.stall = false) (he : stageE s m.stored = .error stop)
    (st : Stage) : stageState s st = .idle ∨ stageState s st = .busy :=
  stageState_quiet (by rw [memoryStall_of_ok hm, hs]) (by simp [redirectOf, hm, hs, he])
    (by simp [loadUseStall, hm, hs, he]) st

theorem stageState_quiet_of_stageD_error {m : MemoryOut} {e : ExecuteOut} {stop : StageStop}
    (hm : stageM s = .ok m) (hs : m.stall = false) (he : stageE s m.stored = .ok e)
    (hr : e.redirect = none) (hd : stageD s (forwardsOf (stageW s) m e) none = .error stop)
    (st : Stage) : stageState s st = .idle ∨ stageState s st = .busy :=
  stageState_quiet (by rw [memoryStall_of_ok hm, hs]) (by rw [redirectOf_of_ok hm hs he, hr])
    (by simp [loadUseStall, hm, hs, he, hr, hd]) st

theorem stageState_memory (h : s.em ≠ none) :
    stageState s .memory = if memoryStall s then .stalled else .busy := by
  simp [stageState, h]

theorem stageState_execute (h : s.de ≠ none) :
    stageState s .execute = if memoryStall s then .stalled else .busy := by
  simp [stageState, h]

theorem stageState_decode (h : s.fd ≠ none) :
    stageState s .decode =
      if memoryStall s then .stalled else if (redirectOf s).isSome then .squashed
      else if loadUseStall s then .stalled else .busy := by
  simp [stageState, h]

theorem stageState_fetch (h : fetchStop s = false) :
    stageState s .fetch =
      if memoryStall s then .stalled else if (redirectOf s).isSome then .squashed
      else if loadUseStall s then .stalled else .busy := by
  simp [stageState, h]

end

/-- Settles O56, signal by signal, in the order of the stages that raise them. -/
theorem stageStatesFollowTheSignals : Obligations.StageStatesFollowTheSignals := by
  intro s
  refine ⟨?_, fun h => by simp [stageState, h],
    fun stop hm => stageState_quiet_of_stageM_error hm, fun m hm => ⟨fun hs => ?_, fun hs => ?_⟩⟩
  · cases hw : s.mw <;> simp [stageState, hw]
  · have hstall : memoryStall s = true := (memoryStall_of_ok hm).trans hs
    exact ⟨fun h => by simp [stageState_memory h, hstall],
      fun h => by simp [stageState_execute h, hstall],
      fun h => by simp [stageState_decode h, hstall],
      fun h => by simp [stageState_fetch h, hstall]⟩
  · have hstall : memoryStall s = false := (memoryStall_of_ok hm).trans hs
    refine ⟨fun h => by simp [stageState_memory h, hstall],
      fun h => by simp [stageState_execute h, hstall],
      fun stop he => stageState_quiet_of_stageE_error hm hs he,
      fun e he => ⟨fun hr => ?_, fun hr d hd => ?_,
        fun hr stop hd => stageState_quiet_of_stageD_error hm hs he hr hd⟩⟩
    · have hsome : (redirectOf s).isSome = true := by
        rw [redirectOf_of_ok hm hs he]
        exact Option.isSome_iff_ne_none.2 hr
      exact ⟨fun h => by simp [stageState_decode h, hstall, hsome],
        fun h => by simp [stageState_fetch h, hstall, hsome]⟩
    · have hredirect : redirectOf s = none := (redirectOf_of_ok hm hs he).trans hr
      rw [← hr] at hd
      have hlu : loadUseStall s = d.stall := loadUseStall_of_ok hm hs he hd
      refine ⟨fun hst => ?_, fun hst => ?_⟩
      · obtain ⟨-, w, i, hfd, -⟩ := (stageD_stall_iff hd).1 hst
        have hne : s.fd ≠ none := by simp [hfd]
        exact ⟨hne, by simp [stageState_decode hne, hstall, hredirect, hlu, hst],
          fun h => by simp [stageState_fetch h, hstall, hredirect, hlu, hst]⟩
      · exact ⟨fun h => by simp [stageState_decode h, hstall, hredirect, hlu, hst],
          fun h => by simp [stageState_fetch h, hstall, hredirect, hlu, hst]⟩

end Machine

end Sys2Proof

/-! SUPPORT. The obligations of `60_exceptions.md`: which of several faults a cycle takes (R260,
R264, R265), and the controller's step, run and reads (R277, R278, R280, R281). -/

namespace Sys2Proof

namespace Machine

/-! ### The stage that faults (R260) -/

/-- A fault ends the cycle in a next state that carries its record (R262). -/
theorem stopCycle_fault (u : State) (r : FaultRecord) :
    ∃ t, stopCycle u (.fault r) = .next t ∧ t.status = .faulted r :=
  ⟨_, rfl, rfl⟩

theorem stageM_of_faultsInMemory {s : State} {r : FaultRecord} (h : faultsInMemory s r) :
    stageM s = .error (.fault r) := by
  obtain ⟨l, hem, hbusy, hop, halign, hout, rfl⟩ := h
  cases hl : isLoadOp l.op with
  | true =>
    rw [stageM_of_load hem hl hbusy, issueLoad, (dataRead_outOfBounds s l.res).2 ⟨halign, hout⟩]
  | false =>
    have hst : isStoreOp l.op = true := by rwa [hl, Bool.false_or] at hop
    rw [stageM_of_store hem hst hbusy, issueStore,
      (dataWrite_outOfBounds s l.res l.sdata).2 ⟨halign, hout⟩]

theorem stageE_of_faultsInExecute {s : State} {stored : List Nat} {r : FaultRecord}
    (hst : ∀ l, s.de = some l → storedOver stored l.pc = false) (h : faultsInExecute s r) :
    stageE s stored = .error (.fault r) := by
  obtain ⟨l, hde, ⟨hop, hsp, rfl⟩ | ⟨hop, hsp, rfl⟩⟩ := h
  · simp [stageE_of_latch hde (hst l hde), executeOp, hop, executeCall, State.rasFull, hsp]
  · simp [stageE_of_latch hde (hst l hde), executeOp, hop, executeRet, State.rasEmpty, hsp]

theorem stageD_of_faultsInDecode {s : State} {r : FaultRecord} (fw : Forwards)
    (h : faultsInDecode s r) : stageD s fw none = .error (.fault r) := by
  obtain ⟨d, hfd, hop, rfl⟩ := h
  simp [stageD, hfd, decodeWord, decode_of_unassigned d.word hop]

theorem stageF_of_faultsInFetch {s : State} {r : FaultRecord} (h : faultsInFetch s r) :
    stageF s none false = .error (.fault r) := by
  obtain ⟨hfs, hout, rfl⟩ := h
  simp [stageF, hfs, fetchAt_outside s s.pc hout]

/-! ### The fault that a cycle takes (R227, R264) -/

section

variable {s : State} {r : FaultRecord} (hc : s.cfg.wf = true) (hr : s.status = .running)
include hc hr

theorem cycle_of_memory_fault (hm : stageM s = .error (.fault r)) :
    ∃ t, cycle s = .next t ∧ t.status = .faulted r := by
  simp only [cycle_running s hc hr, runCycle, hm, stopCycle_fault]

variable {m : MemoryOut} (hm : stageM s = .ok m) (hs : m.stall = false)
include hm hs

theorem cycle_of_execute_fault (he : stageE s m.stored = .error (.fault r)) :
    ∃ t, cycle s = .next t ∧ t.status = .faulted r := by
  simp only [cycle_running s hc hr, runCycle, hm, hs, Bool.false_eq_true, if_false, he,
    stopCycle_fault]

variable {e : ExecuteOut} (he : stageE s m.stored = .ok e)
include he

theorem cycle_of_decode_fault
    (hd : stageD s (forwardsOf (stageW s) m e) e.redirect = .error (.fault r)) :
    ∃ t, cycle s = .next t ∧ t.status = .faulted r := by
  simp only [cycle_running s hc hr, runCycle, hm, hs, Bool.false_eq_true, if_false, he, hd,
    stopCycle_fault]

theorem cycle_of_fetch_fault {d : DecodeOut}
    (hd : stageD s (forwardsOf (stageW s) m e) e.redirect = .ok d)
    (hf : stageF s e.redirect d.stall = .error (.fault r)) :
    ∃ t, cycle s = .next t ∧ t.status = .faulted r := by
  simp only [cycle_running s hc hr, runCycle, hm, hs, Bool.false_eq_true, if_false, he, hd, hf,
    stopCycle_fault]

end

/-- Settles O49, stage by stage from Writeback: the first stage to fault ends the cycle, whatever
the stages behind it hold. -/
theorem oldestFaultWins : Obligations.OldestFaultWins := by
  intro s r hc hr
  refine ⟨fun hM => cycle_of_memory_fault hc hr (stageM_of_faultsInMemory hM),
    fun m hm => ⟨fun hs => ?_, fun hs => ⟨fun hst hE => ?_, fun e he hredirect =>
      ⟨fun hD => ?_, fun d hd hstall hF => ?_⟩⟩⟩⟩
  · exact ⟨_, cycle_of_stall hc hr hm hs, endStatus_ne_faulted _⟩
  · exact cycle_of_execute_fault hc hr hm hs (stageE_of_faultsInExecute hst hE)
  · refine cycle_of_decode_fault hc hr hm hs he ?_
    rw [hredirect]
    exact stageD_of_faultsInDecode _ hD
  · rw [← hredirect] at hd
    refine cycle_of_fetch_fault hc hr hm hs he hd ?_
    rw [hredirect, hstall]
    exact stageF_of_faultsInFetch hF

/-! ### The controller's step (R277) -/

theorem atBreakpoint_iff (s : State) : atBreakpoint s = true ↔ s.pc.toNat ∈ s.breakpoints :=
  List.contains_iff_mem

theorem controllerStep_stopped {s : State} (hr : s.status ≠ .running) :
    controllerStep s = .next (s, reportOf s) := by
  cases hs : s.status with
  | running => exact absurd hs hr
  | halted | faulted => simp [controllerStep, hs]

theorem controllerStep_next_iff {s : State} (hr : s.status = .running) (t : State)
    (rep : StepReport) :
    controllerStep s = .next (t, rep) ↔ cycle s = .next t ∧ rep = reportOf t := by
  cases hc : cycle s with
  | next u =>
    simp only [controllerStep, hr, hc, Host.Outcome.next.injEq, Prod.mk.injEq]
    exact and_congr_right fun hu => hu ▸ eq_comm
  | fault | refused => simp [controllerStep, hr, hc]

theorem controllerStep_refused_iff {s : State} (hr : s.status = .running) (why : Refusal) :
    controllerStep s = .refused why ↔ cycle s = .refused why := by
  cases hc : cycle s <;> simp [controllerStep, hr, hc]

/-- Settles O52, by what the step of a Running and of a stopped engine answers. -/
theorem controllerStepIsOneCycle : Obligations.ControllerStepIsOneCycle := by
  intro s
  refine ⟨fun hr => ⟨fun t => ?_, fun t rep h => ?_, fun why => ?_⟩, fun hr => ?_⟩
  · simp [controllerStep_next_iff hr]
  · obtain ⟨-, rfl⟩ := (controllerStep_next_iff hr t rep).1 h
    exact ⟨rfl, atBreakpoint_iff t⟩
  · exact (controllerStep_refused_iff hr why).symm
  · exact ⟨_, controllerStep_stopped hr, rfl, atBreakpoint_iff s⟩

/-! ### The reasons of `run()` (R278) -/

theorem stopReason_breakpoint_iff (t : State) :
    stopReason t = some .breakpoint ↔ t.status = .running ∧ t.pc.toNat ∈ t.breakpoints := by
  cases hs : t.status <;> simp [stopReason, hs, ← atBreakpoint_iff]

theorem stopReason_halted_iff (t : State) : stopReason t = some .halted ↔ t.status = .halted := by
  cases hs : t.status <;> simp [stopReason, hs]

theorem stopReason_faulted_iff (t : State) (f : FaultRecord) :
    stopReason t = some (.faulted f) ↔ t.status = .faulted f := by
  cases hs : t.status <;> simp [stopReason, hs]

theorem stopReason_ne_budgetSpent (t : State) : stopReason t ≠ some .budgetSpent := by
  cases hs : t.status <;> simp [stopReason, hs]

theorem running_of_stopReason_none {t : State} (h : stopReason t = none) : t.status = .running := by
  cases hs : t.status with
  | running => rfl
  | halted | faulted => simp [stopReason, hs] at h

/-! ### The first reason on the way (R278) -/

/-- `j` cycles, at least one, lead from `s` to `t`, where `why` holds, and no reason holds after a
smaller positive number of cycles. -/
structure FirstStop (j : Nat) (s t : State) (why : StopReason) : Prop where
  pos : 1 ≤ j
  leads : cycles j s = .next t
  reason : stopReason t = some why
  first : ∀ i u, 1 ≤ i → i < j → cycles i s = .next u → stopReason u = none

theorem cycles_succ_of_cycle {s u : State} (h : cycle s = .next u) (n : Nat) :
    cycles (n + 1) s = cycles n u := by
  simp [cycles, h]

theorem firstStop_one {s t : State} {why : StopReason} (h : cycle s = .next t)
    (ht : stopReason t = some why) : FirstStop 1 s t why where
  pos := Nat.le_refl 1
  leads := cycles_succ_of_cycle h 0
  reason := ht
  first _ _ hi hlt _ := absurd hlt (Nat.not_lt.2 hi)

theorem firstStop_succ {j : Nat} {s u t : State} {why : StopReason} (h : cycle s = .next u)
    (hu : stopReason u = none) (hj : FirstStop j u t why) : FirstStop (j + 1) s t why where
  pos := Nat.succ_pos j
  leads := (cycles_succ_of_cycle h j).trans hj.leads
  reason := hj.reason
  first i v hi hlt hv := by
    obtain ⟨k, rfl⟩ := Nat.exists_eq_add_of_le' hi
    rw [cycles_succ_of_cycle h k] at hv
    cases k with
    | zero =>
      obtain rfl : v = u := eq_of_next hv
      exact hu
    | succ k => exact hj.first _ v (Nat.succ_pos k) (Nat.lt_of_succ_lt_succ hlt) hv

/-- The first cycle of the way has its reason, or the rest of the way leads to its first one. -/
theorem firstStop_cases {j : Nat} {s t : State} {why : StopReason} (h : FirstStop (j + 1) s t why) :
    ∃ u, cycle s = .next u ∧
      ((u = t ∧ stopReason u = some why) ∨ (stopReason u = none ∧ FirstStop j u t why)) := by
  obtain ⟨u, hcycle, hrest⟩ := cycles_succ j s t h.leads
  refine ⟨u, hcycle, ?_⟩
  cases j with
  | zero =>
    obtain rfl : t = u := eq_of_next hrest
    exact .inl ⟨rfl, h.reason⟩
  | succ j =>
    have hu : stopReason u = none :=
      h.first 1 u (Nat.le_refl 1) (by omega) (cycles_succ_of_cycle hcycle 0)
    refine .inr ⟨hu, Nat.succ_pos j, hrest, h.reason, fun i v hi hlt hv => ?_⟩
    exact h.first (i + 1) v (Nat.succ_pos i) (Nat.succ_lt_succ hlt)
      ((cycles_succ_of_cycle hcycle i).trans hv)

/-! ### `run()` (R278) -/

section

variable {n : Nat} {s t u : State} {rep : StepReport} {why : StopReason}

theorem controllerRun_of_reason (h : controllerStep s = .next (t, rep))
    (ht : stopReason t = some why) : controllerRun (n + 1) s = .next (t, why) := by
  simp [controllerRun, h, ht]

theorem controllerRun_of_no_reason (h : controllerStep s = .next (u, rep))
    (hu : stopReason u = none) : controllerRun (n + 1) s = controllerRun n u := by
  simp [controllerRun, h, hu]

theorem controllerRun_stopped (hn : 1 ≤ n) (hs : s.status ≠ .running)
    (hwhy : stopReason s = some why) : controllerRun n s = .next (s, why) := by
  obtain ⟨n, rfl⟩ := Nat.exists_eq_add_of_le' hn
  exact controllerRun_of_reason (controllerStep_stopped hs) hwhy

/-- A run that answers made its first step, and stopped there or went on from there. -/
theorem controllerRun_cases (h : controllerRun (n + 1) s = .next (t, why)) :
    ∃ u rep, controllerStep s = .next (u, rep) ∧
      ((u = t ∧ stopReason u = some why) ∨
        (stopReason u = none ∧ controllerRun n u = .next (t, why))) := by
  cases hstep : controllerStep s with
  | next p =>
    obtain ⟨u, rep⟩ := p
    refine ⟨u, rep, rfl, ?_⟩
    cases hu : stopReason u with
    | some w =>
      rw [controllerRun_of_reason hstep hu] at h
      cases h
      exact .inl ⟨rfl, rfl⟩
    | none => exact .inr ⟨rfl, by rwa [controllerRun_of_no_reason hstep hu] at h⟩
  | fault | refused => simp [controllerRun, hstep] at h

theorem firstStop_of_controllerRun (hr : s.status = .running)
    (h : controllerRun n s = .next (t, why)) (hwhy : why ≠ .budgetSpent) :
    ∃ j, j ≤ n ∧ FirstStop j s t why := by
  induction n generalizing s with
  | zero =>
    cases h
    exact absurd rfl hwhy
  | succ n ih =>
    obtain ⟨u, rep, hstep, hcases⟩ := controllerRun_cases h
    obtain ⟨hcycle, -⟩ := (controllerStep_next_iff hr u rep).1 hstep
    rcases hcases with ⟨rfl, hu⟩ | ⟨hu, hrun⟩
    · exact ⟨1, Nat.succ_pos n, firstStop_one hcycle hu⟩
    · obtain ⟨j, hle, hj⟩ := ih (running_of_stopReason_none hu) hrun
      exact ⟨j + 1, Nat.succ_le_succ hle, firstStop_succ hcycle hu hj⟩

theorem controllerRun_of_firstStop {j : Nat} (hr : s.status = .running) (hle : j ≤ n)
    (h : FirstStop j s t why) : controllerRun n s = .next (t, why) := by
  induction n generalizing s j with
  | zero => exact absurd h.pos (Nat.not_lt.2 hle)
  | succ n ih =>
    obtain ⟨j, rfl⟩ := Nat.exists_eq_add_of_le' h.pos
    obtain ⟨u, hcycle, hcases⟩ := firstStop_cases h
    have hstep : controllerStep s = .next (u, reportOf u) :=
      (controllerStep_next_iff hr u _).2 ⟨hcycle, rfl⟩
    rcases hcases with ⟨rfl, hu⟩ | ⟨hu, hj⟩
    · exact controllerRun_of_reason hstep hu
    · rw [controllerRun_of_no_reason hstep hu]
      exact ih (running_of_stopReason_none hu) (Nat.le_of_succ_le_succ hle) hj

end

/-- Settles O53: by induction on the budget, a run answers a reason exactly where the first one
(`FirstStop`) holds within it. -/
theorem runStopsForItsReason : Obligations.RunStopsForItsReason := by
  refine ⟨fun t => ⟨stopReason_breakpoint_iff t, stopReason_halted_iff t,
    stopReason_faulted_iff t, stopReason_ne_budgetSpent t⟩, ?_, ?_, fun n s hn => ⟨?_, ?_⟩⟩
  · intro n s t why hr h hwhy
    obtain ⟨j, hle, hpos, hleads, hreason, hfirst⟩ := firstStop_of_controllerRun hr h hwhy
    exact ⟨j, hpos, hle, hleads, hreason, hfirst⟩
  · intro n j s t why hr hpos hle hleads hreason hfirst
    exact controllerRun_of_firstStop hr hle ⟨hpos, hleads, hreason, hfirst⟩
  · intro hs
    exact controllerRun_stopped hn (by simp [hs]) ((stopReason_halted_iff s).2 hs)
  · intro f hs
    exact controllerRun_stopped hn (by simp [hs]) ((stopReason_faulted_iff s f).2 hs)

/-! ### The controller's reads (R280, R281) -/

theorem readRegister_of_reg (s : State) (r : Reg) : readRegister r.val s = .value (s.readReg r) :=
  dif_pos r.isLt

theorem readRegister_of_gt (s : State) {id : Nat} (h : 15 < id) :
    readRegister id s = .refused (.noSuchRegister id) :=
  dif_neg (Nat.not_lt.2 h)

/-- The test of `readMemory` accepts the three widths at multiples of themselves. -/
theorem readable_iff (addr n : Nat) :
    ([1, 2, 4].contains n && isAligned addr n) = true ↔ n ∈ [1, 2, 4] ∧ addr % n = 0 := by
  rw [Bool.and_eq_true, List.contains_iff_mem, isAligned, beq_iff_eq]

section

variable (s : State) {addr n : Nat}

theorem readMemory_inside (hn : n ∈ [1, 2, 4]) (ha : addr % n = 0)
    (hb : addr + n ≤ s.cfg.memSize) :
    readMemory addr n s = .value (BitVec.ofNat 32 (leValue (readBytes s.mem addr n))) := by
  rw [readMemory, (readable_iff addr n).2 ⟨hn, ha⟩]
  exact if_pos (decide_eq_true hb)

theorem readMemory_outside (hn : n ∈ [1, 2, 4]) (ha : addr % n = 0)
    (hb : s.cfg.memSize < addr + n) : readMemory addr n s = .outOfBounds := by
  rw [readMemory, (readable_iff addr n).2 ⟨hn, ha⟩]
  exact if_neg (mt of_decide_eq_true (Nat.not_le.2 hb))

theorem readMemory_refused (h : n ∉ [1, 2, 4] ∨ addr % n ≠ 0) :
    readMemory addr n s = .refused (.badMemoryRead addr n) := by
  rw [readMemory, Bool.eq_false_iff.2 (mt (readable_iff addr n).1 (not_and_or.2 h))]
  rfl

end

/-- At most four bytes fit in a word. -/
theorem toNat_ofNat_leValue {bs : List Byte} (h : bs.length ≤ 4) :
    (BitVec.ofNat 32 (leValue bs)).toNat = leValue bs := by
  have hlt : leValue bs < 2 ^ 32 :=
    calc leValue bs < 256 ^ bs.length := leValue_lt bs
      _ ≤ 256 ^ 4 := Nat.pow_le_pow_right (by decide) h
  rw [BitVec.toNat_ofNat, Nat.mod_eq_of_lt hlt]

/-- Settles O55: the branches of the two reads, and a load of a legal memory system gives the word
of memory (`ofNat_hierRead`). -/
theorem controllerReadsSeeCommittedState : Obligations.ControllerReadsSeeCommittedState := by
  refine ⟨readRegister_of_reg, fun s _ => readRegister_of_gt s, fun s addr n =>
    ⟨fun hn ha hb => ?_, readMemory_outside s, readMemory_refused s⟩, ?_⟩
  · refine ⟨_, readMemory_inside s hn ha hb, toNat_ofNat_leValue ?_⟩
    rw [readBytes_length]
    simp only [List.mem_cons, List.not_mem_nil, or_false] at hn
    omega
  · intro s t ra addr hs ha hb h
    have hload := loadWord_of_aligned ra ha hb
    obtain rfl := eq_of_next (hload.symm.trans h)
    rw [readMemory_inside s (by decide) ha hb, State.readReg_advance, State.readReg_writeReg_same,
      ofNat_hierRead s hs addr.toNat ha, memWord]

end Machine

end Sys2Proof

/-! SUPPORT. The encoder read back by the decoder (`30_encoding.md` R90 to R100), the words of
`95_test_vectors.md` V11 to V13, and what reset leaves (`70_reset_and_hazards.md` R290, R292). -/

namespace Sys2Proof

namespace Machine

/-! ### The fields of an encoded instruction (R91 to R100) -/

theorem opField_encode (i : Instr) : opField (encode i) = i.op.byte := by
  cases i with
  | addi | subi | andi | ori | xori | shli | shri | addu | subu | shru | cmp32 | ldin32 | stin32 =>
    exact opField_encodeR ..
  | addim | ld32 | st32 => exact opField_encodeI ..
  | jmp | je | jne | jlt | jle | jgt | jge | call => exact opField_encodeJ ..
  | ret | halt => exact opField_encodeZ _

/-- A value in the range of R97 is the sign extension of its low 20 bits. -/
theorem sext20_low {imm : Word} (h : isSext20 imm = true) : sext20 (imm.toNat % 1048576) = imm := by
  simp only [isSext20, Bool.and_eq_true, decide_eq_true_eq, BitVec.toInt_eq_toNat_cond] at h
  have hlt : imm.toNat < 4294967296 := imm.isLt
  apply BitVec.eq_of_toNat_eq
  rw [sext20, apply_ite BitVec.toNat, BitVec.toNat_ofNat, BitVec.toNat_ofNat]
  split_ifs at h ⊢ <;> omega

/-- A direct address is its own low 20 bits (R98). -/
theorem zext_low {addr : Word} (h : isDirectAddress addr = true) :
    zext (addr.toNat % 1048576) = addr := by
  have hlt : addr.toNat < 1048576 := of_decide_eq_true h
  rw [zext, Nat.mod_eq_of_lt hlt]
  exact BitVec.ofNat_toNat ..

/-- A target is 4 times its field (R99). -/
theorem scaledTarget_field {target : Word} (h : isTarget target = true) :
    scaledTarget (target.toNat / 4 % 16777216) = target := by
  simp only [isTarget, Bool.and_eq_true, beq_iff_eq, decide_eq_true_eq] at h
  apply BitVec.eq_of_toNat_eq
  rw [scaledTarget, BitVec.toNat_ofNat]
  omega

/-- The row of an instruction, filled from the fields of its own word, is the instruction. -/
theorem buildInstr_encode (i : Instr) (h : i.wf = true) : buildInstr i.op (encode i) = i := by
  cases i with
  | addi | subi | andi | ori | xori | shli | shri | addu | subu | shru | cmp32 | ldin32 | stin32 =>
    simp only [Instr.op, encode, buildInstr, raField_encodeR, rbField_encodeR, rcField_encodeR]
  | addim =>
    simp only [Instr.op, encode, buildInstr, raField_encodeI, imm20Field_encodeI, sext20_low h]
  | ld32 | st32 =>
    simp only [Instr.op, encode, buildInstr, raField_encodeI, imm20Field_encodeI, zext_low h]
  | jmp | je | jne | jlt | jle | jgt | jge | call =>
    simp only [Instr.op, encode, buildInstr, tgt24Field_encodeJ, scaledTarget_field h]
  | ret | halt => rfl

theorem decode_encode (i : Instr) (h : i.wf = true) : decode (encode i) = .ok i := by
  rw [decode_of_opField _ _ (opField_encode i), buildInstr_encode i h]

/-- The bytes of a word that decodes, before any others, decode to its instruction (R54). -/
theorem decodeBytes_wordBytes_append {w : Word} {i : Instr} (h : decode w = .ok i)
    (rest : List Byte) : decodeBytes (wordBytes w ++ rest) = .ok (i, rest) := by
  have hw := ofNat_leValue_wordBytes w
  simp only [wordBytes, leBytes] at hw
  simp only [wordBytes, leBytes, List.cons_append, List.nil_append, decodeBytes, hw, h]

/-- Settles O4: an instruction's word has its opcode byte and its fields. -/
theorem decodeOfEncodeIsTheInstruction : Obligations.DecodeOfEncodeIsTheInstruction := by
  intro i h
  have hdecode := decode_encode i h
  exact ⟨hdecode, decodeBytes_wordBytes_append hdecode⟩

/-! ### Words of the test vectors (V11, V12, V13) -/

/-- Settles O7: each word has the opcode byte of its row, the last two have that of no row. -/
theorem specWordsDecode : Obligations.SpecWordsDecode :=
  ⟨decode_of_opField _ .addi rfl, decode_of_opField _ .shru rfl, decode_of_opField _ .addim rfl,
    decode_of_opField _ .cmp32 rfl, decode_of_opField _ .ld32 rfl, decode_of_opField _ .stin32 rfl,
    decode_of_opField _ .jmp rfl, decode_of_opField _ .call rfl, decode_of_opField _ .ret rfl,
    decode_of_opField _ .halt rfl, decode_of_unassigned _ (by decide),
    decode_of_unassigned _ (by decide)⟩

/-! ### What reset leaves (R44, R290, R292) -/

theorem construct_of_wf {cfg : Config} (h : cfg.wf = true) :
    construct cfg = .ok (State.init cfg []) := by
  rw [construct, beq_iff_eq.1 h]

theorem readReg_init (cfg : Config) (bps : List Nat) (r : Reg) :
    (State.init cfg bps).readReg r = 0 := by
  simp [State.readReg, State.init]

/-- A sound ENTRY fits in a word, so `pc` holds it unchanged. -/
theorem init_pc_toNat {cfg : Config} (bps : List Nat) (h : cfg.Ok) :
    (State.init cfg bps).pc.toNat = cfg.entry := by
  have hpc : (State.init cfg bps).pc = BitVec.ofNat 32 cfg.entry := rfl
  have hinside := h.entryInside
  have hmax : cfg.memSize ≤ 4294967296 := h.memMax
  rw [hpc, BitVec.toNat_ofNat]
  omega

theorem readByte_loadedMemory_image {cfg : Config} {k : Nat} {b : Byte}
    (h : cfg.image[k]? = some b) : readByte (loadedMemory cfg) (cfg.loadBase + k) = b := by
  obtain ⟨hlt, hb⟩ := List.getElem?_eq_some_iff.1 h
  rw [loadedMemory, readByte_writeBytes_inside [] cfg.loadBase cfg.image k rfl hlt, hb]

theorem readByte_loadedMemory_outside {cfg : Config} {a : Nat}
    (h : a < cfg.loadBase ∨ cfg.loadBase + cfg.image.length ≤ a) :
    readByte (loadedMemory cfg) a = 0 :=
  readByte_writeBytes_outside [] cfg.loadBase cfg.image a rfl h

theorem emptyCache_lines (lv : Level) :
    (emptyCache lv).length = lv.nlines ∧
      ∀ ln ∈ emptyCache lv, ln.valid = false ∧ ln.tag = 0 ∧
        ln.data = List.replicate lv.line 0 := by
  refine ⟨List.length_replicate, fun ln hln => ?_⟩
  obtain rfl := List.eq_of_mem_replicate hln
  exact ⟨rfl, rfl, rfl⟩

/-- Settles O2: reset is `State.init` of the state's own configuration and breakpoints. -/
theorem resetLeavesTheTable : Obligations.ResetLeavesTheTable := by
  intro s hcfg
  have hreset : controllerReset s = State.init s.cfg s.breakpoints := rfl
  rw [hreset]
  exact ⟨readReg_init _ _, rfl, init_pc_toNat _ (Config.ok_of_wf _ hcfg), List.length_replicate,
    fun _ => List.eq_of_mem_replicate, rfl, fun _ _ => readByte_loadedMemory_image,
    fun _ => readByte_loadedMemory_outside,
    List.forall₂_map_right_iff.2 (List.forall₂_same.2 fun lv _ => emptyCache_lines lv),
    rfl, rfl, rfl, rfl, rfl, rfl, rfl, rfl, rfl, construct_of_wf hcfg⟩

end Machine

end Sys2Proof
